-- ==== Sys2Proof/Word.lean ====
section
/-! DEFINITION. The word types of gbajs-MMU: a byte, the 32-bit word of the command and response ports, and the address. -/

namespace Sys2Proof

/-- One byte of a backing store (10_state.md R13, R14). -/
abbrev Byte := BitVec 8

/-- A 32-bit word: an address (20_memory.md R30), store data and load results (30_encoding.md R51, R59). -/
abbrev Word := BitVec 32

end Sys2Proof
end

