-- ==== Sys2Proof/Syntax.lean ====
section
/-! DEFINITION. The syntax of the command port: the DMA descriptor, the 19 operations, and the raw command record. -/

namespace Sys2Proof

/-- A handle to an externally supplied byte buffer (30_encoding.md R51, format H). The spec gives a handle no width;
here it is an index into the table of buffers the host supplies (assumption log 6). -/
abbrev Handle := Nat

/-- An address-control mode: "increment / decrement / fixed — exactly 3 values" (30_encoding.md R57). The fourth,
reserved code is refused by the decoder, so no term stands for it (decision D16). -/
inductive AddrCtl where
  | increment
  | decrement
  | fixed
  deriving DecidableEq, Repr

/-- The DMA descriptor (30_encoding.md R56). `rep` is the spec's `repeat`. -/
structure Descriptor where
  src    : Word
  dst    : Word
  srcCtl : AddrCtl
  dstCtl : AddrCtl
  w32    : Bool
  count  : BitVec 17
  rep    : Bool
  enable : Bool
  deriving DecidableEq, Repr

/-- The 19 operations of the command port (30_encoding.md R50, opcode_table.json), one constructor per row. -/
inductive Instr where
  | reset
  | mapBios (buf : Handle)
  | mapRom (buf : Handle) (extract : Bool)
  | load8 (addr : Word)
  | loadU8 (addr : Word)
  | load16 (addr : Word)
  | loadU16 (addr : Word)
  | load32 (addr : Word)
  | store8 (addr : Word) (wdata : Word)
  | store16 (addr : Word) (wdata : Word)
  | store32 (addr : Word) (wdata : Word)
  | waitN16 (addr : Word)
  | waitS16 (addr : Word)
  | waitN32 (addr : Word)
  | waitS32 (addr : Word)
  | adjTim (ctl : BitVec 16)
  | dmaXfer (chan : BitVec 2) (d : Descriptor)
  | icMark (page : BitVec 24)
  | icQuery (page : BitVec 24)
  deriving DecidableEq, Repr

/-- One command as it stands on the command port (30_encoding.md R50, R51): the 5-bit selector, and beside it the
operand fields of all formats, each a port field of its own ("operand fields are separate port fields, not packed into
the selector word", opcode_table.json). A format's operation reads its own fields and ignores the others. -/
structure Command where
  op      : BitVec 5
  addr    : Word
  wdata   : Word
  ctl     : BitVec 16
  page    : BitVec 24
  buf     : Handle
  extract : Bool
  chan    : BitVec 2
  src     : Word
  dst     : Word
  srcCtl  : BitVec 2
  dstCtl  : BitVec 2
  w32     : Bool
  count   : BitVec 17
  rep     : Bool
  enable  : Bool
  deriving DecidableEq, Repr

end Sys2Proof
end

