-- ==== Sys2Proof/WellFormed.lean ====
section
/-! DEFINITION. Well-formed instructions: the operand values the spec calls legal. Only the DMA count has values that
the syntax can hold and the spec refuses; the reserved address-control code cannot be written as a term. -/

namespace Sys2Proof

/-- "count: number of elements, 1 to 0x10000" (30_encoding.md R56, 44_dma.md R111). -/
def Descriptor.wellFormed (d : Descriptor) : Bool :=
  decide (1 ≤ d.count.toNat) && decide (d.count.toNat ≤ 0x10000)

/-- The operand values the spec gives a behaviour (30_encoding.md R61). A buffer's length is a fact about the state,
not about the instruction, and is tested by the operation. -/
def Instr.wellFormed : Instr → Bool
  | .reset => true
  | .mapBios _ => true
  | .mapRom _ _ => true
  | .load8 _ => true
  | .loadU8 _ => true
  | .load16 _ => true
  | .loadU16 _ => true
  | .load32 _ => true
  | .store8 _ _ => true
  | .store16 _ _ => true
  | .store32 _ _ => true
  | .waitN16 _ => true
  | .waitS16 _ => true
  | .waitN32 _ => true
  | .waitS32 _ => true
  | .adjTim _ => true
  | .dmaXfer _ d => d.wellFormed
  | .icMark _ => true
  | .icQuery _ => true

end Sys2Proof
end

