-- ==== Sys2Proof/Decode.lean ====
section
/-! DEFINITION. The command decoder (total, rejecting by name), and after it the encoder, both from 30_encoding.md R50,
R51, R56, R57 and R61. -/

namespace Sys2Proof

/-- Why the decoder rejects a command (30_encoding.md R61). -/
inductive DecodeError where
  /-- A selector of 0x03 or 0x14 to 0x1F, which names no operation. -/
  | undefinedSelector (op : BitVec 5)
  /-- A `DMAXFER` whose `srcCtl` or `dstCtl` is the reserved value 3 (R57). -/
  | reservedMode (chan : BitVec 2)
  deriving DecidableEq, Repr

/-- The address-control codes of R57: 0 increment, 1 decrement, 2 fixed, 3 reserved. -/
def decodeAddrCtl (c : BitVec 2) : Option AddrCtl :=
  if c = 0 then some .increment
  else if c = 1 then some .decrement
  else if c = 2 then some .fixed
  else none

/-- The operands of format D (R51, R56): the channel and the descriptor fields. -/
def decodeDma (c : Command) : Except DecodeError Instr :=
  match decodeAddrCtl c.srcCtl, decodeAddrCtl c.dstCtl with
  | some sc, some dc =>
    .ok (.dmaXfer c.chan
      { src := c.src, dst := c.dst, srcCtl := sc, dstCtl := dc, w32 := c.w32, count := c.count,
        rep := c.rep, enable := c.enable })
  | _, _ => .error (.reservedMode c.chan)

/-- The selector map of R50. Every selector it does not list is rejected by name (R61). -/
def decode (c : Command) : Except DecodeError Instr :=
  match c.op.toNat with
  | 0x00 => .ok .reset
  | 0x01 => .ok (.mapBios c.buf)
  | 0x02 => .ok (.mapRom c.buf c.extract)
  | 0x04 => .ok (.load8 c.addr)
  | 0x05 => .ok (.loadU8 c.addr)
  | 0x06 => .ok (.load16 c.addr)
  | 0x07 => .ok (.loadU16 c.addr)
  | 0x08 => .ok (.load32 c.addr)
  | 0x09 => .ok (.store8 c.addr c.wdata)
  | 0x0A => .ok (.store16 c.addr c.wdata)
  | 0x0B => .ok (.store32 c.addr c.wdata)
  | 0x0C => .ok (.waitN16 c.addr)
  | 0x0D => .ok (.waitS16 c.addr)
  | 0x0E => .ok (.waitN32 c.addr)
  | 0x0F => .ok (.waitS32 c.addr)
  | 0x10 => .ok (.adjTim c.ctl)
  | 0x11 => decodeDma c
  | 0x12 => .ok (.icMark c.page)
  | 0x13 => .ok (.icQuery c.page)
  | _ => .error (.undefinedSelector c.op)

/-- A command with the given selector and every operand field zero. -/
def Command.ofSelector (op : BitVec 5) : Command :=
  { op := op, addr := 0, wdata := 0, ctl := 0, page := 0, buf := 0, extract := false, chan := 0, src := 0, dst := 0,
    srcCtl := 0, dstCtl := 0, w32 := false, count := 0, rep := false, enable := false }

/-- The address-control code of R57. -/
def encodeAddrCtl : AddrCtl → BitVec 2
  | .increment => 0
  | .decrement => 1
  | .fixed => 2

/-- The selector of R50. -/
def Instr.selector : Instr → BitVec 5
  | .reset => 0x00
  | .mapBios _ => 0x01
  | .mapRom _ _ => 0x02
  | .load8 _ => 0x04
  | .loadU8 _ => 0x05
  | .load16 _ => 0x06
  | .loadU16 _ => 0x07
  | .load32 _ => 0x08
  | .store8 _ _ => 0x09
  | .store16 _ _ => 0x0A
  | .store32 _ _ => 0x0B
  | .waitN16 _ => 0x0C
  | .waitS16 _ => 0x0D
  | .waitN32 _ => 0x0E
  | .waitS32 _ => 0x0F
  | .adjTim _ => 0x10
  | .dmaXfer _ _ => 0x11
  | .icMark _ => 0x12
  | .icQuery _ => 0x13

/-- The operand fields of the operation's format (R51) laid over a command; the fields its format does not list keep
what the command holds there. -/
def Instr.putOperands (i : Instr) (c : Command) : Command :=
  match i with
  | .reset => c
  | .mapBios buf => { c with buf := buf }
  | .mapRom buf extract => { c with buf := buf, extract := extract }
  | .load8 addr => { c with addr := addr }
  | .loadU8 addr => { c with addr := addr }
  | .load16 addr => { c with addr := addr }
  | .loadU16 addr => { c with addr := addr }
  | .load32 addr => { c with addr := addr }
  | .store8 addr wdata => { c with addr := addr, wdata := wdata }
  | .store16 addr wdata => { c with addr := addr, wdata := wdata }
  | .store32 addr wdata => { c with addr := addr, wdata := wdata }
  | .waitN16 addr => { c with addr := addr }
  | .waitS16 addr => { c with addr := addr }
  | .waitN32 addr => { c with addr := addr }
  | .waitS32 addr => { c with addr := addr }
  | .adjTim ctl => { c with ctl := ctl }
  | .dmaXfer chan d =>
    { c with chan := chan, src := d.src, dst := d.dst, srcCtl := encodeAddrCtl d.srcCtl,
             dstCtl := encodeAddrCtl d.dstCtl, w32 := d.w32, count := d.count, rep := d.rep, enable := d.enable }
  | .icMark page => { c with page := page }
  | .icQuery page => { c with page := page }

/-- A command that presents `i` with whatever stands on the port fields its format does not list: they are taken from
`c` ("Fields a format does not list are ignored", R51). -/
def Instr.encodeOver (i : Instr) (c : Command) : Command :=
  i.putOperands { c with op := i.selector }

/-- The encoder: the command that presents `i`, every unlisted port field zero. -/
def encode (i : Instr) : Command :=
  i.encodeOver (Command.ofSelector 0)

/-- The command whose bits are those of a row of opcode_table.json: the table numbers only the five selector bits
`op[4:0]` (R63), so the operand fields are zero. -/
def Command.ofTableWord (nbits w : Nat) : Command :=
  Command.ofSelector (BitVec.ofNat 5 (w % 2 ^ nbits))

/-- The instruction the decoder reads from a table word, none where it refuses. -/
def decodeTableWord (nbits w : Nat) : Option Instr :=
  match decode (Command.ofTableWord nbits w) with
  | .ok i => some i
  | .error _ => none

end Sys2Proof
end

