-- ==== Sys2Proof/Config.lean ====
section
/-! DEFINITION. The open parameters of the spec: what an implementation or the environment fixes and the spec does
not state. Both are opaque, so nothing can be proved of their values. -/

namespace Sys2Proof

/-- The four timing tables of 10_state.md R17: 8/16-bit and 32-bit, non-sequential and sequential. -/
inductive TableKind where
  | n16
  | s16
  | n32
  | s32
  deriving DecidableEq, Repr

/-- `WS_RESET` (10_state.md R19, decision D3): the reset contents of the four timing tables, 4 times 16 entries of
5 bits, an open parameter of which nothing is assumed. Assumption log 4. -/
opaque Config.wsReset : TableKind → Fin 16 → BitVec 5

/-- The I/O read oracle (20_memory.md R37, decision D22): the value the external I/O block answers to the `k`-th read
that reaches it. The state counts the draws, so no law connects two reads. Assumption log 5. -/
opaque Config.ioValue : Nat → Word

end Sys2Proof
end

