-- ==== Sys2Proof/Machine/Params.lean ====
section
/-! DEFINITION. The implementation parameters of 00_scope.md R7: sizes, slot indices, shifts, lookups, masks. They are
plain definitions so that every other file names them and none repeats a number. -/

namespace Sys2Proof.Machine

/-- `REGION_SHIFT` (R7): the region index is `address >> 24`. -/
def regionShift : Nat := 24

/-- `PAGE_SHIFT` (R7, 30_encoding.md R53): the page index is `address >> 9`. -/
def pageShift : Nat := 9

/-- `CART_HALF`, the size of one cartridge half and the cap of every read-only view (R7, 10_state.md R14). -/
def cartHalf : Nat := 0x01000000

/-- The nominal size of the I/O placeholder (10_state.md R15). -/
def sizeIo : Nat := 0x01000000

/-- `SIZE_WORK_RAM` (R7). -/
def sizeWorkRam : Nat := 0x40000

/-- `SIZE_INTERNAL_RAM` (R7). -/
def sizeInternalRam : Nat := 0x8000

/-- `SIZE_PALETTE_RAM` (R7). -/
def sizePaletteRam : Nat := 0x400

/-- `SIZE_VRAM` (R7). -/
def sizeVram : Nat := 0x18000

/-- `SIZE_OAM` (R7). -/
def sizeOam : Nat := 0x400

/-- `SIZE_CART_SRAM` (R7). -/
def sizeCartSram : Nat := 0x10000

/-- `SLOT_BIOS` (10_state.md R12). -/
def slotBios : Fin 16 := 0x0

/-- `SLOT_WORK_RAM` (R12, decision D2). -/
def slotWorkRam : Fin 16 := 0x2

/-- `SLOT_INTERNAL_RAM` (R12, decision D2). -/
def slotInternalRam : Fin 16 := 0x3

/-- `SLOT_PALETTE_RAM` (R12, decision D2). -/
def slotPaletteRam : Fin 16 := 0x5

/-- `SLOT_VRAM` (R12, decision D2). -/
def slotVram : Fin 16 := 0x6

/-- `SLOT_OAM` (R12, decision D2). -/
def slotOam : Fin 16 := 0x7

/-- `SLOT_CART0`, the low cartridge half, alias 0 (R12). -/
def slotCart0 : Fin 16 := 0x8

/-- The upper cartridge half, alias 0 (R12: "region-index-plus-one"). -/
def slotCart0Hi : Fin 16 := 0x9

/-- `SLOT_CART1`, the low cartridge half, alias 1 (R12). -/
def slotCart1 : Fin 16 := 0xA

/-- The upper cartridge half, alias 1 (R12). -/
def slotCart1Hi : Fin 16 := 0xB

/-- `SLOT_CART2`, the low cartridge half, alias 2 (R12). -/
def slotCart2 : Fin 16 := 0xC

/-- The upper cartridge half, alias 2 (R12). -/
def slotCart2Hi : Fin 16 := 0xD

/-- `SLOT_CART_SRAM` (R12, decision D2). -/
def slotCartSram : Fin 16 := 0xE

/-- `LUT_N = {4, 3, 2, 8}` (30_encoding.md R55). -/
def lutN (i : BitVec 2) : Nat :=
  if i = 0 then 4 else if i = 1 then 3 else if i = 2 then 2 else 8

/-- `LUT_S0 = {2, 1}` (R55). -/
def lutS0 (i : BitVec 1) : Nat :=
  if i = 0 then 2 else 1

/-- `LUT_S1 = {4, 1}` (R55). -/
def lutS1 (i : BitVec 1) : Nat :=
  if i = 0 then 4 else 1

/-- `LUT_S2 = {8, 1}` (R55). -/
def lutS2 (i : BitVec 1) : Nat :=
  if i = 0 then 8 else 1

/-- `DMACNT_KEEP`, the completion mask of a DMA control register (30_encoding.md R58). -/
def dmacntKeep : BitVec 16 := 0x7FE0

/-- The largest legal element count (30_encoding.md R56, decision D15). -/
def dmaCountMax : Nat := 0x10000

/-- `META_TITLE`: offset and maximum length (R7). -/
def metaTitle : Nat × Nat := (0xA0, 12)

/-- `META_CODE`: offset and maximum length (R7). -/
def metaCode : Nat × Nat := (0xAC, 4)

/-- `META_MAKER`: offset and maximum length (R7). -/
def metaMaker : Nat × Nat := (0xB0, 2)

end Sys2Proof.Machine
end

