-- ==== Sys2Proof/Machine/Memory.lean ====
section
/-! DEFINITION. Byte memory and the page set as plain data in one canonical form, with their reads and writes. -/

namespace Sys2Proof.Machine

/-- The bytes of one backing store: address and byte pairs, addresses strictly rising, no pair holding the value an
unlisted address reads as. -/
abbrev Memory := List Host.Cell

/-- What an unlisted address reads as: 0, since "Every byte is 0 when the block is created" (10_state.md R13). -/
def Memory.unlisted : Byte := 0

/-- The byte at offset `a`. -/
def Memory.read : Memory → Nat → Byte
  | [], _ => Memory.unlisted
  | (k, c) :: rest, a => if k = a then c else Memory.read rest a

/-- Write one byte, keeping the canonical form: the unlisted value removes the entry. -/
def Memory.write : Memory → Nat → Byte → Memory
  | [], a, b => if b = Memory.unlisted then [] else [(a, b)]
  | (k, c) :: rest, a, b =>
    if a < k then
      if b = Memory.unlisted then (k, c) :: rest else (a, b) :: (k, c) :: rest
    else if a = k then
      if b = Memory.unlisted then rest else (a, b) :: rest
    else
      (k, c) :: Memory.write rest a b

/-- Every listed address is above `lo`, rising strictly, and no listed byte is the unlisted value. -/
def Memory.wfAbove : Option Nat → Memory → Bool
  | _, [] => true
  | lo, (k, c) :: rest =>
    (match lo with
      | none => true
      | some l => decide (l < k)) && decide (c ≠ Memory.unlisted) && Memory.wfAbove (some k) rest

/-- The canonical form. -/
def Memory.wf (m : Memory) : Bool :=
  Memory.wfAbove none m

/-- Every listed address lies below `n`, the size of the store. -/
def Memory.below (n : Nat) (m : Memory) : Bool :=
  m.all (fun c => decide (c.1 < n))

/-- The `n` bytes from offset `a`, lowest first. -/
def Memory.readBytes (m : Memory) (a : Nat) : Nat → List Byte
  | 0 => []
  | n + 1 => m.read a :: Memory.readBytes m (a + 1) n

/-- Write bytes at consecutive offsets from `a`. -/
def Memory.writeBytes (m : Memory) (a : Nat) : List Byte → Memory
  | [] => m
  | b :: bs => Memory.writeBytes (m.write a b) (a + 1) bs

/-- "All multi-byte operations are little-endian" (20_memory.md R33): the unsigned value of bytes given lowest
first. -/
def valueOfBytes : List Byte → Nat
  | [] => 0
  | b :: bs => b.toNat + 256 * valueOfBytes bs

/-- The low `n` bytes of a value, lowest first: byte `i` is `v[8i+7:8i]` (20_memory.md R35). -/
def bytesOfValue : Nat → Nat → List Byte
  | 0, _ => []
  | n + 1, v => BitVec.ofNat 8 v :: bytesOfValue n (v / 256)

/-- The set of cached page indices (10_state.md R20) as a strictly rising list. -/
abbrev PageSet := List Nat

/-- `p in icache`. -/
def PageSet.has : PageSet → Nat → Bool
  | [], _ => false
  | q :: rest, p => decide (q = p) || PageSet.has rest p

/-- `icache + {p}`. -/
def PageSet.insert : PageSet → Nat → PageSet
  | [], p => [p]
  | q :: rest, p =>
    if p < q then p :: q :: rest
    else if p = q then q :: rest
    else q :: PageSet.insert rest p

/-- `icache - {p}` (42_decode_cache.md R90): no entry for the page is left. -/
def PageSet.remove : PageSet → Nat → PageSet
  | [], _ => []
  | q :: rest, p => if q = p then PageSet.remove rest p else q :: PageSet.remove rest p

/-- Every listed page is above `lo`, rising strictly. -/
def PageSet.wfAbove : Option Nat → PageSet → Bool
  | _, [] => true
  | lo, q :: rest =>
    (match lo with
      | none => true
      | some l => decide (l < q)) && PageSet.wfAbove (some q) rest

/-- The canonical form. -/
def PageSet.wf (s : PageSet) : Bool :=
  PageSet.wfAbove none s

/-- An externally supplied byte buffer (10_state.md R14, R26): its length and its bytes; a byte inside the length that
is not listed is 0. The length may be far larger than the list. -/
structure Buffer where
  len   : Nat
  bytes : Memory
  deriving DecidableEq, Repr

/-- Byte `k` of a buffer. -/
def Buffer.byte (b : Buffer) (k : Nat) : Byte :=
  b.bytes.read k

/-- What a handle that names no supplied buffer stands for: a buffer of length 0. -/
def Buffer.empty : Buffer :=
  { len := 0, bytes := [] }

/-- The bytes are in canonical form and inside the length. -/
def Buffer.wf (b : Buffer) : Bool :=
  b.bytes.wf && Memory.below b.len b.bytes

end Sys2Proof.Machine
end

