-- ==== Sys2Proof/Machine/Slots.lean ====
section
/-! DEFINITION. The region slots and the timing tables as types, and what they hold at power-on. -/

namespace Sys2Proof.Machine

/-- A region slot: "exactly one of four variants" (10_state.md R11). `ro` names a buffer and holds no bytes of its own
(R14). -/
inductive Slot where
  | unmapped
  | rw (size : Nat) (bytes : Memory)
  | ro (buf : Handle) (byteOffset : Nat) (size : Nat)
  | io
  deriving DecidableEq, Repr

/-- The four timing tables, 16 entries of 5 bits each (10_state.md R17). -/
structure Timing where
  n16 : Vector (BitVec 5) 16
  s16 : Vector (BitVec 5) 16
  n32 : Vector (BitVec 5) 16
  s32 : Vector (BitVec 5) 16
  deriving DecidableEq, Repr

/-- A freshly allocated read-write block: every byte 0 (R13). -/
def Slot.fresh (size : Nat) : Slot :=
  .rw size []

/-- One table with the reset values `WS_RESET` (R19). -/
def Timing.resetTable (k : TableKind) : Vector (BitVec 5) 16 :=
  #v[Config.wsReset k 0, Config.wsReset k 1, Config.wsReset k 2, Config.wsReset k 3,
     Config.wsReset k 4, Config.wsReset k 5, Config.wsReset k 6, Config.wsReset k 7,
     Config.wsReset k 8, Config.wsReset k 9, Config.wsReset k 10, Config.wsReset k 11,
     Config.wsReset k 12, Config.wsReset k 13, Config.wsReset k 14, Config.wsReset k 15]

/-- The four tables with the reset values `WS_RESET` (R19). -/
def Timing.atReset : Timing :=
  { n16 := Timing.resetTable .n16, s16 := Timing.resetTable .s16,
    n32 := Timing.resetTable .n32, s32 := Timing.resetTable .s32 }

/-- The slot table at power-on (R27): the five RAM kinds zeroed, slot 0x4 wired to the I/O block, the rest unmapped. -/
def Slot.atPowerOn : Vector Slot 16 :=
  #v[.unmapped, .unmapped, Slot.fresh sizeWorkRam, Slot.fresh sizeInternalRam,
     .io, Slot.fresh sizePaletteRam, Slot.fresh sizeVram, Slot.fresh sizeOam,
     .unmapped, .unmapped, .unmapped, .unmapped,
     .unmapped, .unmapped, .unmapped, .unmapped]

/-- The table of the given kind. -/
def Timing.table (t : Timing) : TableKind → Vector (BitVec 5) 16
  | .n16 => t.n16
  | .s16 => t.s16
  | .n32 => t.n32
  | .s32 => t.s32

/-- `T.k[r]` (00_scope.md R8). -/
def Timing.entry (t : Timing) (k : TableKind) (r : Fin 16) : Nat :=
  (t.table k)[r].toNat

/-- `T.k[r] <- v`. Every value the block writes fits the 5 bits (43_timing.md R107). -/
def Timing.set (t : Timing) (k : TableKind) (r : Fin 16) (v : Nat) : Timing :=
  match k with
  | .n16 => { t with n16 := t.n16.set r (BitVec.ofNat 5 v) }
  | .s16 => { t with s16 := t.s16.set r (BitVec.ofNat 5 v) }
  | .n32 => { t with n32 := t.n32.set r (BitVec.ofNat 5 v) }
  | .s32 => { t with s32 := t.s32.set r (BitVec.ofNat 5 v) }

/-- The size of a slot's view (10_state.md R12 to R15); an unmapped slot has no byte. -/
def Slot.size : Slot → Nat
  | .unmapped => 0
  | .rw size _ => size
  | .ro _ _ size => size
  | .io => sizeIo

/-- A slot that holds bytes of its own or of a buffer: not unmapped and not the I/O block. -/
def Slot.hasBytes : Slot → Bool
  | .rw _ _ => true
  | .ro _ _ _ => true
  | _ => false

end Sys2Proof.Machine
end

