-- ==== Sys2Proof/Machine/State.lean ====
section
/-! DEFINITION. The machine's state: everything 10_state.md gives the block and everything external it reads or writes,
the command and response ports, the faults and refusals, and the state after power-on. -/

namespace Sys2Proof.Machine

/-- Cartridge Info (40_lifecycle.md R74): an absent field is "unset" (R76), distinct from the empty sequence. -/
structure CartInfo where
  title : Option (List Byte)
  code  : Option (List Byte)
  maker : Option (List Byte)
  deriving DecidableEq, Repr

/-- An event on the report port (30_encoding.md R59). -/
inductive Event where
  /-- `E_DMA_INVALID(chan)` (60_exceptions.md R133). -/
  | dmaInvalid (chan : BitVec 2)
  /-- `IoWrite(off, n, v)`: a write passed to the external I/O block (20_memory.md R37). -/
  | ioWrite (off : Nat) (n : Nat) (v : Word)
  deriving DecidableEq, Repr

/-- The response of one operation that ends without a fault (30_encoding.md R59). `rdata` is present for the loads and
`ICQUERY`, `info` for `MAPROM`; `events` are in the order they were put on the report port. -/
structure Response where
  rdata  : Option Word
  cycAdd : Nat
  info   : Option CartInfo
  events : List Event
  deriving DecidableEq, Repr

/-- The response before an operation has put anything on it. -/
def Response.blank : Response :=
  { rdata := none, cycAdd := 0, info := none, events := [] }

/-- The side of a DMA transfer a fault names (60_exceptions.md R130). -/
inductive DmaSide where
  | source
  | destination
  deriving DecidableEq, Repr

/-- The faults of 60_exceptions.md R130. A faulted run has gone wrong and is never a good run (R131, R132); the fault
carries what the response port records. -/
inductive Fault where
  /-- `F_REGION`: raised by the loads and stores when the region is not mapped, by the waits when the region index is
  16 or more (R131). Safe: the spec says a model treats it as a fault. -/
  | fRegion (addr : Word)
  /-- `F_OFFSET`: raised by the loads and stores when the access leaves the backing store (R132). Safe: the spec says a
  model treats it as a fault. -/
  | fOffset (addr : Word)
  /-- `F_OFFSET` inside `DMAXFER`: a running offset left the view of the named side (R132, 44_dma.md R114). Safe: the
  state after it "is not to be relied on", and the model gives none. -/
  | fOffsetDma (chan : BitVec 2) (side : DmaSide)
  deriving DecidableEq, Repr

/-- The refusals of 60_exceptions.md R144, to which the spec gives no transition at all. -/
inductive Refusal where
  /-- An instruction whose arm has no meaning yet. Raised by no arm of this model. Safe. -/
  | notModelled (mnemonic : String)
  /-- No command stands on the port: the block "takes no step of its own" (00_scope.md R6). Raised by the step. Safe. -/
  | noOperation
  /-- A selector of 0x03 or 0x14 to 0x1F (30_encoding.md R61). Raised by the step. Safe. -/
  | undefinedSelector (op : BitVec 5)
  /-- `srcCtl` or `dstCtl` is 3 (30_encoding.md R57). Raised by the step. Safe. -/
  | reservedMode (chan : BitVec 2)
  /-- `count` = 0 (44_dma.md R111). Raised by `DMAXFER`. Safe. -/
  | countZero (chan : BitVec 2)
  /-- `count` above 0x10000 (93_implementation_defined.md U6). Raised by `DMAXFER`. Safe. -/
  | countTooLarge (chan : BitVec 2)
  /-- An empty buffer (40_lifecycle.md R71, R72). Raised by `MAPBIOS` and `MAPROM`. Safe. -/
  | emptyBuffer (buf : Handle)
  deriving DecidableEq, Repr

/-- The state. The first three fields are the block's own (10_state.md R10); the next four are owned outside and read or
written by it (R23 to R26); then the two ports; the last is the model's own. -/
structure State where
  /-- `slot[0..15]` with the bytes of the read-write blocks (R11 to R16). -/
  slots   : Vector Slot 16
  /-- `T.N16`, `T.S16`, `T.N32`, `T.S32` (R17). -/
  timing  : Timing
  /-- `icache` (R20). -/
  icache  : PageSet
  /-- The cycle counter, owned by the CPU (R23). -/
  cycles  : Nat
  /-- `DMACNT[0..3]`, owned by the I/O block (R24). -/
  dmacnt  : Vector (BitVec 16) 4
  /-- The externally owned descriptor of the latest `DMAXFER` (R25), with the engine's write to its `enable`. -/
  desc    : Descriptor
  /-- The byte buffers the loader supplies (R26), named by their handles. -/
  buffers : List Buffer
  /-- The commands the requester has presented and the block has not yet taken, oldest first (20_memory.md R45). -/
  port    : List Command
  /-- The response to the latest operation (30_encoding.md R59). -/
  resp    : Response
  /-- The model's own: how many values the I/O read oracle has been asked for (assumption log 5). -/
  ioDraws : Nat
  deriving DecidableEq, Repr

/-- A descriptor with every field zero, the model's value for `desc` before the first `DMAXFER` (assumption log 9). -/
def zeroDescriptor : Descriptor :=
  { src := 0, dst := 0, srcCtl := .increment, dstCtl := .increment, w32 := false, count := 0, rep := false,
    enable := false }

/-- The machine at power-on (10_state.md R27, left column). The externally owned `cycles`, `dmacnt`, `desc` and
`buffers` are "not specified" there; their values here are the model's (assumption logs 7, 8, 9 and 6). -/
def State.reset : State :=
  { slots := Slot.atPowerOn, timing := Timing.atReset, icache := [], cycles := 0, dmacnt := #v[0, 0, 0, 0],
    desc := zeroDescriptor, buffers := [], port := [], resp := Response.blank, ioDraws := 0 }

end Sys2Proof.Machine
end

