-- ==== Sys2Proof/Machine/Operands.lean ====
section
/-! DEFINITION. The operand forms: how an address splits, how a store aligns it, the pages a store covers, widening and
truncation, the control-word fields, and the DMA steps. -/

namespace Sys2Proof.Machine

/-- The access widths of 20_memory.md R40. -/
inductive Width where
  | b1
  | b2
  | b4
  deriving DecidableEq, Repr

/-- The width in bytes. -/
def Width.bytes : Width → Nat
  | .b1 => 1
  | .b2 => 2
  | .b4 => 4

/-- `region = address[31:24]`, 8 bits (20_memory.md R31). -/
def regionOf (addr : Word) : Nat :=
  addr.toNat / 2 ^ regionShift

/-- `offset = address[23:0]` (R31). -/
def offsetOf (addr : Word) : Nat :=
  addr.toNat % 2 ^ regionShift

/-- The slot the region index names; an index of 16 or more names none (R32). -/
def slotIndex (addr : Word) : Option (Fin 16) :=
  if h : regionOf addr < 16 then some ⟨regionOf addr, h⟩ else none

/-- The page index `addr >> 9` (30_encoding.md R53). -/
def pageOf (addr : Word) : Nat :=
  addr.toNat / 2 ^ pageShift

/-- The address a store of the given width reaches: `STORE16` clears bit 0, `STORE32` bits 1 and 0 (20_memory.md
R39). -/
def alignDown (n : Width) (addr : Word) : Word :=
  match n with
  | .b1 => addr
  | .b2 => addr &&& 0xFFFFFFFE#32
  | .b4 => addr &&& 0xFFFFFFFC#32

/-- The pages a store removes, taken from the address as presented (30_encoding.md R52): one, and for `STORE32` the next
one too, computed without wrap-around (R53). -/
def storePages (n : Width) (addr : Word) : List Nat :=
  match n with
  | .b1 => [pageOf addr]
  | .b2 => [pageOf addr]
  | .b4 => [pageOf addr, pageOf addr + 1]

/-- The low `8n` bits of a value, the rest 0 (20_memory.md R35, `zext`). -/
def truncTo (n : Width) (v : Word) : Word :=
  match n with
  | .b1 => (v.setWidth 8).setWidth 32
  | .b2 => (v.setWidth 16).setWidth 32
  | .b4 => v

/-- `sext_8` (00_scope.md R8). -/
def sext8 (v : Word) : Word :=
  (v.setWidth 8).signExtend 32

/-- `sext_16` (R8). -/
def sext16 (v : Word) : Word :=
  (v.setWidth 16).signExtend 32

/-- `zext_8` (R8). -/
def zext8 (v : Word) : Word :=
  (v.setWidth 8).setWidth 32

/-- `zext_16` (R8). -/
def zext16 (v : Word) : Word :=
  (v.setWidth 16).setWidth 32

/-- Control-word field `sram`, bits 1:0 (30_encoding.md R54). -/
def ctlSram (ctl : BitVec 16) : BitVec 2 :=
  ctl.extractLsb' 0 2

/-- Control-word field `ws0n`, bits 3:2. -/
def ctlWs0n (ctl : BitVec 16) : BitVec 2 :=
  ctl.extractLsb' 2 2

/-- Control-word field `ws0s`, bit 4. -/
def ctlWs0s (ctl : BitVec 16) : BitVec 1 :=
  ctl.extractLsb' 4 1

/-- Control-word field `ws1n`, bits 6:5. -/
def ctlWs1n (ctl : BitVec 16) : BitVec 2 :=
  ctl.extractLsb' 5 2

/-- Control-word field `ws1s`, bit 7. -/
def ctlWs1s (ctl : BitVec 16) : BitVec 1 :=
  ctl.extractLsb' 7 1

/-- Control-word field `ws2n`, bits 9:8. -/
def ctlWs2n (ctl : BitVec 16) : BitVec 2 :=
  ctl.extractLsb' 8 2

/-- Control-word field `ws2s`, bit 10. -/
def ctlWs2s (ctl : BitVec 16) : BitVec 1 :=
  ctl.extractLsb' 10 1

/-- The element width of a DMA transfer: "4 bytes if the descriptor's width flag is set, else 2 bytes" (44_dma.md
R112). -/
def dmaWidth (w32 : Bool) : Width :=
  if w32 then .b4 else .b2

/-- `Step(mode, width)` (R112). -/
def dmaStep (m : AddrCtl) (n : Width) : Int :=
  match m with
  | .increment => n.bytes
  | .decrement => -(n.bytes : Int)
  | .fixed => 0

end Sys2Proof.Machine
end

