-- ==== Sys2Proof/Machine/Flags.lean ====
section
/-! DEFINITION. The block has no status flags (10_state.md R21), so no flag computation stands here. What the spec calls
codes and enable bits does: the fault code of the response port and the completion of a DMA control register. -/

namespace Sys2Proof.Machine

/-- The numeric code of a fault (30_encoding.md R59). -/
def Fault.code : Fault → BitVec 2
  | .fRegion _ => 1
  | .fOffset _ => 2
  | .fOffsetDma _ _ => 2

/-- The `fault` field of the response (R59): 0 when the operation ends without a fault; a refused command has no
response. -/
def faultField : Host.Outcome State Fault Refusal → Option (BitVec 2)
  | .next _ => some 0
  | .fault f => some f.code
  | .refused _ => none

/-- A DMA control register after a non-repeating completion: `DMACNT & 0x7FE0` (R58). -/
def dmacntAfterCompletion (v : BitVec 16) : BitVec 16 :=
  v &&& dmacntKeep

/-- The descriptor after a completion: `enable` cleared when `repeat` is unset, every other field kept (44_dma.md R118
to R120). -/
def descAfterCompletion (d : Descriptor) : Descriptor :=
  if d.rep then d else { d with enable := false }

end Sys2Proof.Machine
end

