-- ==== Sys2Proof/Machine/Ops.lean ====
section
/-! DEFINITION. The named operations over the state that every meaning is written with: slots, views, the memory paths,
the page set, the cycle counter, the response, faults, and taking the next command off the port. -/

namespace Sys2Proof.Machine

/-- Begin an operation: its response is blank until the operation puts something on it (30_encoding.md R59). -/
def State.begin (s : State) : State :=
  { s with resp := Response.blank }

/-- Put a load result on the response port. -/
def State.putRdata (s : State) (v : Word) : State :=
  { s with resp := { s.resp with rdata := some v } }

/-- Put the Cartridge Info record on the response port. -/
def State.putInfo (s : State) (c : CartInfo) : State :=
  { s with resp := { s.resp with info := some c } }

/-- `emit E` (00_scope.md R8): put an event on the report port and continue. -/
def State.emit (s : State) (e : Event) : State :=
  { s with resp := { s.resp with events := s.resp.events ++ [e] } }

/-- `Charge(k)` (43_timing.md R100): the counter and the response's `cycAdd` both grow by `k`, without wrap-around. -/
def State.charge (s : State) (k : Nat) : State :=
  { s with cycles := s.cycles + k, resp := { s.resp with cycAdd := s.resp.cycAdd + k } }

/-- `Invalidate(p)` (42_decode_cache.md R90). -/
def State.invalidate (s : State) (p : Nat) : State :=
  { s with icache := s.icache.remove p }

/-- Invalidate each page of a list in turn. -/
def State.invalidateAll (s : State) : List Nat → State
  | [] => s
  | p :: ps => (s.invalidate p).invalidateAll ps

/-- `icache <- icache + {p}` (R91). -/
def State.markPage (s : State) (p : Nat) : State :=
  { s with icache := s.icache.insert p }

/-- `slot[r]` (00_scope.md R8). -/
def State.slot (s : State) (r : Fin 16) : Slot :=
  s.slots[r]

/-- `slot[r] <- x`. -/
def State.setSlot (s : State) (r : Fin 16) (x : Slot) : State :=
  { s with slots := s.slots.set r x }

/-- The buffer a handle names; a handle past the supplied buffers names an empty one (assumption log 6). -/
def State.buffer (s : State) (h : Handle) : Buffer :=
  s.buffers.getD h Buffer.empty

/-- `DMACNT[chan]` (10_state.md R24). -/
def State.dmacntOf (s : State) (chan : BitVec 2) : BitVec 16 :=
  s.dmacnt[chan.toFin]

/-- `DMACNT[chan] <- v`, the register's storage alone (decision D35). -/
def State.setDmacnt (s : State) (chan : BitVec 2) (v : BitVec 16) : State :=
  { s with dmacnt := s.dmacnt.set chan.toFin v }

/-- Write the externally owned descriptor record: the fields a `DMAXFER` presents, and the engine's write to `enable`
(10_state.md R25). -/
def State.putDesc (s : State) (d : Descriptor) : State :=
  { s with desc := d }

/-- Replace the four timing tables (10_state.md R18). -/
def State.putTiming (s : State) (t : Timing) : State :=
  { s with timing := t }

/-- Empty the decode-cache page array (20_memory.md R48). -/
def State.clearPages (s : State) : State :=
  { s with icache := [] }

/-- The populated slot an address resolves to; none when the region index is 16 or more or the slot is unmapped
(`Mapped`, 20_memory.md R32). -/
def State.mappedSlot (s : State) (addr : Word) : Option (Fin 16) :=
  match slotIndex addr with
  | none => none
  | some r => if s.slot r = .unmapped then none else some r

/-- The range check of 20_memory.md R38: `0 <= off` and `off + n <= N`; the natural offset when it passes.
The I/O slot is checked with its nominal size by the same formula (assumption log 10, DEDUCED, safe). -/
def inRange (size : Nat) (off : Int) (n : Width) : Option Nat :=
  match off with
  | .ofNat o => if o + n.bytes ≤ size then some o else none
  | .negSucc _ => none

/-- The bytes of a view at an in-range offset as an unsigned little-endian value, and the state after the read: the I/O
slot answers with the next draw of the oracle (20_memory.md R34, R37). -/
def State.readAt (s : State) (r : Fin 16) (o : Nat) (n : Width) : Word × State :=
  match s.slot r with
  | .unmapped => (0, s)
  | .rw _ bytes => (BitVec.ofNat 32 (valueOfBytes (bytes.readBytes o n.bytes)), s)
  | .ro buf byteOffset _ =>
    (BitVec.ofNat 32 (valueOfBytes ((s.buffer buf).bytes.readBytes (byteOffset + o) n.bytes)), s)
  | .io => (truncTo n (Config.ioValue s.ioDraws), { s with ioDraws := s.ioDraws + 1 })

/-- Write the low `8n` bits of a value at an in-range offset: a read-write block stores them, a read-only view discards
them, the I/O slot passes them on (R35, R36, R37). -/
def State.writeAt (s : State) (r : Fin 16) (o : Nat) (n : Width) (v : Word) : State :=
  match s.slot r with
  | .unmapped => s
  | .rw size bytes => s.setSlot r (.rw size (bytes.writeBytes o (bytesOfValue n.bytes v.toNat)))
  | .ro _ _ _ => s
  | .io => s.emit (.ioWrite o n.bytes (truncTo n v))

/-- `ViewRead(slot[r], off, n)` (R34): none when the offset is out of range. -/
def State.viewRead (s : State) (r : Fin 16) (off : Int) (n : Width) : Option (Word × State) :=
  match inRange (s.slot r).size off n with
  | none => none
  | some o => some (s.readAt r o n)

/-- `ViewWrite(slot[r], off, n, v)` (R35 to R37): none when the offset is out of range, whatever the slot's variant. -/
def State.viewWrite (s : State) (r : Fin 16) (off : Int) (n : Width) (v : Word) : Option State :=
  match inRange (s.slot r).size off n with
  | none => none
  | some o => some (s.writeAt r o n v)

/-- `MemRead(addr, n)` (R46): the region check, then the range check, then the read. -/
def State.memRead (s : State) (addr : Word) (n : Width) : Except Fault (Word × State) :=
  match s.mappedSlot addr with
  | none => .error (.fRegion addr)
  | some r =>
    match s.viewRead r (offsetOf addr) n with
    | none => .error (.fOffset addr)
    | some x => .ok x

/-- `MemWrite(addr, n, v)` (R47), for an address the calling rule has aligned: the region check, then the range check,
then the write; each fault is raised with that address. `icache` is not touched. -/
def State.memWrite (s : State) (addr : Word) (n : Width) (v : Word) : Except Fault State :=
  match s.mappedSlot addr with
  | none => .error (.fRegion addr)
  | some r =>
    match s.viewWrite r (offsetOf addr) n v with
    | none => .error (.fOffset addr)
    | some t => .ok t

/-- `raise F` (60_exceptions.md R137): the operation ends at once with the fault. The block saves nothing, switches no
mode and transfers control nowhere, and there is nothing to return from (R138), so this is all of fault entry. -/
def raise (f : Fault) : Host.Outcome State Fault Refusal :=
  .fault f

/-- A fault as the operation that presented `addr` records it: the loads and stores record "the address presented"
(60_exceptions.md R130, R132; 41_load_store.md R86 to R88, whose `addr` is the operand). DEDUCED, unsafe in the low bits
(assumption log 23), for a store whose `MemWrite` raised with the aligned address. -/
def Fault.presenting (addr : Word) : Fault → Fault
  | .fRegion _ => .fRegion addr
  | .fOffset _ => .fOffset addr
  | .fOffsetDma chan side => .fOffsetDma chan side

/-- The byte the block's own stores hold at an offset of a slot: none where the slot is not mapped, the offset is outside
the view, or the byte belongs to the I/O block. It reads without any effect, for statements about memory. -/
def State.byteIn (s : State) (r : Fin 16) (o : Nat) : Option Byte :=
  match s.slot r with
  | .unmapped => none
  | .rw size bytes => if o < size then some (bytes.read o) else none
  | .ro buf byteOffset size => if o < size then some ((s.buffer buf).byte (byteOffset + o)) else none
  | .io => none

/-- The byte the block's own stores hold at an address (`byteIn` of the address's region and offset). -/
def State.byteAt (s : State) (addr : Word) : Option Byte :=
  match slotIndex addr with
  | none => none
  | some r => s.byteIn r (offsetOf addr)

/-- Take the oldest command off the port: operations take effect "one at a time ... in the order in which they are
issued" (20_memory.md R45). -/
def State.fetch (s : State) : Option (Command × State) :=
  match s.port with
  | [] => none
  | c :: rest => some (c, { s with port := rest })

/-- The refusal that answers a command the decoder rejects (30_encoding.md R61). -/
def refusalOf : DecodeError → Refusal
  | .undefinedSelector op => .undefinedSelector op
  | .reservedMode chan => .reservedMode chan

end Sys2Proof.Machine
end

