-- ==== Sys2Proof/Machine/DecodeCache.lean ====
section
/-! DEFINITION. `ICMARK` and `ICQUERY` (42_decode_cache.md). -/

namespace Sys2Proof.Machine

/-- `ICMARK(page)` (R91): any 24-bit page index is accepted. -/
def execIcMark (page : BitVec 24) (s : State) : Host.Outcome State Fault Refusal :=
  .next (s.begin.markPage page.toNat)

/-- `ICQUERY(page)` (R92): `rdata` is 1 if the page is in `icache`, else 0. -/
def execIcQuery (page : BitVec 24) (s : State) : Host.Outcome State Fault Refusal :=
  .next (s.begin.putRdata (if s.icache.has page.toNat then 1 else 0))

end Sys2Proof.Machine
end

