-- ==== Sys2Proof/Machine/Dma.lean ====
section
/-! DEFINITION. `DMAXFER`, the DMA sequencer (44_dma.md). -/

namespace Sys2Proof.Machine

/-- The running offsets of a transfer, working values of one operation (10_state.md R22): integers, masked to 24 bits
once at the start and never again (44_dma.md R114). -/
structure Cursor where
  src : Int
  dst : Int
  deriving DecidableEq, Repr

/-- `Copy(S, so, D, do, k)` (R114): read, then write; the source side is checked before the destination side
(60_exceptions.md R136). DEDUCED, safe (assumption log 10): on the I/O slot R132 names for DMA only a running offset that
leaves 0 to 0x00FFFFFF; by the formula of 20_memory.md R38 a copy that begins inside the slot and ends past 0x00FFFFFF
raises `F_OFFSET` too, on either side. -/
def dmaCopy (chan : BitVec 2) (S D : Fin 16) (c : Cursor) (n : Width) (s : State) : Except Fault State :=
  match s.viewRead S c.src n with
  | none => .error (.fOffsetDma chan .source)
  | some (v, t) =>
    match t.viewWrite D c.dst n v with
    | none => .error (.fOffsetDma chan .destination)
    | some u => .ok u

/-- `k` copies of width `n`, the cursor advancing by the two steps after each. -/
def dmaCopies (chan : BitVec 2) (S D : Fin 16) (n : Width) (sstep dstep : Int) :
    Nat → Cursor → State → Except Fault (Cursor × State)
  | 0, c, s => .ok (c, s)
  | k + 1, c, s =>
    match dmaCopy chan S D c n s with
    | .error f => .error f
    | .ok t => dmaCopies chan S D n sstep dstep k { src := c.src + sstep, dst := c.dst + dstep } t

/-- The paired loop and the last element of the 16-bit body, for `k` remaining elements (R116): `k / 2` four-byte copies
advancing by twice the steps, then one two-byte copy if an element remains. -/
def dmaPairs (chan : BitVec 2) (S D : Fin 16) (sstep dstep : Int) (k : Nat) (c : Cursor) (s : State) :
    Except Fault State :=
  match dmaCopies chan S D .b4 (2 * sstep) (2 * dstep) (k / 2) c s with
  | .error f => .error f
  | .ok (c1, t) => if k % 2 = 1 then dmaCopy chan S D c1 .b2 t else .ok t

/-- The 16-bit body (R116): one two-byte element first when bit 1 of the masked source offset is set. -/
def dmaBody16 (chan : BitVec 2) (S D : Fin 16) (sstep dstep : Int) (unaligned : Bool) (k : Nat) (c : Cursor)
    (s : State) : Except Fault State :=
  if unaligned then
    match dmaCopies chan S D .b2 sstep dstep 1 c s with
    | .error f => .error f
    | .ok (c1, t) => dmaPairs chan S D sstep dstep (k - 1) c1 t
  else dmaPairs chan S D sstep dstep k c s

/-- The 32-bit body (R115). -/
def dmaBody32 (chan : BitVec 2) (S D : Fin 16) (sstep dstep : Int) (k : Nat) (c : Cursor) (s : State) :
    Except Fault State :=
  match dmaCopies chan S D .b4 sstep dstep k c s with
  | .error f => .error f
  | .ok (_, t) => .ok t

/-- The data movement of a transfer between two mapped slots (R110). -/
def dmaMove (chan : BitVec 2) (d : Descriptor) (S D : Fin 16) (s : State) : Except Fault State :=
  let n := dmaWidth d.w32
  let c : Cursor := { src := offsetOf d.src, dst := offsetOf d.dst }
  if d.w32 then
    dmaBody32 chan S D (dmaStep d.srcCtl n) (dmaStep d.dstCtl n) d.count.toNat c s
  else
    dmaBody16 chan S D (dmaStep d.srcCtl n) (dmaStep d.dstCtl n) (offsetOf d.src / 2 % 2 = 1) d.count.toNat c s

/-- `Cost(w32, sreg, dreg, count)` (R117), an exact natural number. -/
def dmaCost (t : Timing) (w32 : Bool) (S D : Fin 16) (count : Nat) : Nat :=
  if w32 then t.entry .n32 S + t.entry .n32 D + (count - 1) * (t.entry .s32 S + t.entry .s32 D) + 2
  else t.entry .n16 S + t.entry .n16 D + (count - 1) * (t.entry .s16 S + t.entry .s16 D) + 2

/-- The completion step (R118, R119): with `repeat` unset, the descriptor's `enable` and the channel's control register
are cleared as the rule says; with `repeat` set, nothing happens. -/
def State.dmaComplete (s : State) (chan : BitVec 2) (d : Descriptor) : State :=
  if d.rep then s.putDesc (descAfterCompletion d)
  else (s.setDmacnt chan (dmacntAfterCompletion (s.dmacntOf chan))).putDesc (descAfterCompletion d)

/-- `DMAXFER(chan, d)` (R110): the refusals, then the region check with its non-fatal report (R113), then the copies, one
charge, and the completion step. The descriptor presented stands in `desc`. -/
def execDmaXfer (chan : BitVec 2) (d : Descriptor) (s : State) : Host.Outcome State Fault Refusal :=
  if d.count.toNat = 0 then .refused (.countZero chan)
  else if dmaCountMax < d.count.toNat then .refused (.countTooLarge chan)
  else
    match s.mappedSlot d.src, s.mappedSlot d.dst with
    | some S, some D =>
      match dmaMove chan d S D (s.begin.putDesc d) with
      | .error f => raise f
      | .ok t => .next ((t.charge (dmaCost t.timing d.w32 S D d.count.toNat)).dmaComplete chan d)
    | _, _ => .next ((s.begin.putDesc d).emit (.dmaInvalid chan))

end Sys2Proof.Machine
end

