-- ==== Sys2Proof/Machine/Lifecycle.lean ====
section
/-! DEFINITION. `RESET`, `MAPBIOS`, `MAPROM` (40_lifecycle.md). -/

namespace Sys2Proof.Machine

/-- "(re)allocates all owned read-write regions to their fixed sizes": the five RAM kinds fresh and zero (40_lifecycle.md
R70). -/
def State.freshRam (s : State) : State :=
  ((((s.setSlot slotWorkRam (Slot.fresh sizeWorkRam)).setSlot slotInternalRam (Slot.fresh sizeInternalRam)).setSlot
    slotPaletteRam (Slot.fresh sizePaletteRam)).setSlot slotVram (Slot.fresh sizeVram)).setSlot slotOam
      (Slot.fresh sizeOam)

/-- `RESET` (R70): the five RAM kinds fresh, the four tables at `WS_RESET`, `icache` empty. The views, the SRAM, the I/O
slot and everything externally owned stay as they are. -/
def execReset (s : State) : Host.Outcome State Fault Refusal :=
  .next ((s.begin.freshRam.putTiming Timing.atReset).clearPages)

/-- A read-only view of a buffer from a byte offset: `RO(buf, byteOffset, min(len(buf) - byteOffset, 0x01000000))`
(10_state.md R14). -/
def State.viewOf (s : State) (buf : Handle) (byteOffset : Nat) : Slot :=
  .ro buf byteOffset (min ((s.buffer buf).len - byteOffset) cartHalf)

/-- `MAPBIOS(buf)` (40_lifecycle.md R71). An empty buffer is refused. -/
def execMapBios (buf : Handle) (s : State) : Host.Outcome State Fault Refusal :=
  if (s.buffer buf).len = 0 then .refused (.emptyBuffer buf)
  else .next (s.begin.setSlot slotBios (s.viewOf buf 0))

/-- `Field(buf, base, maxlen)` (R74): bytes up to the first zero; a byte beyond the buffer is zero (R75). -/
def Buffer.field (b : Buffer) (base : Nat) : Nat → List Byte
  | 0 => []
  | n + 1 =>
    let c := if base < b.len then b.byte base else 0
    if c = 0 then [] else c :: Buffer.field b (base + 1) n

/-- `CartInfo(buf)` (R74). -/
def Buffer.cartInfo (b : Buffer) : CartInfo :=
  { title := some (b.field metaTitle.1 metaTitle.2), code := some (b.field metaCode.1 metaCode.2),
    maker := some (b.field metaMaker.1 metaMaker.2) }

/-- `CartInfoUnset` (R76). -/
def CartInfo.unset : CartInfo :=
  { title := none, code := none, maker := none }

/-- The low half at the three cartridge slots (R72). -/
def State.mapLow (s : State) (buf : Handle) : State :=
  ((s.setSlot slotCart0 (s.viewOf buf 0)).setSlot slotCart1 (s.viewOf buf 0)).setSlot slotCart2 (s.viewOf buf 0)

/-- The upper half at the three plus-one slots, only for a buffer longer than 0x01000000 bytes; otherwise they stay as
they were (R72, decision D23). -/
def State.mapHigh (s : State) (buf : Handle) : State :=
  if cartHalf < (s.buffer buf).len then
    ((s.setSlot slotCart0Hi (s.viewOf buf cartHalf)).setSlot slotCart1Hi (s.viewOf buf cartHalf)).setSlot slotCart2Hi
      (s.viewOf buf cartHalf)
  else s

/-- `MAPROM(buf, extract)` (R72): the views, a fresh zero SRAM (R73), and the Cartridge Info. An empty buffer is
refused. -/
def execMapRom (buf : Handle) (extract : Bool) (s : State) : Host.Outcome State Fault Refusal :=
  if (s.buffer buf).len = 0 then .refused (.emptyBuffer buf)
  else
    .next ((((s.begin.mapLow buf).mapHigh buf).setSlot slotCartSram (Slot.fresh sizeCartSram)).putInfo
      (if extract then (s.buffer buf).cartInfo else CartInfo.unset))

end Sys2Proof.Machine
end

