-- ==== Sys2Proof/Machine/LoadStore.lean ====
section
/-! DEFINITION. The five loads and the three stores (41_load_store.md). -/

namespace Sys2Proof.Machine

/-- A load: read, widen, answer (R80). Loads do not align the address and charge nothing. -/
def loadWith (n : Width) (widen : Word → Word) (addr : Word) (s : State) : Host.Outcome State Fault Refusal :=
  match s.begin.memRead addr n with
  | .error f => raise f
  | .ok (v, t) => .next (t.putRdata (widen v))

/-- A store: write at the aligned address, then remove the covered pages from `icache`, whatever the slot's variant
(R80, R86 to R88). A fault comes before any change and records the address presented. -/
def storeWith (n : Width) (addr wdata : Word) (s : State) : Host.Outcome State Fault Refusal :=
  match s.begin.memWrite (alignDown n addr) n wdata with
  | .error f => raise (f.presenting addr)
  | .ok t => .next (t.invalidateAll (storePages n addr))

/-- `LOAD8` (R81). -/
def execLoad8 (addr : Word) (s : State) : Host.Outcome State Fault Refusal :=
  loadWith .b1 sext8 addr s

/-- `LOADU8` (R82). -/
def execLoadU8 (addr : Word) (s : State) : Host.Outcome State Fault Refusal :=
  loadWith .b1 zext8 addr s

/-- `LOAD16` (R83). -/
def execLoad16 (addr : Word) (s : State) : Host.Outcome State Fault Refusal :=
  loadWith .b2 sext16 addr s

/-- `LOADU16` (R84). -/
def execLoadU16 (addr : Word) (s : State) : Host.Outcome State Fault Refusal :=
  loadWith .b2 zext16 addr s

/-- `LOAD32` (R85). -/
def execLoad32 (addr : Word) (s : State) : Host.Outcome State Fault Refusal :=
  loadWith .b4 id addr s

/-- `STORE8` (R86). -/
def execStore8 (addr wdata : Word) (s : State) : Host.Outcome State Fault Refusal :=
  storeWith .b1 addr wdata s

/-- `STORE16` (R87). -/
def execStore16 (addr wdata : Word) (s : State) : Host.Outcome State Fault Refusal :=
  storeWith .b2 addr wdata s

/-- `STORE32` (R88). -/
def execStore32 (addr wdata : Word) (s : State) : Host.Outcome State Fault Refusal :=
  storeWith .b4 addr wdata s

end Sys2Proof.Machine
end

