-- ==== Sys2Proof/Machine/WaitCost.lean ====
section
/-! DEFINITION. The four wait operations and `ADJTIM` (43_timing.md). -/

namespace Sys2Proof.Machine

/-- A wait operation (R101): charge `1 + T.k[r]`; a region index of 16 or more has no entry and faults. The slot table
is not looked at. -/
def waitWith (k : TableKind) (addr : Word) (s : State) : Host.Outcome State Fault Refusal :=
  match slotIndex addr with
  | none => raise (.fRegion addr)
  | some r => .next (s.begin.charge (1 + s.timing.entry k r))

/-- `WAITN16` (R101). -/
def execWaitN16 (addr : Word) (s : State) : Host.Outcome State Fault Refusal :=
  waitWith .n16 addr s

/-- `WAITS16` (R102). -/
def execWaitS16 (addr : Word) (s : State) : Host.Outcome State Fault Refusal :=
  waitWith .s16 addr s

/-- `WAITN32` (R103). -/
def execWaitN32 (addr : Word) (s : State) : Host.Outcome State Fault Refusal :=
  waitWith .n32 addr s

/-- `WAITS32` (R104). -/
def execWaitS32 (addr : Word) (s : State) : Host.Outcome State Fault Refusal :=
  waitWith .s32 addr s

/-- The SRAM entries: "all set directly from the SRAM lookup" (R105). -/
def Timing.adjustSram (t : Timing) (w : Nat) : Timing :=
  (((t.set .n16 slotCartSram w).set .s16 slotCartSram w).set .n32 slotCartSram w).set .s32 slotCartSram w

/-- The entries of one ROM region: the 8/16-bit ones from the lookups, the 32-bit ones derived as `N16 + 1 + S16` and
`2 * S16 + 1` (R105). -/
def Timing.adjustRom (t : Timing) (r : Fin 16) (n q : Nat) : Timing :=
  (((t.set .n16 r n).set .s16 r q).set .n32 r (n + 1 + q)).set .s32 r (2 * q + 1)

/-- The tables after `ADJTIM(ctl)` (R105). -/
def Timing.adjust (t : Timing) (ctl : BitVec 16) : Timing :=
  (((t.adjustSram (lutN (ctlSram ctl))).adjustRom slotCart0 (lutN (ctlWs0n ctl)) (lutS0 (ctlWs0s ctl))).adjustRom
    slotCart1 (lutN (ctlWs1n ctl)) (lutS1 (ctlWs1s ctl))).adjustRom slotCart2 (lutN (ctlWs2n ctl)) (lutS2 (ctlWs2s ctl))

/-- `ADJTIM(ctl)` (R105). -/
def execAdjTim (ctl : BitVec 16) (s : State) : Host.Outcome State Fault Refusal :=
  .next (s.begin.putTiming (s.timing.adjust ctl))

end Sys2Proof.Machine
end

