-- ==== Sys2Proof/Machine/Dispatch.lean ====
section
/-! DEFINITION. The dispatch: one arm per operation of the command port. -/

namespace Sys2Proof.Machine

def exec (i : Instr) (s : State) : Host.Outcome State Fault Refusal :=
  match i with
  | .reset => Sys2Proof.Machine.execReset s
  | .mapBios buf => Sys2Proof.Machine.execMapBios buf s
  | .mapRom buf extract => Sys2Proof.Machine.execMapRom buf extract s
  | .load8 addr => Sys2Proof.Machine.execLoad8 addr s
  | .loadU8 addr => Sys2Proof.Machine.execLoadU8 addr s
  | .load16 addr => Sys2Proof.Machine.execLoad16 addr s
  | .loadU16 addr => Sys2Proof.Machine.execLoadU16 addr s
  | .load32 addr => Sys2Proof.Machine.execLoad32 addr s
  | .store8 addr wdata => Sys2Proof.Machine.execStore8 addr wdata s
  | .store16 addr wdata => Sys2Proof.Machine.execStore16 addr wdata s
  | .store32 addr wdata => Sys2Proof.Machine.execStore32 addr wdata s
  | .waitN16 addr => Sys2Proof.Machine.execWaitN16 addr s
  | .waitS16 addr => Sys2Proof.Machine.execWaitS16 addr s
  | .waitN32 addr => Sys2Proof.Machine.execWaitN32 addr s
  | .waitS32 addr => Sys2Proof.Machine.execWaitS32 addr s
  | .adjTim ctl => Sys2Proof.Machine.execAdjTim ctl s
  | .dmaXfer chan d => Sys2Proof.Machine.execDmaXfer chan d s
  | .icMark page => Sys2Proof.Machine.execIcMark page s
  | .icQuery page => Sys2Proof.Machine.execIcQuery page s

end Sys2Proof.Machine
end

