-- ==== Sys2Proof/Machine/Step.lean ====
section
/-! DEFINITION. One step: take the oldest command off the port, decode it, run it (00_scope.md R6: "one atomic
transition per operation"). -/

namespace Sys2Proof.Machine

/-- One step of the block. With no command on the port the block takes no step of its own (R6). -/
def step (s : State) : Host.Outcome State Fault Refusal :=
  match s.fetch with
  | none => .refused .noOperation
  | some (c, t) =>
    match decode c with
    | .error e => .refused (refusalOf e)
    | .ok i => exec i t

/-- `s` with the command of a table word presented as the next one on the port. -/
def State.withFetchWord (s : State) (nbits w : Nat) : State :=
  { s with port := Command.ofTableWord nbits w :: s.port }

end Sys2Proof.Machine
end

