-- ==== Sys2Proof/Machine/Schedule.lean ====
section
/-! DEFINITION. Reading aids for statements about the DMA sequencer: the copies a descriptor asks for, in closed form,
written from 44_dma.md R115 and R116 and not from the loop. No meaning uses them. -/

namespace Sys2Proof.Machine

/-- One `Copy` step: its width and its two offsets (95_test_vectors.md 2.5 writes it (bytes, source, destination)). -/
structure DmaStep where
  n   : Width
  src : Int
  dst : Int
  deriving DecidableEq, Repr

/-- `k` copies of one width, the offsets advancing by the steps after each. -/
def dmaRun (n : Width) (src dst sstep dstep : Int) (k : Nat) : List DmaStep :=
  (List.range k).map (fun i : Nat => { n := n, src := src + (i : Int) * sstep, dst := dst + (i : Int) * dstep })

/-- Whether the 16-bit body begins with one element: bit 1 of the masked source offset (R116). -/
def dmaPrologue (d : Descriptor) : Nat :=
  if offsetOf d.src / 2 % 2 = 1 then 1 else 0

/-- The copies of a transfer in order. 32-bit: `count` copies of 4 bytes (R115). 16-bit: one copy of 2 bytes if bit 1 of
the source offset is set, then the pairs as copies of 4 bytes advancing by twice the steps, then one copy of 2 bytes if
an element remains (R116). -/
def dmaSchedule (d : Descriptor) : List DmaStep :=
  let n := dmaWidth d.w32
  let ss := dmaStep d.srcCtl n
  let ds := dmaStep d.dstCtl n
  let so : Int := offsetOf d.src
  let dO : Int := offsetOf d.dst
  let p := dmaPrologue d
  let rest := d.count.toNat - p
  if d.w32 then dmaRun .b4 so dO ss ds d.count.toNat
  else
    dmaRun .b2 so dO ss ds p
      ++ dmaRun .b4 (so + p * ss) (dO + p * ds) (2 * ss) (2 * ds) (rest / 2)
      ++ dmaRun .b2 (so + (d.count.toNat - 1 : Nat) * ss) (dO + (d.count.toNat - 1 : Nat) * ds) ss ds (rest % 2)

/-- Both sides of a copy are in range for views of the given sizes (20_memory.md R38). -/
def DmaStep.fits (srcSize dstSize : Nat) (c : DmaStep) : Prop :=
  0 ≤ c.src ∧ c.src + c.n.bytes ≤ srcSize ∧ 0 ≤ c.dst ∧ c.dst + c.n.bytes ≤ dstSize

/-- The side named by the first of the listed copies that is not in range, the source side of a copy before its
destination side (60_exceptions.md R136); none when every copy is in range. -/
def firstUnfit (srcSize dstSize : Nat) : List DmaStep → Option DmaSide
  | [] => none
  | c :: cs =>
    if c.src < 0 ∨ (srcSize : Int) < c.src + c.n.bytes then some .source
    else if c.dst < 0 ∨ (dstSize : Int) < c.dst + c.n.bytes then some .destination
    else firstUnfit srcSize dstSize cs

/-- The state after performing the listed copies one after another, each read after the previous write (44_dma.md
R114), for copies that are all in range. -/
def State.afterCopies (s : State) (S D : Fin 16) : List DmaStep → State
  | [] => s
  | c :: cs =>
    let x := s.readAt S c.src.toNat c.n
    (x.2.writeAt D c.dst.toNat c.n x.1).afterCopies S D cs

end Sys2Proof.Machine
end

