-- ==== Sys2Proof/Safety.lean ====
section
/-! DEFINITION. What counts as a safe run, the launch premise, and the two invariants of the state, in the terms claims
use. -/

namespace Sys2Proof

/-- A run of `k` steps that meets no fault and no refusal: "a faulted run is never a good final state"
(93_implementation_defined.md). -/
def SafeRun (k : Nat) (s : Machine.State) : Prop :=
  ∃ t, Host.Core.run core k s = .next t

/-- Whether a command is a `MAPROM`. -/
def Command.isMapRom (c : Command) : Bool :=
  decide (c.op = 0x02)

/-- The launch premise "at most one `MAPROM` per power-on" (70_reset_and_hazards.md R158, decision D23), for the
commands still on the port. -/
def AtMostOneMapRom (s : Machine.State) : Prop :=
  (s.port.filter Command.isMapRom).length ≤ 1

namespace Machine

/-- A slot is a read-write block of the given size (10_state.md R13). -/
def Slot.isRw (size : Nat) : Slot → Bool
  | .rw n _ => decide (n = size)
  | _ => false

/-- A slot is a read-only view from the given byte offset, with the size 10_state.md R14 gives it and at least one
byte. -/
def State.isView (s : State) (byteOffset : Nat) : Slot → Bool
  | .ro buf o n =>
    decide (o = byteOffset) && decide (n = min ((s.buffer buf).len - byteOffset) cartHalf) &&
      decide (byteOffset < (s.buffer buf).len)
  | _ => false

/-- The slot table of 10_state.md R12, as any run from power-on leaves it: which slot holds which kind, the fixed sizes,
the views' offsets and sizes, the three cartridge aliases alike, the SRAM there exactly when a ROM is mapped. -/
structure State.Layout (s : State) : Prop where
  bios        : s.slot 0x0 = .unmapped ∨ s.isView 0 (s.slot 0x0) = true
  none1       : s.slot 0x1 = .unmapped
  workRam     : (s.slot 0x2).isRw 0x40000 = true
  internalRam : (s.slot 0x3).isRw 0x8000 = true
  io          : s.slot 0x4 = .io
  paletteRam  : (s.slot 0x5).isRw 0x400 = true
  vram        : (s.slot 0x6).isRw 0x18000 = true
  oam         : (s.slot 0x7).isRw 0x400 = true
  rom         : s.slot 0x8 = .unmapped ∨ s.isView 0 (s.slot 0x8) = true
  romHigh     : s.slot 0x9 = .unmapped ∨ s.isView 0x01000000 (s.slot 0x9) = true
  alias1      : s.slot 0xA = s.slot 0x8
  alias1High  : s.slot 0xB = s.slot 0x9
  alias2      : s.slot 0xC = s.slot 0x8
  alias2High  : s.slot 0xD = s.slot 0x9
  sram        : (s.slot 0x8 = .unmapped ∧ s.slot 0xE = .unmapped) ∨
                (s.isView 0 (s.slot 0x8) = true ∧ (s.slot 0xE).isRw 0x10000 = true)
  highNeedsLow : s.slot 0x8 = .unmapped → s.slot 0x9 = .unmapped
  noneF       : s.slot 0xF = .unmapped

/-- A slot's bytes are in canonical form and inside the block's size. -/
def Slot.canonical : Slot → Bool
  | .rw size bytes => bytes.wf && Memory.below size bytes
  | _ => true

/-- Everything the state keeps in a canonical form is in it: the blocks' bytes, the page set, the buffers. Equal
contents are then equal data. -/
structure State.Canonical (s : State) : Prop where
  blocks  : ∀ r, (s.slot r).canonical = true
  pages   : s.icache.wf = true
  buffers : s.buffers.all Buffer.wf = true

end Machine

end Sys2Proof
end

