-- ==== Sys2Proof/Certificates/Slice0/Obligations.lean ====
section
/-! DEFINITION. The statements for the provers. -/

open Sys2Proof Sys2Proof.Machine

/-! ### The command port, decoding -/

/-- R45, R50: with a command on the port, a step decodes the oldest one and runs the instruction it decodes to on the
state without it; a command the decoder rejects is refused; with no command the block takes no step (R6). The port as a
list in the state is the model's choice (assumption log 1, DESIGN CHOICE), and so is the refusal by the name noOperation
that answers an empty port (assumption log 22, DESIGN CHOICE). -/
def Obligations.StepRunsTheDecodedCommand : Prop :=
  (∀ (s : State) (c : Command) (rest : List Command) (i : Instr), s.port = c :: rest → decode c = .ok i →
    step s = exec i { s with port := rest }) ∧
  (∀ (s : State) (c : Command) (rest : List Command) (e : DecodeError), s.port = c :: rest → decode c = .error e →
    step s = .refused (refusalOf e)) ∧
  (∀ s : State, s.port = [] → step s = .refused .noOperation)

/-- R45: operations take effect one at a time in the order issued: a step that goes on has taken exactly the oldest
command off the port. The port as a list in the state is the model's choice (assumption log 1, DESIGN CHOICE). That one
step is the whole of one operation is the spec's decision D32 (assumption log 21, DESIGN CHOICE). -/
def Obligations.StepTakesOneCommandInOrder : Prop :=
  ∀ s t : State, step s = .next t → ∃ c, s.port = c :: t.port

/-- Commands written out from the tables of 30_encoding.md R50, R51, R56 and R57 decode to what they stand for, one or
more of each format. The selectors and the mode codes are the spec's own (decisions D25, D16, assumption log 12). -/
def Obligations.SpecCommandsDecode : Prop :=
  decode (Command.ofSelector 0b00000) = .ok .reset ∧
  decode { Command.ofSelector 0b00001 with buf := 3 } = .ok (.mapBios 3) ∧
  decode { Command.ofSelector 0b00010 with buf := 4, extract := true } = .ok (.mapRom 4 true) ∧
  decode { Command.ofSelector 0b01000 with addr := 0x08000000 } = .ok (.load32 0x08000000) ∧
  decode { Command.ofSelector 0b01010 with addr := 0x03000001, wdata := 0xBEEF } =
    .ok (.store16 0x03000001 0xBEEF) ∧
  decode { Command.ofSelector 0b01110 with addr := 0x08000000 } = .ok (.waitN32 0x08000000) ∧
  decode { Command.ofSelector 0b10000 with ctl := 0x4317 } = .ok (.adjTim 0x4317) ∧
  decode { Command.ofSelector 0b10001 with
      chan := 3, src := 0x08000000, dst := 0x0E000000, srcCtl := 1, dstCtl := 2,
      w32 := true, count := 4, rep := false, enable := true } =
    .ok (.dmaXfer 3 { src := 0x08000000, dst := 0x0E000000, srcCtl := .decrement, dstCtl := .fixed,
                      w32 := true, count := 4, rep := false, enable := true }) ∧
  decode { Command.ofSelector 0b10011 with page := 0x018000 } = .ok (.icQuery 0x018000)

/-- R50, R51: decoding and encoding agree on all 19 operations with every operand at every value: a command decodes to
`i` exactly when its selector and listed fields are those of `i`, whatever stands on the fields `i`'s format does not
list; so encoding and decoding gives back `i`. The selectors, the formats and the mode codes are the spec's own
(decisions D25, D16, assumption log 12); that a buffer handle is a natural number is assumption log 6 (DESIGN CHOICE).
-/
def Obligations.DecodeAndEncodeAgree : Prop :=
  ∀ (i : Instr) (c : Command),
    (decode c = .ok i ↔ i.encodeOver c = c) ∧ decode (i.encodeOver c) = .ok i ∧ decode (encode i) = .ok i

/-- R61: the reserved selectors and operand values: what is refused, what is ignored, what is accepted. These are the
spec's own choices (decisions D15, D16, D24, D25). A handle is a place in the list of buffers, and past its end names an
empty one (assumption log 6, DESIGN CHOICE). That a page above 0x00800000 is accepted is R61 and R91 (assumption log 14,
DEDUCED); the count limits are also assumption log 12 (PRESUMED). -/
def Obligations.ReservedEncodingsTreatedAsSpecified : Prop :=
  (∀ c : Command, decode c = .error (.undefinedSelector c.op) ↔ c.op = 0x03 ∨ 0x14 ≤ c.op.toNat) ∧
  (∀ (s : State) (c : Command) (rest : List Command), s.port = c :: rest → c.op = 0x03 ∨ 0x14 ≤ c.op.toNat →
    step s = .refused (.undefinedSelector c.op)) ∧
  (∀ (s : State) (c : Command) (rest : List Command), s.port = c :: rest → c.op = 0x11 →
    c.srcCtl = 3 ∨ c.dstCtl = 3 → step s = .refused (.reservedMode c.chan)) ∧
  (∀ (s : State) (chan : BitVec 2) (d : Descriptor), d.count = 0 →
    exec (.dmaXfer chan d) s = .refused (.countZero chan)) ∧
  (∀ (s : State) (b : Handle) (e : Bool), (s.buffer b).len = 0 →
    exec (.mapRom b e) s = .refused (.emptyBuffer b) ∧ exec (.mapBios b) s = .refused (.emptyBuffer b)) ∧
  (∀ (s : State) (ctl : BitVec 16), exec (.adjTim ctl) s = exec (.adjTim (ctl &&& 0x07FF)) s) ∧
  (∀ (s : State) (page : BitVec 24), 0x00800000 < page.toNat →
    (∃ t, exec (.icMark page) s = .next t) ∧ ∃ t, exec (.icQuery page) s = .next t)

/-! ### Power-on and the lifecycle operations -/

/-- 10_state.md R27, the power-on column for the block's own state: the slot table, the tables at `WS_RESET`, `icache`
empty; and no operation pending (R150). The column and the slot numbers are the spec's own choice (decisions D21, D2,
D3, D22 for the I/O slot; assumption logs 20, 11 and 4). The externally owned values of `State.reset` are the model's
choice (logs 6 to 9) and are not stated. -/
def Obligations.PowerOnStateOfTheBlock : Prop :=
  State.reset.slot 0x0 = .unmapped ∧ State.reset.slot 0x1 = .unmapped ∧
  State.reset.slot 0x2 = .rw 0x40000 [] ∧ State.reset.slot 0x3 = .rw 0x8000 [] ∧ State.reset.slot 0x4 = .io ∧
  State.reset.slot 0x5 = .rw 0x400 [] ∧ State.reset.slot 0x6 = .rw 0x18000 [] ∧ State.reset.slot 0x7 = .rw 0x400 [] ∧
  (∀ r : Fin 16, 8 ≤ r.val → State.reset.slot r = .unmapped) ∧
  (∀ k r, State.reset.timing.entry k r = (Config.wsReset k r).toNat) ∧
  State.reset.icache = [] ∧ State.reset.port = []

/-- R70: `RESET` completes in every state: the five RAM kinds are fresh blocks of their sizes with every byte 0, all 64
entries are `WS_RESET`, `icache` is empty; every other slot and everything externally owned is left alone; nothing is
charged; twice in a row equals once. What is left alone is the spec's own choice (decision D20, assumption log 20,
DEDUCED), and WS_RESET is open (decision D3, log 4). The response is otherwise blank (assumption log 13, DESIGN CHOICE).
-/
def Obligations.ResetRestoresRamTablesAndPages : Prop :=
  ∀ s : State, ∃ t, exec .reset s = .next t ∧
    t.slot 0x2 = .rw 0x40000 [] ∧ t.slot 0x3 = .rw 0x8000 [] ∧ t.slot 0x5 = .rw 0x400 [] ∧
    t.slot 0x6 = .rw 0x18000 [] ∧ t.slot 0x7 = .rw 0x400 [] ∧
    (∀ o, o < 0x40000 → t.byteIn 0x2 o = some 0) ∧ (∀ o, o < 0x8000 → t.byteIn 0x3 o = some 0) ∧
    (∀ o, o < 0x400 → t.byteIn 0x5 o = some 0) ∧ (∀ o, o < 0x18000 → t.byteIn 0x6 o = some 0) ∧
    (∀ o, o < 0x400 → t.byteIn 0x7 o = some 0) ∧
    (∀ r : Fin 16, r ≠ 0x2 → r ≠ 0x3 → r ≠ 0x5 → r ≠ 0x6 → r ≠ 0x7 → t.slot r = s.slot r) ∧
    (∀ k r, t.timing.entry k r = (Config.wsReset k r).toNat) ∧
    (∀ p, t.icache.has p = false) ∧
    t = { s with slots := t.slots, timing := t.timing, icache := t.icache, resp := Response.blank } ∧
    exec .reset t = .next t

/-- R71: `MAPBIOS` refuses an empty buffer and otherwise installs the read-only view at slot 0x0, capped at 16 MiB, and
changes nothing else. The refusal and the cap are the spec's own choice (decisions D24, D33, assumption log 20). The
response is otherwise blank (assumption log 13, DESIGN CHOICE). A handle is a place in the list of buffers, and past its
end names an empty one (assumption log 6, DESIGN CHOICE). -/
def Obligations.MapBiosInstallsTheView : Prop :=
  ∀ (s : State) (b : Handle),
    ((s.buffer b).len = 0 → exec (.mapBios b) s = .refused (.emptyBuffer b)) ∧
    (1 ≤ (s.buffer b).len → ∃ t, exec (.mapBios b) s = .next t ∧
      t.slot 0x0 = .ro b 0 (min (s.buffer b).len 0x01000000) ∧
      (∀ r : Fin 16, r ≠ 0x0 → t.slot r = s.slot r) ∧
      t = { s with slots := t.slots, resp := Response.blank })

/-- R72, R73: `MAPROM` refuses an empty buffer; otherwise the low view stands at 0x8, 0xA and 0xC, the upper view at
0x9, 0xB and 0xD exactly for a buffer longer than 0x01000000 bytes (else those slots keep what they held), slot 0xE is a
fresh zero SRAM, the response carries the Cartridge Info, and nothing else changes. The refusal and the slots left as
they were are the spec's own choice (decisions D24, D23, assumption log 20, DEDUCED), and so are the sizes of the views
(decision D7) and the SRAM's slot number (decision D2, log 11). Apart from it the response is blank (assumption log 13,
DESIGN CHOICE). A handle is a place in the list of buffers, and past its end names an empty one (assumption log 6,
DESIGN CHOICE). -/
def Obligations.MapRomInstallsViewsAndSram : Prop :=
  ∀ (s : State) (b : Handle) (e : Bool),
    ((s.buffer b).len = 0 → exec (.mapRom b e) s = .refused (.emptyBuffer b)) ∧
    (1 ≤ (s.buffer b).len → ∃ t, exec (.mapRom b e) s = .next t ∧
      t.slot 0x8 = .ro b 0 (min (s.buffer b).len 0x01000000) ∧ t.slot 0xA = t.slot 0x8 ∧ t.slot 0xC = t.slot 0x8 ∧
      (0x01000000 < (s.buffer b).len →
        t.slot 0x9 = .ro b 0x01000000 (min ((s.buffer b).len - 0x01000000) 0x01000000) ∧
        t.slot 0xB = t.slot 0x9 ∧ t.slot 0xD = t.slot 0x9) ∧
      ((s.buffer b).len ≤ 0x01000000 →
        t.slot 0x9 = s.slot 0x9 ∧ t.slot 0xB = s.slot 0xB ∧ t.slot 0xD = s.slot 0xD) ∧
      t.slot 0xE = .rw 0x10000 [] ∧ (∀ o, o < 0x10000 → t.byteIn 0xE o = some 0) ∧
      (∀ r : Fin 16, r.val < 8 ∨ r = 0xF → t.slot r = s.slot r) ∧
      t = { s with slots := t.slots,
                   resp := { Response.blank with
                     info := some (if e then (s.buffer b).cartInfo else CartInfo.unset) } })

/-- R74, R75, R76: with `extract` = 1 each field of the Cartridge Info is the run of bytes from its offset up to the
first zero byte, at most its maximum length, a byte beyond the end of the image counting as zero; with `extract` = 0 all
three fields are absent, and the operation completes all the same. The record's form is the spec's own choice (decision
D31). A handle is a place in the list of buffers (assumption log 6, DESIGN CHOICE). -/
def Obligations.CartridgeInfoIsExtractedAsSpecified : Prop :=
  ∀ (s : State) (b : Handle), 1 ≤ (s.buffer b).len →
    let field := fun (base maxlen : Nat) =>
      ((List.range maxlen).map
        (fun i => if base + i < (s.buffer b).len then (s.buffer b).byte (base + i) else 0)).takeWhile
        (fun x => decide (x ≠ 0))
    (∃ t, exec (.mapRom b true) s = .next t ∧
      t.resp.info = some { title := some (field 0xA0 12), code := some (field 0xAC 4), maker := some (field 0xB0 2) }) ∧
    (∃ t, exec (.mapRom b false) s = .next t ∧ t.resp.info = some { title := none, code := none, maker := none })

/-- R42, R72: after `MAPROM` the three low aliases read the image's bytes alike, and for an image longer than 16 MiB so
do the three upper ones, from byte 0x01000000 on. The sizes of the views are the spec's decision D7; a handle is a place
in the list of buffers (assumption log 6, DESIGN CHOICE). -/
def Obligations.CartridgeAliasesReadTheImage : Prop :=
  ∀ (s t : State) (b : Handle) (e : Bool), exec (.mapRom b e) s = .next t → ∀ o : Nat,
    (∀ r ∈ [(0x8 : Fin 16), 0xA, 0xC],
      t.byteIn r o = if o < min (s.buffer b).len 0x01000000 then some ((s.buffer b).byte o) else none) ∧
    (0x01000000 < (s.buffer b).len → ∀ r ∈ [(0x9 : Fin 16), 0xB, 0xD],
      t.byteIn r o = if o < min ((s.buffer b).len - 0x01000000) 0x01000000
        then some ((s.buffer b).byte (0x01000000 + o)) else none)

/-! ### Loads -/

/-- R81, R82: a byte load of a byte the block's stores hold completes with the byte sign-extended (`LOAD8`) or
zero-extended (`LOADU8`), and changes nothing but the response. The response is otherwise blank (assumption log 13,
DESIGN CHOICE). The 32-bit result is the spec's decision D27. -/
def Obligations.ByteLoadsWidenTheByte : Prop :=
  ∀ (s : State) (addr : Word) (b : Byte), s.byteAt addr = some b →
    exec (.load8 addr) s = .next { s with resp := { Response.blank with rdata := some (b.signExtend 32) } } ∧
    exec (.loadU8 addr) s = .next { s with resp := { Response.blank with rdata := some (b.setWidth 32) } }

/-- R83, R84: a 16-bit load of two bytes of one region, at any address, odd ones included, completes with the low byte
first, sign-extended (`LOAD16`) or zero-extended (`LOADU16`), and changes nothing but the response. That no address is
aligned is the spec's own choice (decision D6, assumption log 20, DEDUCED). The response is otherwise blank (assumption
log 13, DESIGN CHOICE). The 32-bit result is the spec's decision D27. -/
def Obligations.HalfwordLoadsWidenTheBytes : Prop :=
  ∀ (s : State) (addr : Word) (b0 b1 : Byte), addr.toNat % 0x1000000 + 2 ≤ 0x1000000 →
    s.byteAt addr = some b0 → s.byteAt (addr + 1) = some b1 →
    exec (.load16 addr) s = .next { s with resp := { Response.blank with rdata := some ((b1 ++ b0).signExtend 32) } } ∧
    exec (.loadU16 addr) s = .next { s with resp := { Response.blank with rdata := some ((b1 ++ b0).setWidth 32) } }

/-- R85: a 32-bit load of four bytes of one region, at any address, completes with the bytes in little-endian order, no
alignment and no rotation (the spec's own choice, decision D6, assumption log 20, DEDUCED), and changes nothing but the
response. The response is otherwise blank (assumption log 13, DESIGN CHOICE). The 32-bit result is the spec's decision
D27. -/
def Obligations.WordLoadAnswersTheBytes : Prop :=
  ∀ (s : State) (addr : Word) (b0 b1 b2 b3 : Byte), addr.toNat % 0x1000000 + 4 ≤ 0x1000000 →
    s.byteAt addr = some b0 → s.byteAt (addr + 1) = some b1 → s.byteAt (addr + 2) = some b2 →
    s.byteAt (addr + 3) = some b3 →
    exec (.load32 addr) s =
      .next { s with resp := { Response.blank with rdata := some ((b3 ++ b2 ++ b1 ++ b0).setWidth 32) } }

/-- R37, R81 to R85: a load from the I/O slot completes with the next value of the oracle, widened as the load widens
any value, whatever the value is (the spec's own choice, decision D22); it counts the draw in the model's own `ioDraws`
(assumption log 5, DESIGN CHOICE) and changes nothing else. The response is otherwise blank (assumption log 13, DESIGN
CHOICE). The range premises are those of assumption log 10 (DEDUCED). -/
def Obligations.LoadsFromIoAnswerAnArbitraryValue : Prop :=
  ∀ (s : State) (addr : Word) (r : Fin 16), regionOf addr = r → s.slot r = .io →
    let v := Config.ioValue s.ioDraws
    let answer := fun (x : Word) =>
      Host.Outcome.next (φ := Fault) (ρ := Refusal)
        { s with resp := { Response.blank with rdata := some x }, ioDraws := s.ioDraws + 1 }
    exec (.load8 addr) s = answer ((v.setWidth 8).signExtend 32) ∧
    exec (.loadU8 addr) s = answer ((v.setWidth 8).setWidth 32) ∧
    (offsetOf addr + 2 ≤ 0x1000000 → exec (.load16 addr) s = answer ((v.setWidth 16).signExtend 32) ∧
      exec (.loadU16 addr) s = answer ((v.setWidth 16).setWidth 32)) ∧
    (offsetOf addr + 4 ≤ 0x1000000 → exec (.load32 addr) s = answer v)

/-- R80, R131, R132, R136: every load faults with `F_REGION` and the address presented when its region names no mapped
slot, whatever the offset, and otherwise with `F_OFFSET` and the address exactly when its access leaves the view. The
fault is the spec's own choice (decisions D1, D5, D8, D34, assumption log 20 for D1); for the I/O slot see assumption
log 10. -/
def Obligations.LoadsFaultExactlyOutsideTheViews : Prop :=
  ∀ (s : State) (addr : Word),
    let loads := [(Instr.load8 addr, 1), (Instr.loadU8 addr, 1), (Instr.load16 addr, 2), (Instr.loadU16 addr, 2),
      (Instr.load32 addr, 4)]
    ((∀ r : Fin 16, regionOf addr = r → s.slot r = .unmapped) → ∀ x ∈ loads, exec x.1 s = .fault (.fRegion addr)) ∧
    (∀ r : Fin 16, regionOf addr = r → s.slot r ≠ .unmapped → ∀ x ∈ loads,
      ((s.slot r).size < offsetOf addr + x.2 → exec x.1 s = .fault (.fOffset addr)) ∧
      (offsetOf addr + x.2 ≤ (s.slot r).size → ∃ t, exec x.1 s = .next t))

/-- R41, R80: the frame of the five loads: only the response and the count of oracle draws change, nothing is charged,
and every byte of every store reads as before. The count of draws is the model's own field (assumption log 5, DESIGN
CHOICE). -/
def Obligations.LoadsChangeNoState : Prop :=
  ∀ (s t : State) (addr : Word),
    ∀ i ∈ [Instr.load8 addr, Instr.loadU8 addr, Instr.load16 addr, Instr.loadU16 addr, Instr.load32 addr],
    exec i s = .next t →
      t = { s with resp := t.resp, ioDraws := t.ioDraws } ∧ t.resp.cycAdd = 0 ∧ t.resp.events = [] ∧
      (∀ a, t.byteAt a = s.byteAt a) ∧ (∀ r : Fin 16, regionOf addr = r → s.slot r ≠ .io → t.ioDraws = s.ioDraws)

/-! ### Stores -/

/-- R86: `STORE8` to a read-write block completes: the byte at the address takes the low 8 bits, every other byte of
every store reads as before, exactly page `addr >> 9` leaves `icache`, and nothing else changes. The response is
otherwise blank (assumption log 13, DESIGN CHOICE). The 32-bit operand is the spec's decision D27, the page index
without a mask or a wrap its decision D10. -/
def Obligations.ByteStoreWritesOneByte : Prop :=
  ∀ (s : State) (addr wdata : Word) (r : Fin 16) (size : Nat) (m : Memory), s.Canonical → regionOf addr = r →
    s.slot r = .rw size m → offsetOf addr < size → size ≤ 0x1000000 →
    ∃ t, exec (.store8 addr wdata) s = .next t ∧
      (∀ a, t.byteAt a = if a = addr then some (wdata.setWidth 8) else s.byteAt a) ∧
      (∀ p, t.icache.has p = (s.icache.has p && decide (p ≠ addr.toNat / 512))) ∧
      (∀ q, q ≠ r → t.slot q = s.slot q) ∧ (∃ m', t.slot r = .rw size m') ∧
      t = { s with slots := t.slots, icache := t.icache, resp := Response.blank }

/-- R87: `STORE16` to a read-write block completes: the two bytes at the address with bit 0 cleared take the low 16
bits, low byte first, every other byte reads as before, exactly page `addr >> 9` leaves `icache`, and nothing else
changes. The response is otherwise blank (assumption log 13, DESIGN CHOICE). The 32-bit operand is the spec's decision
D27, the page index without a mask or a wrap its decision D10. -/
def Obligations.HalfwordStoreWritesTwoBytes : Prop :=
  ∀ (s : State) (addr wdata : Word) (r : Fin 16) (size : Nat) (m : Memory), s.Canonical → regionOf addr = r →
    s.slot r = .rw size m → offsetOf (alignDown .b2 addr) + 2 ≤ size → size ≤ 0x1000000 →
    ∃ t, exec (.store16 addr wdata) s = .next t ∧
      (∀ a, t.byteAt a =
        if a = alignDown .b2 addr then some (wdata.extractLsb' 0 8)
        else if a = alignDown .b2 addr + 1 then some (wdata.extractLsb' 8 8)
        else s.byteAt a) ∧
      (∀ p, t.icache.has p = (s.icache.has p && decide (p ≠ addr.toNat / 512))) ∧
      (∀ q, q ≠ r → t.slot q = s.slot q) ∧ (∃ m', t.slot r = .rw size m') ∧
      t = { s with slots := t.slots, icache := t.icache, resp := Response.blank }

/-- R88: `STORE32` to a read-write block completes: the four bytes at the address with bits 1 and 0 cleared take the
word, low byte first, every other byte reads as before, exactly the pages `addr >> 9` and `(addr >> 9) + 1` leave
`icache`, and nothing else changes. The response is otherwise blank (assumption log 13, DESIGN CHOICE). The 32-bit
operand is the spec's decision D27, the page index without a mask or a wrap its decision D10. -/
def Obligations.WordStoreWritesFourBytes : Prop :=
  ∀ (s : State) (addr wdata : Word) (r : Fin 16) (size : Nat) (m : Memory), s.Canonical → regionOf addr = r →
    s.slot r = .rw size m → offsetOf (alignDown .b4 addr) + 4 ≤ size → size ≤ 0x1000000 →
    ∃ t, exec (.store32 addr wdata) s = .next t ∧
      (∀ a, t.byteAt a =
        if a = alignDown .b4 addr then some (wdata.extractLsb' 0 8)
        else if a = alignDown .b4 addr + 1 then some (wdata.extractLsb' 8 8)
        else if a = alignDown .b4 addr + 2 then some (wdata.extractLsb' 16 8)
        else if a = alignDown .b4 addr + 3 then some (wdata.extractLsb' 24 8)
        else s.byteAt a) ∧
      (∀ p, t.icache.has p =
        (s.icache.has p && decide (p ≠ addr.toNat / 512) && decide (p ≠ addr.toNat / 512 + 1))) ∧
      (∀ q, q ≠ r → t.slot q = s.slot q) ∧ (∃ m', t.slot r = .rw size m') ∧
      t = { s with slots := t.slots, icache := t.icache, resp := Response.blank }

/-- R36, R134, R161: an in-range store to a read-only view completes without error, changes no slot and emits nothing,
yet removes its pages, and changes nothing else. R37 under the spec's decision D22, and assumption log 15 (DESIGN
CHOICE): one to the I/O slot completes, changes no slot and no DMA control register, and emits one `IoWrite` with the
aligned offset, the width and the truncated value; it removes its pages (R161) and changes nothing else. The response is
otherwise blank (assumption log 13, DESIGN CHOICE). The page index without a mask or a wrap is the spec's decision D10.
-/
def Obligations.StoresToReadOnlyAndIoChangeNoByte : Prop :=
  ∀ (s : State) (addr wdata : Word) (r : Fin 16), regionOf addr = r →
    ∀ x ∈ [(Instr.store8 addr wdata, Width.b1, wdata &&& 0xFF), (Instr.store16 addr wdata, Width.b2, wdata &&& 0xFFFF),
      (Instr.store32 addr wdata, Width.b4, wdata)],
    offsetOf (alignDown x.2.1 addr) + x.2.1.bytes ≤ (s.slot r).size →
    ((∃ b k n, s.slot r = .ro b k n) → ∃ t, exec x.1 s = .next t ∧
      t = { s with icache := t.icache, resp := Response.blank } ∧
      (∀ p, t.icache.has p = (s.icache.has p && !(storePages x.2.1 addr).contains p))) ∧
    (s.slot r = .io → ∃ t, exec x.1 s = .next t ∧
      t = { s with icache := t.icache, resp := { Response.blank with
        events := [.ioWrite (offsetOf (alignDown x.2.1 addr)) x.2.1.bytes x.2.2] } } ∧
      (∀ p, t.icache.has p = (s.icache.has p && !(storePages x.2.1 addr).contains p)))

/-- R80, R130, R131, R132, R136: every store faults with `F_REGION` when its region names no mapped slot, and otherwise
with `F_OFFSET` exactly when its aligned access leaves the view, read-only views included; in the remaining cases it
completes. The faults are the spec's own choice (decisions D1, D5, D8, D34, assumption log 20 for D1). The address
recorded is the one presented (R130, R132), though `MemWrite` raises with the aligned one it is handed (R47): assumption
log 23 (DEDUCED). -/
def Obligations.StoresFaultExactlyOutsideTheViews : Prop :=
  ∀ (s : State) (addr wdata : Word),
    let stores := [(Instr.store8 addr wdata, Width.b1), (Instr.store16 addr wdata, Width.b2),
      (Instr.store32 addr wdata, Width.b4)]
    ((∀ r : Fin 16, regionOf addr = r → s.slot r = .unmapped) → ∀ x ∈ stores, exec x.1 s = .fault (.fRegion addr)) ∧
    (∀ r : Fin 16, regionOf addr = r → s.slot r ≠ .unmapped → ∀ x ∈ stores,
      ((s.slot r).size < offsetOf (alignDown x.2 addr) + x.2.bytes → exec x.1 s = .fault (.fOffset addr)) ∧
      (offsetOf (alignDown x.2 addr) + x.2.bytes ≤ (s.slot r).size → ∃ t, exec x.1 s = .next t))

/-- R93: after any store that completes, the page of its address is absent from `icache`, and for a 32-bit store the
next page too, whatever the slot's variant; a `DMAXFER` removes no page: that clause is the spec's decision D12 (R48,
R114, R152; assumption log 20, DEDUCED). The page index without a mask or a wrap is its decision D10. -/
def Obligations.StoredPagesAreAbsent : Prop :=
  (∀ (s t : State) (addr wdata : Word), ∀ i ∈ [Instr.store8 addr wdata, Instr.store16 addr wdata,
    Instr.store32 addr wdata], exec i s = .next t → t.icache.has (addr.toNat / 512) = false) ∧
  (∀ (s t : State) (addr wdata : Word), exec (.store32 addr wdata) s = .next t →
    t.icache.has (addr.toNat / 512 + 1) = false) ∧
  (∀ (s t : State) (chan : BitVec 2) (d : Descriptor), exec (.dmaXfer chan d) s = .next t → t.icache = s.icache)

/-- R82, R85, R88, R162 (source property S1, S2): a word stored at a multiple of 4 in a read-write block is loaded back
whole, and a byte stored anywhere in one is loaded back exactly; both pairs complete. -/
def Obligations.StoreThenLoadReturnsTheValue : Prop :=
  ∀ (s : State) (addr v : Word) (r : Fin 16) (size : Nat) (m : Memory), s.Canonical → regionOf addr = r →
    s.slot r = .rw size m → size ≤ 0x1000000 →
    (addr.toNat % 4 = 0 → offsetOf addr + 4 ≤ size → ∃ t u, exec (.store32 addr v) s = .next t ∧
      exec (.load32 addr) t = .next u ∧ u.resp.rdata = some v) ∧
    (offsetOf addr < size → ∃ t u, exec (.store8 addr v) s = .next t ∧
      exec (.loadU8 addr) t = .next u ∧ u.resp.rdata = some (v &&& 0xFF))

/-! ### The decode-cache array -/

/-- R90: `Invalidate(p)` removes exactly page `p` and changes nothing else; removing an absent page changes nothing. -/
def Obligations.InvalidateRemovesExactlyOnePage : Prop :=
  ∀ (s : State) (p : Nat),
    (∀ q, (s.invalidate p).icache.has q = (s.icache.has q && decide (q ≠ p))) ∧
    (s.icache.has p = false → s.invalidate p = s) ∧
    s.invalidate p = { s with icache := (s.invalidate p).icache }

/-- R91 (decision D11): `ICMARK` completes in every state for every 24-bit page, adds exactly that page and changes
nothing else; marking a page already present changes nothing of the array; no store ever names a page above 0x00800000.
The response is otherwise blank (assumption log 13, DESIGN CHOICE). The range of page indices is the spec's decision
D10; that pages above it can be marked is R91 (assumption log 14, DEDUCED). -/
def Obligations.IcMarkAddsExactlyOnePage : Prop :=
  (∀ (s : State) (page : BitVec 24), ∃ t, exec (.icMark page) s = .next t ∧
    (∀ q, t.icache.has q = (s.icache.has q || decide (q = page.toNat))) ∧
    (s.Canonical → s.icache.has page.toNat = true → t.icache = s.icache) ∧
    t = { s with icache := t.icache, resp := Response.blank }) ∧
  (∀ (n : Width) (addr : Word), ∀ p ∈ storePages n addr, p ≤ 0x00800000)

/-- R92 (decision D11): `ICQUERY` completes in every state, answers 1 exactly for a page in the array and else 0, and
changes no state; after `RESET` it answers 0 for every page. R59 and R92's result line define bit 0 alone: that bits 31
to 1 of the answer are 0 is assumption log 14 (DEDUCED, from R92's pseudocode). The response is otherwise blank
(assumption log 13, DESIGN CHOICE). -/
def Obligations.IcQueryReportsPresence : Prop :=
  ∀ (s : State) (page : BitVec 24),
    exec (.icQuery page) s = .next { s with resp := { Response.blank with
      rdata := some (if s.icache.has page.toNat then 1 else 0) } } ∧
    ∀ t u, exec .reset s = .next t → exec (.icQuery page) t = .next u → u.resp.rdata = some 0

/-! ### Timing -/

/-- R101 to R104: each wait operation completes for every address below 0x10000000, whatever the slot table holds, adds
`1 +` the entry of its table for the region to the counter and to `cycAdd`, and changes nothing else; at or above
0x10000000 it faults with `F_REGION` (the spec's own choice, decision D28, assumption log 20, DEDUCED). The response is
otherwise blank (assumption log 13, DESIGN CHOICE). The counter as an unbounded natural number is the spec's decision
D18. -/
def Obligations.WaitsChargeOnePlusTheEntry : Prop :=
  ∀ (s : State) (addr : Word),
    let waits := [(Instr.waitN16 addr, TableKind.n16), (Instr.waitS16 addr, TableKind.s16),
      (Instr.waitN32 addr, TableKind.n32), (Instr.waitS32 addr, TableKind.s32)]
    (∀ r : Fin 16, addr.toNat / 0x1000000 = r → ∀ x ∈ waits,
      exec x.1 s = .next { s with cycles := s.cycles + (1 + s.timing.entry x.2 r),
                                  resp := { Response.blank with cycAdd := 1 + s.timing.entry x.2 r } }) ∧
    (0x10000000 ≤ addr.toNat → ∀ x ∈ waits, exec x.1 s = .fault (.fRegion addr))

/-- R105, R54, R55: `ADJTIM` completes in every state and writes exactly the 16 entries of slots 0x8, 0xA, 0xC and 0xE
from the control word's fields; every other entry, and everything else, stays. That the upper halves' entries stay is
the spec's own reading (decision D4, assumption log 20, DEDUCED). The response is otherwise blank (assumption log 13,
DESIGN CHOICE). -/
def Obligations.AdjustTimingWritesTheCartridgeEntries : Prop :=
  ∀ (s : State) (ctl : BitVec 16),
    let c := ctl.toNat
    let lut := fun (i : Nat) => [4, 3, 2, 8].getD (i % 4) 0
    let rows : List (Fin 16 × Nat × Nat) :=
      [(0x8, lut (c / 4), [2, 1].getD (c / 16 % 2) 0), (0xA, lut (c / 32), [4, 1].getD (c / 128 % 2) 0),
       (0xC, lut (c / 256), [8, 1].getD (c / 1024 % 2) 0)]
    ∃ t, exec (.adjTim ctl) s = .next t ∧
      (∀ k, t.timing.entry k 0xE = lut c) ∧
      (∀ x ∈ rows, t.timing.entry .n16 x.1 = x.2.1 ∧ t.timing.entry .s16 x.1 = x.2.2 ∧
        t.timing.entry .n32 x.1 = x.2.1 + 1 + x.2.2 ∧ t.timing.entry .s32 x.1 = 2 * x.2.2 + 1) ∧
      (∀ k (r : Fin 16), r ≠ 0x8 → r ≠ 0xA → r ≠ 0xC → r ≠ 0xE → t.timing.entry k r = s.timing.entry k r) ∧
      t = { s with timing := t.timing, resp := Response.blank }

/-- R106: `ADJTIM` is idempotent; the entries it writes depend on `ctl[10:0]` alone and not on the tables' earlier
contents; it touches neither the slot table nor `icache` nor the counter; the control word itself is kept nowhere;
`RESET` undoes it. The response is otherwise blank (assumption log 13, DESIGN CHOICE), of which R106 says nothing. -/
def Obligations.AdjustTimingIsIdempotent : Prop :=
  (∀ (s t : State) (ctl : BitVec 16), exec (.adjTim ctl) s = .next t →
    exec (.adjTim ctl) t = .next t ∧ t.slots = s.slots ∧ t.icache = s.icache ∧ t.cycles = s.cycles ∧
    t = { s with timing := t.timing, resp := Response.blank } ∧
    exec .reset t = exec .reset s) ∧
  (∀ (s u t w : State) (c e : BitVec 16), c.toNat % 2048 = e.toNat % 2048 → exec (.adjTim c) s = .next t →
    exec (.adjTim e) u = .next w → ∀ k, ∀ r ∈ [(0x8 : Fin 16), 0xA, 0xC, 0xE],
    t.timing.entry k r = w.timing.entry k r)

/-- R100: whatever the operation, the counter grows by exactly the response's `cycAdd`, a natural number without
wrap-around (the spec's own choice, decision D18), and only the four waits and `DMAXFER` charge. -/
def Obligations.OnlyWaitsAndDmaCharge : Prop :=
  ∀ (i : Instr) (s t : State), exec i s = .next t →
    t.cycles = s.cycles + t.resp.cycAdd ∧
    match i with
    | .waitN16 _ | .waitS16 _ | .waitN32 _ | .waitS32 _ | .dmaXfer _ _ => True
    | _ => t.resp.cycAdd = 0

/-- R18: after `RESET` all 64 entries are `WS_RESET` (an open parameter, decision D3, assumption log 4), `ADJTIM`
changes no entry but those of the slots 0x8, 0xA, 0xC and 0xE (what it writes there is
`AdjustTimingWritesTheCartridgeEntries`), and no other operation changes any. That the entries of the slots 0x9, 0xB and
0xD stay is the spec's decision D4 (assumption log 20, DEDUCED). -/
def Obligations.OnlyResetAndAdjustWriteTiming : Prop :=
  ∀ (i : Instr) (s t : State), exec i s = .next t →
    match i with
    | .reset => ∀ k r, t.timing.entry k r = (Config.wsReset k r).toNat
    | .adjTim _ => ∀ k (r : Fin 16), r ≠ 0x8 → r ≠ 0xA → r ≠ 0xC → r ≠ 0xE →
        t.timing.entry k r = s.timing.entry k r
    | _ => t.timing = s.timing

/-! ### The DMA sequencer -/

/-- R111 (decision D15, assumption log 12, PRESUMED): a transfer of 0 elements, or of more than 0x10000, is refused,
before any other check. That the refusals come first is the spec's decision D34. -/
def Obligations.DmaRefusesIllegalCounts : Prop :=
  ∀ (s : State) (chan : BitVec 2) (d : Descriptor),
    (d.count.toNat = 0 → exec (.dmaXfer chan d) s = .refused (.countZero chan)) ∧
    (0x10000 < d.count.toNat → exec (.dmaXfer chan d) s = .refused (.countTooLarge chan)) ∧
    (d.wellFormed = true → ∀ x, exec (.dmaXfer chan d) s ≠ .refused x)

/-- R133, R113, R154: with an unmapped source or destination region the transfer completes without a fault (code 0, R59
under decision D25), reports `E_DMA_INVALID` of its channel (decision D30), moves nothing, charges nothing and clears
neither enable, `repeat` set or not. That `desc` afterwards holds the descriptor presented is assumption log 9 (DESIGN
CHOICE), and that the response is otherwise blank is assumption log 13 (DESIGN CHOICE). -/
def Obligations.InvalidDmaIsReportedAndSkipped : Prop :=
  ∀ (s : State) (chan : BitVec 2) (d : Descriptor), d.wellFormed = true →
    ((∀ r : Fin 16, regionOf d.src = r → s.slot r = .unmapped) ∨
     (∀ r : Fin 16, regionOf d.dst = r → s.slot r = .unmapped)) →
    exec (.dmaXfer chan d) s =
      .next { s with desc := d, resp := { Response.blank with events := [.dmaInvalid chan] } } ∧
    faultField (exec (.dmaXfer chan d) s) = some 0

/-- R110, R112, R114 to R116: with both regions mapped and a legal count, the transfer completes exactly when every copy
of its closed-form schedule is in range, and then the slots, the events and the oracle draws are those the copies leave
one after another; otherwise it faults with `F_OFFSET` of its channel (the spec's own choice, decisions D5, D17), never
with `F_REGION`. The oracle draws are counted in the model's own field (assumption log 5, DESIGN CHOICE); for the range
of the I/O slot see assumption log 10 (DEDUCED). That offsets are never masked again is decision D17, and that a view
reads and writes 4 bytes at any offset decision D6 (assumption log 20, DEDUCED). -/
def Obligations.DmaPerformsItsSchedule : Prop :=
  ∀ (s : State) (chan : BitVec 2) (d : Descriptor) (S D : Fin 16), d.wellFormed = true →
    regionOf d.src = S → s.slot S ≠ .unmapped → regionOf d.dst = D → s.slot D ≠ .unmapped →
    ((∀ c ∈ dmaSchedule d, c.fits (s.slot S).size (s.slot D).size) →
      ∃ t, exec (.dmaXfer chan d) s = .next t ∧
        t.slots = (s.begin.afterCopies S D (dmaSchedule d)).slots ∧
        t.resp.events = (s.begin.afterCopies S D (dmaSchedule d)).resp.events ∧
        t.ioDraws = (s.begin.afterCopies S D (dmaSchedule d)).ioDraws) ∧
    ((¬ ∀ c ∈ dmaSchedule d, c.fits (s.slot S).size (s.slot D).size) →
      ∃ side, exec (.dmaXfer chan d) s = .fault (.fOffsetDma chan side))

/-- R114, R130, R136: a transfer that meets an out-of-range copy faults with its channel and the side of the first copy
of its schedule that does not fit, an earlier copy before a later one and in one copy the source side before the
destination side. And what the first copy is: it begins at the two offsets presented and has 2 bytes for a 16-bit
transfer that begins with a single element or consists of one, and otherwise 4. The order and the fault are the spec's
own choice (decisions D34, D17); for the I/O slot see assumption log 10 (DEDUCED). -/
def Obligations.DmaChecksTheSourceSideFirst : Prop :=
  ∀ (s : State) (chan : BitVec 2) (d : Descriptor) (S D : Fin 16), d.wellFormed = true →
    regionOf d.src = S → s.slot S ≠ .unmapped → regionOf d.dst = D → s.slot D ≠ .unmapped →
    (∀ (before : List DmaStep) (c : DmaStep) (after : List DmaStep), dmaSchedule d = before ++ c :: after →
      (∀ x ∈ before, x.fits (s.slot S).size (s.slot D).size) →
      (c.src < 0 ∨ (s.slot S).size < c.src + c.n.bytes → exec (.dmaXfer chan d) s = .fault (.fOffsetDma chan .source)) ∧
      (0 ≤ c.src → c.src + c.n.bytes ≤ (s.slot S).size → c.dst < 0 ∨ (s.slot D).size < c.dst + c.n.bytes →
        exec (.dmaXfer chan d) s = .fault (.fOffsetDma chan .destination))) ∧
    let n := if d.w32 = false ∧ (offsetOf d.src / 2 % 2 = 1 ∨ d.count.toNat = 1) then 2 else 4
    ((s.slot S).size < offsetOf d.src + n → exec (.dmaXfer chan d) s = .fault (.fOffsetDma chan .source)) ∧
    (offsetOf d.src + n ≤ (s.slot S).size → (s.slot D).size < offsetOf d.dst + n →
      exec (.dmaXfer chan d) s = .fault (.fOffsetDma chan .destination))

/-- R115 (source property S6): a 32-bit increment/increment transfer of `count` words from a slot with bytes to a
read-write block, both sides in range and not overlapping, completes; the `4 * count` destination bytes are the source
bytes in order, and every other byte of the destination and every other slot is as before. That a view reads and writes
4 bytes at any offset is the spec's decision D6 (assumption log 20, DEDUCED). -/
def Obligations.WordDmaMovesTheBlock : Prop :=
  ∀ (s : State) (chan : BitVec 2) (d : Descriptor) (S D : Fin 16) (size : Nat) (m : Memory), s.Canonical →
    d.wellFormed = true → d.w32 = true → d.srcCtl = .increment → d.dstCtl = .increment →
    regionOf d.src = S → (s.slot S).hasBytes = true → regionOf d.dst = D → s.slot D = .rw size m →
    offsetOf d.src + 4 * d.count.toNat ≤ (s.slot S).size → offsetOf d.dst + 4 * d.count.toNat ≤ size →
    (S ≠ D ∨ offsetOf d.src + 4 * d.count.toNat ≤ offsetOf d.dst ∨
      offsetOf d.dst + 4 * d.count.toNat ≤ offsetOf d.src) →
    ∃ t, exec (.dmaXfer chan d) s = .next t ∧
      (∀ o, t.byteIn D o =
        if offsetOf d.dst ≤ o ∧ o < offsetOf d.dst + 4 * d.count.toNat
        then s.byteIn S (offsetOf d.src + (o - offsetOf d.dst)) else s.byteIn D o) ∧
      (∀ q, q ≠ D → t.slot q = s.slot q)

/-- R116 (source property S7): a 16-bit increment/increment transfer of `count` halfwords, pairs and single elements and
all, moves the bytes an element-by-element copy would move, `2 * count` of them, and no others. That a view reads and
writes 4 bytes at any offset is the spec's decision D6 (assumption log 20, DEDUCED). -/
def Obligations.HalfwordDmaMovesTheBlock : Prop :=
  ∀ (s : State) (chan : BitVec 2) (d : Descriptor) (S D : Fin 16) (size : Nat) (m : Memory), s.Canonical →
    d.wellFormed = true → d.w32 = false → d.srcCtl = .increment → d.dstCtl = .increment →
    regionOf d.src = S → (s.slot S).hasBytes = true → regionOf d.dst = D → s.slot D = .rw size m →
    offsetOf d.src + 2 * d.count.toNat ≤ (s.slot S).size → offsetOf d.dst + 2 * d.count.toNat ≤ size →
    (S ≠ D ∨ offsetOf d.src + 2 * d.count.toNat ≤ offsetOf d.dst ∨
      offsetOf d.dst + 2 * d.count.toNat ≤ offsetOf d.src) →
    ∃ t, exec (.dmaXfer chan d) s = .next t ∧
      (∀ o, t.byteIn D o =
        if offsetOf d.dst ≤ o ∧ o < offsetOf d.dst + 2 * d.count.toNat
        then s.byteIn S (offsetOf d.src + (o - offsetOf d.dst)) else s.byteIn D o) ∧
      (∀ q, q ≠ D → t.slot q = s.slot q)

/-- R116, R153: "A pair is one `Copy` of 4 bytes at `so` and `do`, whatever the modes": a 16-bit transfer of two
elements from a source offset with bit 1 clear completes in all nine mode combinations and moves the four bytes from the
source offset to the four from the destination offset, and no others. That a view reads and writes 4 bytes at any offset
is the spec's decision D6 (assumption log 20, DEDUCED). -/
def Obligations.HalfwordPairMovesFourBytes : Prop :=
  ∀ (s : State) (chan : BitVec 2) (d : Descriptor) (S D : Fin 16) (size : Nat) (m : Memory), s.Canonical →
    d.count.toNat = 2 → d.w32 = false → offsetOf d.src / 2 % 2 = 0 →
    regionOf d.src = S → (s.slot S).hasBytes = true → regionOf d.dst = D → s.slot D = .rw size m →
    offsetOf d.src + 4 ≤ (s.slot S).size → offsetOf d.dst + 4 ≤ size →
    ∃ t, exec (.dmaXfer chan d) s = .next t ∧
      (∀ o, t.byteIn D o =
        if offsetOf d.dst ≤ o ∧ o < offsetOf d.dst + 4
        then s.byteIn S (offsetOf d.src + (o - offsetOf d.dst)) else s.byteIn D o) ∧
      (∀ q, q ≠ D → t.slot q = s.slot q)

/-- R117: a transfer that completes with both regions mapped charges once the closed-form cost of its descriptor's count
and the table entries in force, whatever copies it performed; `cycAdd` is that cost. The bound 4063234 is R107(f), which
rests on the spec's decisions D15 for the largest count and D19 for the 5-bit entries (assumption logs 12 and 20). The
counter as an unbounded natural number is the spec's decision D18. -/
def Obligations.DmaChargesTheClosedFormCost : Prop :=
  ∀ (s t : State) (chan : BitVec 2) (d : Descriptor) (S D : Fin 16), exec (.dmaXfer chan d) s = .next t →
    regionOf d.src = S → s.slot S ≠ .unmapped → regionOf d.dst = D → s.slot D ≠ .unmapped →
    let T := s.timing
    let cost :=
      if d.w32 then T.entry .n32 S + T.entry .n32 D + (d.count.toNat - 1) * (T.entry .s32 S + T.entry .s32 D) + 2
      else T.entry .n16 S + T.entry .n16 D + (d.count.toNat - 1) * (T.entry .s16 S + T.entry .s16 D) + 2
    t.cycles = s.cycles + cost ∧ t.resp.cycAdd = cost ∧ cost ≤ 4063234

/-- R118, R119, R120, R156: on completion with both regions mapped: with `repeat` unset, the descriptor's `enable` is
cleared and the channel's control register keeps exactly bits 14 to 5; with `repeat` set, both keep their values; no
other descriptor field and no other channel's register ever changes, and the completion reports no event. The kept bits
are those of the literal 0x7FE0 (90_conflicts.md C3, assumption log 19, DEDUCED); that no other field is written back is
the spec's decision D13, and the direct register write its decision D35; the field `desc` that holds the descriptor is
assumption log 9 (DESIGN CHOICE). -/
def Obligations.DmaCompletionClearsTheEnables : Prop :=
  ∀ (s t : State) (chan : BitVec 2) (d : Descriptor) (S D : Fin 16), exec (.dmaXfer chan d) s = .next t →
    regionOf d.src = S → s.slot S ≠ .unmapped → regionOf d.dst = D → s.slot D ≠ .unmapped →
    (d.rep = false → t.desc = { d with enable := false } ∧ t.dmacntOf chan = s.dmacntOf chan &&& 0x7FE0 ∧
      ∀ i, (t.dmacntOf chan).getLsbD i = (decide (5 ≤ i ∧ i ≤ 14) && (s.dmacntOf chan).getLsbD i)) ∧
    (d.rep = true → t.desc = d ∧ t.dmacntOf chan = s.dmacntOf chan) ∧
    (∀ c, c ≠ chan → t.dmacntOf c = s.dmacntOf c) ∧
    (s.slot D ≠ .io → t.resp.events = [])

/-- R111 (decision D14, assumption log 20, DEDUCED): the engine does not read `enable`: with either value the transfer
goes the same way, to states that differ at most in the descriptor's `enable`, or stops the same way. The field `desc`
is assumption log 9 (DESIGN CHOICE). -/
def Obligations.DmaDoesNotReadEnable : Prop :=
  ∀ (s : State) (chan : BitVec 2) (d : Descriptor) (e : Bool),
    (∀ t, exec (.dmaXfer chan d) s = .next t → ∃ u, exec (.dmaXfer chan { d with enable := e }) s = .next u ∧
      u = { t with desc := { t.desc with enable := u.desc.enable } }) ∧
    (∀ f, exec (.dmaXfer chan d) s = .fault f → exec (.dmaXfer chan { d with enable := e }) s = .fault f) ∧
    (∀ x, exec (.dmaXfer chan d) s = .refused x → exec (.dmaXfer chan { d with enable := e }) s = .refused x)

/-- R114, R120, R152: the frame of a transfer. Only the destination region's slot can change, and not when it is
read-only or the I/O slot; the tables, `icache` (no page is invalidated), the buffers, the port and the other channels'
registers stay. Of what can change: the channel's register keeps its value or is masked with 0x7FE0 (assumption log 19,
DEDUCED); `desc` holds the descriptor presented, at most its `enable` cleared (decision D13, assumption log 9, DESIGN
CHOICE); the oracle count moves only for a source in the I/O slot (assumption log 5, DESIGN CHOICE); the counter and
`cycAdd` grow alike; every event is an `IoWrite` or the invalid-DMA report, and without a destination in the I/O slot
there is at most that report. The response carries no load result and no Cartridge Info (assumption log 13, DESIGN
CHOICE). That no page is invalidated is the spec's own reading (decision D12, assumption log 20, DEDUCED). -/
def Obligations.DmaFrame : Prop :=
  ∀ (s t : State) (chan : BitVec 2) (d : Descriptor), exec (.dmaXfer chan d) s = .next t →
    (∀ q : Fin 16, regionOf d.dst ≠ q → t.slot q = s.slot q) ∧
    (∀ q, (∀ size m, s.slot q ≠ .rw size m) → t.slot q = s.slot q) ∧
    t = { s with slots := t.slots, cycles := t.cycles, dmacnt := t.dmacnt, desc := t.desc, resp := t.resp,
                 ioDraws := t.ioDraws } ∧
    (∀ c, c ≠ chan → t.dmacntOf c = s.dmacntOf c) ∧ t.resp.rdata = none ∧ t.resp.info = none ∧
    (t.dmacntOf chan = s.dmacntOf chan ∨ t.dmacntOf chan = s.dmacntOf chan &&& 0x7FE0) ∧
    (t.desc = d ∨ t.desc = { d with enable := false }) ∧
    ((∀ S : Fin 16, regionOf d.src = S → s.slot S ≠ .io) → t.ioDraws = s.ioDraws) ∧
    t.cycles = s.cycles + t.resp.cycAdd ∧
    (∀ e ∈ t.resp.events, e = .dmaInvalid chan ∨ ∃ off n v, e = .ioWrite off n v) ∧
    ((∀ D : Fin 16, regionOf d.dst = D → s.slot D ≠ .io) → t.resp.events = [] ∨ t.resp.events = [.dmaInvalid chan])

/-! ### The whole machine -/

/-- R11 to R16: the slot layout is an invariant: which slot holds which kind, the fixed block sizes, the views' offsets
and sizes, the three aliases alike, the SRAM with the ROM, 0x1 and 0xF never mapped, 0x4 always the I/O block. The slot
numbers are the spec's own (decision D2, assumption log 11, PRESUMED), and so are the sizes of the views (decisions D7,
D33, D24), the I/O slot (decision D22) and the slots that `RESET` and a second `MAPROM` leave (decisions D20, D23,
assumption log 20, DEDUCED). -/
def Obligations.StepKeepsTheSlotLayout : Prop :=
  ∀ s t : State, s.Layout → step s = .next t → t.Layout

/-- The power-on state has the slot layout. That state and the slot numbers are the spec's own choice (decisions D21,
D2, D22, assumption logs 20 and 11). -/
def Obligations.PowerOnHasTheSlotLayout : Prop :=
  State.reset.Layout

/-- Every step keeps the state in its canonical form: blocks' bytes sorted, without zero entries, inside the fixed sizes
(R13); the page set without repeats (R20); the buffers. The lists and their form are the model's representation
(assumption logs 6 and 17). -/
def Obligations.StepKeepsTheStateCanonical : Prop :=
  ∀ s t : State, s.Canonical → step s = .next t → t.Canonical

/-- The power-on state is canonical. The lists and their form are the model's representation (assumption logs 6 and 17).
-/
def Obligations.PowerOnIsCanonical : Prop :=
  State.reset.Canonical

/-- R14, R26, R36, R70, R134: no operation writes a buffer, and none but the two mapping operations changes a read-only
slot: every byte a read-only view shows reads as before. That `RESET` leaves the slots of the views as they are is the
spec's decision D20 (R70, R27; assumption log 20, DEDUCED). -/
def Obligations.ReadOnlyBytesAreNeverWritten : Prop :=
  ∀ (i : Instr) (s t : State), exec i s = .next t →
    t.buffers = s.buffers ∧
    match i with
    | .mapBios _ | .mapRom _ _ => True
    | .reset => ∀ r ∈ [(0x0 : Fin 16), 0x8, 0x9, 0xA, 0xB, 0xC, 0xD], t.slot r = s.slot r
    | _ => ∀ r b k n, s.slot r = .ro b k n → t.slot r = s.slot r ∧ ∀ o, t.byteIn r o = s.byteIn r o

/-- R130, R110, R59: which operation can fault with what, and the code its response carries: the loads and stores with
`F_REGION` (code 1) or `F_OFFSET` (code 2) and the address presented, the waits with `F_REGION` (code 1) and the address
presented, `DMAXFER` with `F_OFFSET` (code 2), its channel and a side, and no other operation at all; an operation that
goes on answers code 0. The codes are the spec's own choice (decision D25), and so are the faults (decisions D1, D5, D8,
D17, D28, assumption log 20); that a store records the address presented and not the aligned one its `MemWrite` raises
with is assumption log 23 (DEDUCED). -/
def Obligations.FaultsByOperation : Prop :=
  ∀ (i : Instr) (s : State),
    (∀ t, exec i s = .next t → faultField (exec i s) = some 0) ∧
    ∀ f, exec i s = .fault f →
      match i with
      | .load8 a | .loadU8 a | .load16 a | .loadU16 a | .load32 a | .store8 a _ | .store16 a _ | .store32 a _ =>
        (f = .fRegion a ∧ faultField (exec i s) = some 1) ∨ (f = .fOffset a ∧ faultField (exec i s) = some 2)
      | .waitN16 a | .waitS16 a | .waitN32 a | .waitS32 a => f = .fRegion a ∧ faultField (exec i s) = some 1
      | .dmaXfer chan _ => (∃ side, f = .fOffsetDma chan side) ∧ faultField (exec i s) = some 2
      | .reset | .mapBios _ | .mapRom _ _ | .adjTim _ | .icMark _ | .icQuery _ => False

/-- R144: which operation can be refused: the mapping operations exactly for an empty buffer, `DMAXFER` exactly for an
illegal count, and no other operation at all. The refusals are the spec's own choice (decisions D15, D24, assumption log
12). A handle is a place in the list of buffers, and past its end names an empty one (assumption log 6, DESIGN CHOICE).
-/
def Obligations.RefusalsByOperation : Prop :=
  ∀ (i : Instr) (s : State),
    (∃ x, exec i s = .refused x) ↔
      match i with
      | .mapBios b | .mapRom b _ => (s.buffer b).len = 0
      | .dmaXfer _ d => d.wellFormed = false
      | _ => False

/-- R20: `icache` is changed only by `RESET`, which empties it, by the three stores, which remove pages, and by
`ICMARK`, which adds its page. `ICMARK` is the spec's decision D11, and that a `DMAXFER` removes no page its decision
D12 (assumption log 20, DEDUCED). -/
def Obligations.PageArrayWriters : Prop :=
  ∀ (i : Instr) (s t : State), exec i s = .next t →
    match i with
    | .reset => t.icache = []
    | .store8 _ _ | .store16 _ _ | .store32 _ _ => ∀ p, t.icache.has p = true → s.icache.has p = true
    | .icMark page => ∀ p, t.icache.has p = true ↔ p = page.toNat ∨ s.icache.has p = true
    | _ => t.icache = s.icache

/-- R143, R146, R25, R37: the DMA control registers are written by `DMAXFER` alone, and so is the descriptor; and only a
load or a `DMAXFER` asks the I/O block for a value. The field `desc` is assumption log 9, the oracle count `ioDraws`
assumption log 5, and that a store to the I/O slot changes no control register assumption log 15 (all DESIGN CHOICE). -/
def Obligations.DmaRegisterWriters : Prop :=
  ∀ (i : Instr) (s t : State), exec i s = .next t →
    match i with
    | .dmaXfer _ _ => True
    | .load8 _ | .loadU8 _ | .load16 _ | .loadU16 _ | .load32 _ => t.dmacnt = s.dmacnt ∧ t.desc = s.desc
    | _ => t.dmacnt = s.dmacnt ∧ t.desc = s.desc ∧ t.ioDraws = s.ioDraws

/-- R59: what the response carries: a load result exactly for the loads and `ICQUERY`, the Cartridge Info exactly for
`MAPROM`, events only for the stores and `DMAXFER`. That `rdata` and `info` are absent where R59 defines no value is
assumption log 13 (DESIGN CHOICE). An operation never touches the commands still on the port: R45, under assumption log
1 (DESIGN CHOICE). The response port itself is the spec's decision D25, `ICQUERY` its decision D11. -/
def Obligations.ResponseFieldsByOperation : Prop :=
  ∀ (i : Instr) (s t : State), exec i s = .next t →
    t.port = s.port ∧
    (t.resp.rdata.isSome = true ↔
      match i with
      | .load8 _ | .loadU8 _ | .load16 _ | .loadU16 _ | .load32 _ | .icQuery _ => True
      | _ => False) ∧
    (t.resp.info.isSome = true ↔
      match i with
      | .mapRom _ _ => True
      | _ => False) ∧
    (t.resp.events ≠ [] →
      match i with
      | .store8 _ _ | .store16 _ _ | .store32 _ _ | .dmaXfer _ _ => True
      | _ => False)

/-! ### Rules about several operations -/

/-- R41: a load from a slot with bytes has no side effect and is idempotent: issued again it goes to the same state with
the same answer; no load touches the slots, `icache`, the tables or the counter; every store that completes, whatever
the slot's variant, removes one page (`STORE8`, `STORE16`) or two (`STORE32`), as R86 to R88 name them. -/
def Obligations.LoadsAreIdempotentAndStoresRemoveTheirPages : Prop :=
  (∀ (s t : State) (addr : Word),
    ∀ i ∈ [Instr.load8 addr, Instr.loadU8 addr, Instr.load16 addr, Instr.loadU16 addr, Instr.load32 addr],
    exec i s = .next t →
      t.slots = s.slots ∧ t.icache = s.icache ∧ t.timing = s.timing ∧ t.cycles = s.cycles ∧
      (∀ r : Fin 16, regionOf addr = r → (s.slot r).hasBytes = true →
        t = { s with resp := t.resp } ∧ exec i t = .next t)) ∧
  (∀ (s t : State) (addr wdata : Word),
    (∀ i ∈ [Instr.store8 addr wdata, Instr.store16 addr wdata], exec i s = .next t →
      ∀ p, t.icache.has p = (s.icache.has p && decide (p ≠ addr.toNat / 512))) ∧
    (exec (.store32 addr wdata) s = .next t →
      ∀ p, t.icache.has p =
        (s.icache.has p && decide (p ≠ addr.toNat / 512) && decide (p ≠ addr.toNat / 512 + 1))))

/-- R134: a store to a read-only slot is silently discarded and no error, for the three stores and for a `DMAXFER` whose
destination is read-only: where its accesses are in range the operation completes, no slot and no buffer changes and
nothing is reported; a store removes its pages all the same, and the transfer charges the full cost of R117. -/
def Obligations.ReadOnlyDestinationsDiscardSilently : Prop :=
  ∀ (s : State) (R : Fin 16), (∃ b k n, s.slot R = .ro b k n) →
    (∀ (addr wdata : Word), regionOf addr = R →
      ∀ x ∈ [(Instr.store8 addr wdata, Width.b1), (Instr.store16 addr wdata, Width.b2),
        (Instr.store32 addr wdata, Width.b4)],
      offsetOf (alignDown x.2 addr) + x.2.bytes ≤ (s.slot R).size →
      ∃ t, exec x.1 s = .next t ∧ t.slots = s.slots ∧ t.buffers = s.buffers ∧ t.resp.events = [] ∧
        t.icache.has (addr.toNat / 512) = false ∧ (x.2 = .b4 → t.icache.has (addr.toNat / 512 + 1) = false)) ∧
    (∀ (chan : BitVec 2) (d : Descriptor) (S : Fin 16), d.wellFormed = true →
      regionOf d.src = S → s.slot S ≠ .unmapped → regionOf d.dst = R →
      (∀ c ∈ dmaSchedule d, c.fits (s.slot S).size (s.slot R).size) →
      let T := s.timing
      ∃ t, exec (.dmaXfer chan d) s = .next t ∧ t.slots = s.slots ∧ t.buffers = s.buffers ∧ t.resp.events = [] ∧
        t.resp.cycAdd =
          if d.w32 then T.entry .n32 S + T.entry .n32 R + (d.count.toNat - 1) * (T.entry .s32 S + T.entry .s32 R) + 2
          else T.entry .n16 S + T.entry .n16 R + (d.count.toNat - 1) * (T.entry .s16 S + T.entry .s16 R) + 2)

/-- R160: wait operations and accesses are not tied together: a load or a store costs nothing by itself; each of the
four waits charges for every region, mapped or not, and two states with the same tables are charged alike, whatever
their slots hold and whatever was accessed before. -/
def Obligations.WaitsAndAccessesAreSeparate : Prop :=
  (∀ (s t : State) (addr wdata : Word),
    ∀ i ∈ [Instr.load8 addr, Instr.loadU8 addr, Instr.load16 addr, Instr.loadU16 addr, Instr.load32 addr,
      Instr.store8 addr wdata, Instr.store16 addr wdata, Instr.store32 addr wdata],
    exec i s = .next t → t.cycles = s.cycles ∧ t.resp.cycAdd = 0) ∧
  (∀ (s u : State) (addr : Word) (r : Fin 16), regionOf addr = r → s.timing = u.timing →
    ∀ x ∈ [(Instr.waitN16 addr, TableKind.n16), (Instr.waitS16 addr, TableKind.s16),
      (Instr.waitN32 addr, TableKind.n32), (Instr.waitS32 addr, TableKind.s32)],
    ∃ t w, exec x.1 s = .next t ∧ exec x.1 u = .next w ∧ t.resp.cycAdd = 1 + s.timing.entry x.2 r ∧
      w.resp.cycAdd = t.resp.cycAdd)

/-- R47: `MemWrite` of an address the calling rule has aligned: an unmapped region is `F_REGION` of that address; otherwise
it is `ViewWrite` at the address's offset, and an offset out of range is `F_OFFSET` of that address; `icache` is not
touched. Aligning an address never changes its region, and masks its offset alike. -/
def Obligations.MemWriteChecksThenWrites : Prop :=
  ∀ (s : State) (addr v : Word) (n : Width),
    ((∀ r : Fin 16, regionOf addr = r → s.slot r = .unmapped) → s.memWrite addr n v = .error (.fRegion addr)) ∧
    (∀ r : Fin 16, regionOf addr = r → s.slot r ≠ .unmapped →
      (s.viewWrite r (offsetOf addr) n v = none → s.memWrite addr n v = .error (.fOffset addr)) ∧
      (∀ t, s.viewWrite r (offsetOf addr) n v = some t → s.memWrite addr n v = .ok t)) ∧
    (∀ t, s.memWrite addr n v = .ok t → t.icache = s.icache) ∧
    regionOf (alignDown n addr) = regionOf addr ∧
    offsetOf (alignDown n addr) = offsetOf addr - offsetOf addr % n.bytes
end

