-- ==== Sys2Proof/Laws/Memory.lean ====
section
/-! SUPPORT. The laws of byte memory, of little-endian values and of the page set. -/

namespace Sys2Proof.Machine

/-- A canonical memory above a bound is canonical above every lower bound. -/
theorem Memory.wfAbove_mono {m : Memory} {lo hi : Option Nat} (h : Memory.wfAbove hi m = true)
    (hle : ∀ l, lo = some l → ∃ u, hi = some u ∧ l ≤ u) : Memory.wfAbove lo m = true := by
  cases m with
  | nil => rfl
  | cons c rest =>
    obtain ⟨k, b⟩ := c
    simp only [Memory.wfAbove, Bool.and_eq_true] at h ⊢
    refine ⟨⟨?_, h.1.2⟩, h.2⟩
    cases lo with
    | none => rfl
    | some l =>
      obtain ⟨u, rfl, hlu⟩ := hle l rfl
      have := h.1.1
      simp only [decide_eq_true_eq] at this ⊢
      omega

/-- Below its bound a canonical memory lists nothing. -/
theorem Memory.read_of_wfAbove {m : Memory} {l a : Nat} (h : Memory.wfAbove (some l) m = true) (ha : a ≤ l) :
    m.read a = Memory.unlisted := by
  induction m generalizing l with
  | nil => rfl
  | cons c rest ih =>
    obtain ⟨k, b⟩ := c
    simp only [Memory.wfAbove, Bool.and_eq_true, decide_eq_true_eq] at h
    have : k ≠ a := by omega
    simp only [Memory.read, this, if_false]
    exact ih h.2 (by omega)

/-- A write keeps the canonical form, above any bound below the address written. -/
theorem Memory.wfAbove_write {m : Memory} {lo : Option Nat} (h : Memory.wfAbove lo m = true) (a : Nat) (b : Byte)
    (hlo : ∀ l, lo = some l → l < a) : Memory.wfAbove lo (m.write a b) = true := by
  induction m generalizing lo with
  | nil =>
    by_cases hb : b = Memory.unlisted
    · simp [Memory.write, hb, Memory.wfAbove]
    · cases lo with
      | none => simp [Memory.write, hb, Memory.wfAbove]
      | some l => simp [Memory.write, hb, Memory.wfAbove, hlo l rfl]
  | cons c rest ih =>
    obtain ⟨k, x⟩ := c
    have h' := h
    simp only [Memory.wfAbove, Bool.and_eq_true, decide_eq_true_eq] at h
    obtain ⟨⟨hk, hx⟩, hrest⟩ := h
    by_cases hb : b = Memory.unlisted <;> rcases Nat.lt_trichotomy a k with hak | hak | hak
    · simpa [Memory.write, hak, hb] using h'
    · subst hak
      simp only [Memory.write, Nat.lt_irrefl, if_false, if_true, hb]
      exact Memory.wfAbove_mono hrest (fun l hl => ⟨a, rfl, Nat.le_of_lt (hlo l hl)⟩)
    · have h1 : ¬ a < k := by omega
      have h2 : a ≠ k := by omega
      simp only [Memory.write, h1, h2, if_false, Memory.wfAbove, Bool.and_eq_true, decide_eq_true_eq]
      exact ⟨⟨hk, hx⟩, ih hrest (fun l hl => by cases hl; omega)⟩
    · rw [Memory.write, if_pos hak, if_neg hb]
      simp only [Memory.wfAbove, Bool.and_eq_true, decide_eq_true_eq]
      refine ⟨⟨?_, hb⟩, ⟨hak, hx⟩, hrest⟩
      cases lo with
      | none => rfl
      | some l => simp [hlo l rfl]
    · subst hak
      simp only [Memory.write, Nat.lt_irrefl, if_false, if_true, hb, Memory.wfAbove, Bool.and_eq_true,
        decide_eq_true_eq]
      exact ⟨⟨hk, hb⟩, hrest⟩
    · have h1 : ¬ a < k := by omega
      have h2 : a ≠ k := by omega
      simp only [Memory.write, h1, h2, if_false, Memory.wfAbove, Bool.and_eq_true, decide_eq_true_eq]
      exact ⟨⟨hk, hx⟩, ih hrest (fun l hl => by cases hl; omega)⟩

/-- A write keeps the canonical form. -/
theorem Memory.write_wf {m : Memory} (h : m.wf = true) (a : Nat) (b : Byte) : (m.write a b).wf = true :=
  Memory.wfAbove_write h a b (fun _ hl => by cases hl)

/-- Read after write, in a memory canonical above any bound. -/
theorem Memory.read_write_above {m : Memory} {lo : Option Nat} (h : Memory.wfAbove lo m = true) (a : Nat) (b : Byte)
    (x : Nat) : (m.write a b).read x = if x = a then b else m.read x := by
  induction m generalizing lo with
  | nil =>
    by_cases hb : b = Memory.unlisted
    · by_cases hx : x = a <;> simp [Memory.write, Memory.read, hb, hx]
    · by_cases hx : x = a
      · simp [Memory.write, Memory.read, hb, hx]
      · have : ¬ a = x := fun e => hx e.symm
        simp [Memory.write, Memory.read, hb, hx, this]
  | cons c rest ih =>
    obtain ⟨k, y⟩ := c
    simp only [Memory.wfAbove, Bool.and_eq_true, decide_eq_true_eq] at h
    obtain ⟨⟨hk, hy⟩, hrest⟩ := h
    rcases Nat.lt_trichotomy a k with hak | hak | hak
    · have hlow : ∀ z, z ≤ a → Memory.read ((k, y) :: rest) z = Memory.unlisted := fun z hz => by
        have h1 : k ≠ z := by omega
        simp only [Memory.read, h1, if_false]
        exact Memory.read_of_wfAbove hrest (by omega)
      by_cases hb : b = Memory.unlisted
      · by_cases hx : x = a
        · simp only [Memory.write, hak, hb, if_true, hx, hlow a (Nat.le_refl a)]
        · simp only [Memory.write, hak, hb, if_true, hx, if_false]
      · by_cases hx : x = a
        · simp [Memory.write, Memory.read, hak, hb, hx]
        · have : ¬ a = x := fun e => hx e.symm
          simp [Memory.write, hak, hb, Memory.read, hx, this]
    · subst hak
      by_cases hb : b = Memory.unlisted
      · by_cases hx : x = a
        · simp only [Memory.write, Nat.lt_irrefl, if_false, if_true, hb, hx]
          exact Memory.read_of_wfAbove hrest (Nat.le_refl a)
        · have : ¬ a = x := fun e => hx e.symm
          simp [Memory.write, hb, Memory.read, hx, this]
      · by_cases hx : x = a
        · simp [Memory.write, Memory.read, hb, hx]
        · have : ¬ a = x := fun e => hx e.symm
          simp [Memory.write, hb, Memory.read, hx, this]
    · have h1 : ¬ a < k := by omega
      have h2 : a ≠ k := by omega
      simp only [Memory.write, h1, h2, if_false, Memory.read, ih hrest]
      by_cases hkx : k = x
      · have : x ≠ a := by omega
        simp [hkx, this]
      · simp [hkx]

/-- Read after write: the byte written at the address, every other byte as before. -/
theorem Memory.read_write {m : Memory} (h : m.wf = true) (a : Nat) (b : Byte) (x : Nat) :
    (m.write a b).read x = if x = a then b else m.read x :=
  Memory.read_write_above h a b x

/-- A write below a bound keeps every listed address below it. -/
theorem Memory.below_write {m : Memory} {n a : Nat} (h : Memory.below n m = true) (ha : a < n) (b : Byte) :
    Memory.below n (m.write a b) = true := by
  induction m with
  | nil =>
    by_cases hb : b = Memory.unlisted <;> simp [Memory.write, Memory.below, hb, ha]
  | cons c rest ih =>
    obtain ⟨k, y⟩ := c
    have h' : Memory.below n ((k, y) :: rest) = true := h
    simp only [Memory.below, List.all_cons, Bool.and_eq_true, decide_eq_true_eq] at h
    have hr : Memory.below n rest = true := h.2
    by_cases hb : b = Memory.unlisted <;> rcases Nat.lt_trichotomy a k with hak | hak | hak
    · simpa [Memory.write, hak, hb] using h'
    · subst hak; simpa [Memory.write, hb] using hr
    · have h1 : ¬ a < k := by omega
      have h2 : a ≠ k := by omega
      simp only [Memory.write, h1, h2, if_false, Memory.below, List.all_cons, Bool.and_eq_true, decide_eq_true_eq]
      exact ⟨h.1, ih hr⟩
    · simp only [Memory.write, hak, hb, if_true, if_false, Memory.below, List.all_cons, Bool.and_eq_true,
        decide_eq_true_eq]
      exact ⟨ha, h.1, hr⟩
    · subst hak
      simp only [Memory.write, hb, Nat.lt_irrefl, if_true, if_false, Memory.below, List.all_cons, Bool.and_eq_true,
        decide_eq_true_eq]
      exact ⟨h.1, hr⟩
    · have h1 : ¬ a < k := by omega
      have h2 : a ≠ k := by omega
      simp only [Memory.write, h1, h2, if_false, Memory.below, List.all_cons, Bool.and_eq_true, decide_eq_true_eq]
      exact ⟨h.1, ih hr⟩

/-- A run of writes keeps the canonical form. -/
theorem Memory.writeBytes_wf {m : Memory} (h : m.wf = true) (a : Nat) (bs : List Byte) :
    (m.writeBytes a bs).wf = true := by
  induction bs generalizing m a with
  | nil => exact h
  | cons b bs ih => exact ih (Memory.write_wf h a b) (a + 1)

/-- A run of writes inside a bound keeps every listed address below it. -/
theorem Memory.below_writeBytes {m : Memory} {n : Nat} (h : Memory.below n m = true) (a : Nat) (bs : List Byte)
    (ha : a + bs.length ≤ n) : Memory.below n (m.writeBytes a bs) = true := by
  induction bs generalizing m a with
  | nil => exact h
  | cons b bs ih =>
    simp only [List.length_cons] at ha
    exact ih (Memory.below_write h (by omega) b) (a + 1) (by omega)

/-- What a byte reads after a run of writes: byte `x - a` of the run inside it, the old byte outside it. -/
theorem Memory.read_writeBytes {m : Memory} (h : m.wf = true) (a : Nat) (bs : List Byte) (x : Nat) :
    (m.writeBytes a bs).read x = if a ≤ x ∧ x < a + bs.length then bs.getD (x - a) 0 else m.read x := by
  induction bs generalizing m a with
  | nil =>
    have : ¬ (a ≤ x ∧ x < a + ([] : List Byte).length) := by simp
    rw [if_neg this]; rfl
  | cons b bs ih =>
    rw [Memory.writeBytes, ih (Memory.write_wf h a b), Memory.read_write h]
    rcases Nat.lt_trichotomy x a with hx | hx | hx
    · have h1 : ¬ (a + 1 ≤ x ∧ x < a + 1 + bs.length) := by omega
      have h2 : ¬ (a ≤ x ∧ x < a + (b :: bs).length) := by omega
      have h3 : x ≠ a := by omega
      simp only [h1, h2, h3, if_false]
    · subst hx
      have h1 : ¬ (x + 1 ≤ x ∧ x < x + 1 + bs.length) := by omega
      have h2 : x ≤ x ∧ x < x + (b :: bs).length := by simp
      rw [if_neg h1, if_pos h2]; simp
    · have h3 : x ≠ a := by omega
      by_cases h1 : x < a + 1 + bs.length
      · have h2 : a ≤ x ∧ x < a + (b :: bs).length := by simp only [List.length_cons]; omega
        rw [if_pos ⟨hx, h1⟩, if_pos h2]
        obtain ⟨k, rfl⟩ : ∃ k, x = a + 1 + k := ⟨x - (a + 1), by omega⟩
        have e1 : a + 1 + k - (a + 1) = k := by omega
        have e2 : a + 1 + k - a = k + 1 := by omega
        rw [e1, e2, List.getD_cons_succ]
      · have h2 : ¬ (a ≤ x ∧ x < a + (b :: bs).length) := by simp only [List.length_cons]; omega
        have h1' : ¬ (a + 1 ≤ x ∧ x < a + 1 + bs.length) := by omega
        simp only [h1', h2, h3, if_false]

@[simp] theorem Memory.readBytes_length (m : Memory) (a n : Nat) : (m.readBytes a n).length = n := by
  induction n generalizing a with
  | zero => rfl
  | succ n ih => simp [Memory.readBytes, ih]

/-- Byte `i` of a run read from `a` is the byte at `a + i`. -/
theorem Memory.readBytes_getD (m : Memory) (a n i : Nat) (hi : i < n) : (m.readBytes a n).getD i 0 = m.read (a + i) := by
  induction n generalizing a i with
  | zero => omega
  | succ n ih =>
    cases i with
    | zero => rfl
    | succ i =>
      rw [Memory.readBytes, List.getD_cons_succ, ih (a + 1) i (by omega)]
      congr 1; omega

/-- Two memories that agree on a run of bytes give the same run. -/
theorem Memory.readBytes_congr {m k : Memory} {a b n : Nat} (h : ∀ i, i < n → m.read (a + i) = k.read (b + i)) :
    m.readBytes a n = k.readBytes b n := by
  induction n generalizing a b with
  | zero => rfl
  | succ n ih =>
    have h0 := h 0 (by omega)
    have hs : ∀ i, i < n → m.read (a + 1 + i) = k.read (b + 1 + i) := fun i hi => by
      have := h (i + 1) (by omega)
      rwa [show a + (i + 1) = a + 1 + i by omega, show b + (i + 1) = b + 1 + i by omega] at this
    simp only [Nat.add_zero] at h0
    rw [Memory.readBytes, Memory.readBytes, h0, ih hs]

@[simp] theorem bytesOfValue_length (n v : Nat) : (bytesOfValue n v).length = n := by
  induction n generalizing v with
  | zero => rfl
  | succ n ih => simp [bytesOfValue, ih]

theorem valueOfBytes_lt (bs : List Byte) : valueOfBytes bs < 256 ^ bs.length := by
  induction bs with
  | nil => simp [valueOfBytes]
  | cons b bs ih =>
    have hb : b.toNat < 256 := b.isLt
    simp only [valueOfBytes, List.length_cons, Nat.pow_succ]
    omega

/-- The little-endian value of the bytes of a value is the value truncated to them. -/
theorem valueOfBytes_bytesOfValue (n v : Nat) : valueOfBytes (bytesOfValue n v) = v % 256 ^ n := by
  induction n generalizing v with
  | zero => simp [bytesOfValue, valueOfBytes, Nat.mod_one]
  | succ n ih =>
    have hm : v % 256 ^ (n + 1) = v % 256 + 256 * (v / 256 % 256 ^ n) := by
      rw [Nat.pow_succ, Nat.mul_comm (256 ^ n) 256, Nat.mod_mul]
    have hb : (BitVec.ofNat 8 v).toNat = v % 256 := by simp
    simp only [bytesOfValue, valueOfBytes, ih, hb, hm]

/-- The bytes of the little-endian value of some bytes are those bytes. -/
theorem bytesOfValue_valueOfBytes (bs : List Byte) : bytesOfValue bs.length (valueOfBytes bs) = bs := by
  induction bs with
  | nil => rfl
  | cons b bs ih =>
    have hb : b.toNat < 256 := b.isLt
    have h1 : (b.toNat + 256 * valueOfBytes bs) / 256 = valueOfBytes bs := by omega
    have h2 : BitVec.ofNat 8 (b.toNat + 256 * valueOfBytes bs) = b := by
      apply BitVec.eq_of_toNat_eq; simp only [BitVec.toNat_ofNat]; omega
    simp only [List.length_cons, bytesOfValue, valueOfBytes, h1, h2, ih]

/-- Truncating a value to at least `n` bytes does not change its low `n` bytes. -/
theorem bytesOfValue_mod {n v k : Nat} (h : n ≤ k) : bytesOfValue n (v % 256 ^ k) = bytesOfValue n v := by
  induction n generalizing v k with
  | zero => rfl
  | succ n ih =>
    obtain ⟨k, rfl⟩ : ∃ j, k = j + 1 := ⟨k - 1, by omega⟩
    have hm : v % 256 ^ (k + 1) = v % 256 + 256 * (v / 256 % 256 ^ k) := by
      rw [Nat.pow_succ, Nat.mul_comm (256 ^ k) 256, Nat.mod_mul]
    have h1 : v % 256 ^ (k + 1) / 256 = v / 256 % 256 ^ k := by omega
    have h2 : BitVec.ofNat 8 (v % 256 ^ (k + 1)) = BitVec.ofNat 8 v := by
      apply BitVec.eq_of_toNat_eq; simp only [BitVec.toNat_ofNat]; omega
    simp only [bytesOfValue, h1, h2, ih (v := v / 256) (k := k) (by omega)]

/-- Byte `i` of a value is `v[8i+7:8i]` (20_memory.md R33). -/
theorem bytesOfValue_getD {n i : Nat} (v : Nat) (hi : i < n) :
    (bytesOfValue n v).getD i 0 = BitVec.ofNat 8 (v / 256 ^ i) := by
  induction n generalizing v i with
  | zero => omega
  | succ n ih =>
    cases i with
    | zero => simp [bytesOfValue]
    | succ i =>
      rw [bytesOfValue, List.getD_cons_succ, ih (v / 256) (by omega), Nat.div_div_eq_div_mul, Nat.pow_succ,
        Nat.mul_comm]

/-- Insertion adds exactly one page. -/
@[simp] theorem PageSet.has_insert (s : PageSet) (p q : Nat) :
    (s.insert p).has q = (decide (p = q) || s.has q) := by
  induction s with
  | nil => simp [PageSet.insert, PageSet.has]
  | cons r rest ih =>
    rcases Nat.lt_trichotomy p r with h | h | h
    · simp [PageSet.insert, PageSet.has, h]
    · subst h; simp [PageSet.insert, PageSet.has]
    · have h1 : ¬ p < r := by omega
      have h2 : p ≠ r := by omega
      simp only [PageSet.insert, h1, h2, if_false, PageSet.has, ih]
      rw [← Bool.or_assoc, ← Bool.or_assoc, Bool.or_comm (decide (r = q))]

/-- Removal removes exactly one page. -/
@[simp] theorem PageSet.has_remove (s : PageSet) (p q : Nat) :
    (s.remove p).has q = (s.has q && !decide (q = p)) := by
  induction s with
  | nil => simp [PageSet.remove, PageSet.has]
  | cons r rest ih =>
    by_cases h : r = p
    · subst h
      by_cases hq : q = r
      · subst hq; simp [PageSet.remove, ih]
      · have : ¬ r = q := fun e => hq e.symm
        simp [PageSet.remove, PageSet.has, ih, hq, this]
    · by_cases hr : r = q
      · subst hr; simp [PageSet.remove, PageSet.has, h]
      · simp [PageSet.remove, PageSet.has, h, ih, hr]

theorem PageSet.wfAbove_mono {s : PageSet} {lo hi : Option Nat} (h : PageSet.wfAbove hi s = true)
    (hle : ∀ l, lo = some l → ∃ u, hi = some u ∧ l ≤ u) : PageSet.wfAbove lo s = true := by
  cases s with
  | nil => rfl
  | cons q rest =>
    simp only [PageSet.wfAbove, Bool.and_eq_true] at h ⊢
    refine ⟨?_, h.2⟩
    cases lo with
    | none => rfl
    | some l =>
      obtain ⟨u, rfl, hlu⟩ := hle l rfl
      have := h.1
      simp only [decide_eq_true_eq] at this ⊢
      omega

theorem PageSet.wfAbove_insert {s : PageSet} {lo : Option Nat} (h : PageSet.wfAbove lo s = true) (p : Nat)
    (hlo : ∀ l, lo = some l → l < p) : PageSet.wfAbove lo (s.insert p) = true := by
  induction s generalizing lo with
  | nil => cases lo with
    | none => rfl
    | some l => simp [PageSet.insert, PageSet.wfAbove, hlo l rfl]
  | cons q rest ih =>
    have h' := h
    simp only [PageSet.wfAbove, Bool.and_eq_true] at h
    rcases Nat.lt_trichotomy p q with hp | hp | hp
    · simp only [PageSet.insert, hp, if_true, PageSet.wfAbove, Bool.and_eq_true, decide_eq_true_eq]
      refine ⟨?_, trivial, h.2⟩
      cases lo with
      | none => rfl
      | some l => simp [hlo l rfl]
    · subst hp; simpa [PageSet.insert] using h'
    · have h1 : ¬ p < q := by omega
      have h2 : p ≠ q := by omega
      simp only [PageSet.insert, h1, h2, if_false, PageSet.wfAbove, Bool.and_eq_true]
      exact ⟨h.1, ih h.2 (fun l hl => by cases hl; omega)⟩

/-- Insertion keeps the canonical form. -/
theorem PageSet.insert_wf {s : PageSet} (h : s.wf = true) (p : Nat) : (s.insert p).wf = true :=
  PageSet.wfAbove_insert h p (fun _ hl => by cases hl)

theorem PageSet.wfAbove_remove {s : PageSet} {lo : Option Nat} (h : PageSet.wfAbove lo s = true) (p : Nat) :
    PageSet.wfAbove lo (s.remove p) = true := by
  induction s generalizing lo with
  | nil => rfl
  | cons q rest ih =>
    simp only [PageSet.wfAbove, Bool.and_eq_true] at h
    by_cases hq : q = p
    · rw [PageSet.remove, if_pos hq]
      refine ih (PageSet.wfAbove_mono h.2 ?_)
      intro l hl; subst hl
      exact ⟨q, rfl, Nat.le_of_lt (by simpa using h.1)⟩
    · simp only [PageSet.remove, hq, if_false, PageSet.wfAbove, Bool.and_eq_true]
      exact ⟨h.1, ih h.2⟩

/-- Removal keeps the canonical form. -/
theorem PageSet.remove_wf {s : PageSet} (h : s.wf = true) (p : Nat) : (s.remove p).wf = true :=
  PageSet.wfAbove_remove h p

end Sys2Proof.Machine
end

