-- ==== Sys2Proof/Laws/State.lean ====
section
/-! SUPPORT. One lemma per field per update of the state, true by definition, and the same for the accessors that read a
field. -/

namespace Sys2Proof.Machine

@[simp] theorem State.begin_slots (s : State) : (s.begin).slots = s.slots := rfl
@[simp] theorem State.begin_timing (s : State) : (s.begin).timing = s.timing := rfl
@[simp] theorem State.begin_icache (s : State) : (s.begin).icache = s.icache := rfl
@[simp] theorem State.begin_cycles (s : State) : (s.begin).cycles = s.cycles := rfl
@[simp] theorem State.begin_dmacnt (s : State) : (s.begin).dmacnt = s.dmacnt := rfl
@[simp] theorem State.begin_desc (s : State) : (s.begin).desc = s.desc := rfl
@[simp] theorem State.begin_buffers (s : State) : (s.begin).buffers = s.buffers := rfl
@[simp] theorem State.begin_port (s : State) : (s.begin).port = s.port := rfl
@[simp] theorem State.begin_resp (s : State) : (s.begin).resp = Response.blank := rfl
@[simp] theorem State.begin_ioDraws (s : State) : (s.begin).ioDraws = s.ioDraws := rfl

@[simp] theorem State.putRdata_slots (s : State) (v : Word) : (s.putRdata v).slots = s.slots := rfl
@[simp] theorem State.putRdata_timing (s : State) (v : Word) : (s.putRdata v).timing = s.timing := rfl
@[simp] theorem State.putRdata_icache (s : State) (v : Word) : (s.putRdata v).icache = s.icache := rfl
@[simp] theorem State.putRdata_cycles (s : State) (v : Word) : (s.putRdata v).cycles = s.cycles := rfl
@[simp] theorem State.putRdata_dmacnt (s : State) (v : Word) : (s.putRdata v).dmacnt = s.dmacnt := rfl
@[simp] theorem State.putRdata_desc (s : State) (v : Word) : (s.putRdata v).desc = s.desc := rfl
@[simp] theorem State.putRdata_buffers (s : State) (v : Word) : (s.putRdata v).buffers = s.buffers := rfl
@[simp] theorem State.putRdata_port (s : State) (v : Word) : (s.putRdata v).port = s.port := rfl
@[simp] theorem State.putRdata_resp (s : State) (v : Word) : (s.putRdata v).resp = { s.resp with rdata := some v } := rfl
@[simp] theorem State.putRdata_ioDraws (s : State) (v : Word) : (s.putRdata v).ioDraws = s.ioDraws := rfl

@[simp] theorem State.putInfo_slots (s : State) (c : CartInfo) : (s.putInfo c).slots = s.slots := rfl
@[simp] theorem State.putInfo_timing (s : State) (c : CartInfo) : (s.putInfo c).timing = s.timing := rfl
@[simp] theorem State.putInfo_icache (s : State) (c : CartInfo) : (s.putInfo c).icache = s.icache := rfl
@[simp] theorem State.putInfo_cycles (s : State) (c : CartInfo) : (s.putInfo c).cycles = s.cycles := rfl
@[simp] theorem State.putInfo_dmacnt (s : State) (c : CartInfo) : (s.putInfo c).dmacnt = s.dmacnt := rfl
@[simp] theorem State.putInfo_desc (s : State) (c : CartInfo) : (s.putInfo c).desc = s.desc := rfl
@[simp] theorem State.putInfo_buffers (s : State) (c : CartInfo) : (s.putInfo c).buffers = s.buffers := rfl
@[simp] theorem State.putInfo_port (s : State) (c : CartInfo) : (s.putInfo c).port = s.port := rfl
@[simp] theorem State.putInfo_resp (s : State) (c : CartInfo) : (s.putInfo c).resp = { s.resp with info := some c } := rfl
@[simp] theorem State.putInfo_ioDraws (s : State) (c : CartInfo) : (s.putInfo c).ioDraws = s.ioDraws := rfl

@[simp] theorem State.emit_slots (s : State) (e : Event) : (s.emit e).slots = s.slots := rfl
@[simp] theorem State.emit_timing (s : State) (e : Event) : (s.emit e).timing = s.timing := rfl
@[simp] theorem State.emit_icache (s : State) (e : Event) : (s.emit e).icache = s.icache := rfl
@[simp] theorem State.emit_cycles (s : State) (e : Event) : (s.emit e).cycles = s.cycles := rfl
@[simp] theorem State.emit_dmacnt (s : State) (e : Event) : (s.emit e).dmacnt = s.dmacnt := rfl
@[simp] theorem State.emit_desc (s : State) (e : Event) : (s.emit e).desc = s.desc := rfl
@[simp] theorem State.emit_buffers (s : State) (e : Event) : (s.emit e).buffers = s.buffers := rfl
@[simp] theorem State.emit_port (s : State) (e : Event) : (s.emit e).port = s.port := rfl
@[simp] theorem State.emit_resp (s : State) (e : Event) : (s.emit e).resp = { s.resp with events := s.resp.events ++ [e] } := rfl
@[simp] theorem State.emit_ioDraws (s : State) (e : Event) : (s.emit e).ioDraws = s.ioDraws := rfl

@[simp] theorem State.charge_slots (s : State) (k : Nat) : (s.charge k).slots = s.slots := rfl
@[simp] theorem State.charge_timing (s : State) (k : Nat) : (s.charge k).timing = s.timing := rfl
@[simp] theorem State.charge_icache (s : State) (k : Nat) : (s.charge k).icache = s.icache := rfl
@[simp] theorem State.charge_cycles (s : State) (k : Nat) : (s.charge k).cycles = s.cycles + k := rfl
@[simp] theorem State.charge_dmacnt (s : State) (k : Nat) : (s.charge k).dmacnt = s.dmacnt := rfl
@[simp] theorem State.charge_desc (s : State) (k : Nat) : (s.charge k).desc = s.desc := rfl
@[simp] theorem State.charge_buffers (s : State) (k : Nat) : (s.charge k).buffers = s.buffers := rfl
@[simp] theorem State.charge_port (s : State) (k : Nat) : (s.charge k).port = s.port := rfl
@[simp] theorem State.charge_resp (s : State) (k : Nat) : (s.charge k).resp = { s.resp with cycAdd := s.resp.cycAdd + k } := rfl
@[simp] theorem State.charge_ioDraws (s : State) (k : Nat) : (s.charge k).ioDraws = s.ioDraws := rfl

@[simp] theorem State.invalidate_slots (s : State) (p : Nat) : (s.invalidate p).slots = s.slots := rfl
@[simp] theorem State.invalidate_timing (s : State) (p : Nat) : (s.invalidate p).timing = s.timing := rfl
@[simp] theorem State.invalidate_icache (s : State) (p : Nat) : (s.invalidate p).icache = s.icache.remove p := rfl
@[simp] theorem State.invalidate_cycles (s : State) (p : Nat) : (s.invalidate p).cycles = s.cycles := rfl
@[simp] theorem State.invalidate_dmacnt (s : State) (p : Nat) : (s.invalidate p).dmacnt = s.dmacnt := rfl
@[simp] theorem State.invalidate_desc (s : State) (p : Nat) : (s.invalidate p).desc = s.desc := rfl
@[simp] theorem State.invalidate_buffers (s : State) (p : Nat) : (s.invalidate p).buffers = s.buffers := rfl
@[simp] theorem State.invalidate_port (s : State) (p : Nat) : (s.invalidate p).port = s.port := rfl
@[simp] theorem State.invalidate_resp (s : State) (p : Nat) : (s.invalidate p).resp = s.resp := rfl
@[simp] theorem State.invalidate_ioDraws (s : State) (p : Nat) : (s.invalidate p).ioDraws = s.ioDraws := rfl

@[simp] theorem State.markPage_slots (s : State) (p : Nat) : (s.markPage p).slots = s.slots := rfl
@[simp] theorem State.markPage_timing (s : State) (p : Nat) : (s.markPage p).timing = s.timing := rfl
@[simp] theorem State.markPage_icache (s : State) (p : Nat) : (s.markPage p).icache = s.icache.insert p := rfl
@[simp] theorem State.markPage_cycles (s : State) (p : Nat) : (s.markPage p).cycles = s.cycles := rfl
@[simp] theorem State.markPage_dmacnt (s : State) (p : Nat) : (s.markPage p).dmacnt = s.dmacnt := rfl
@[simp] theorem State.markPage_desc (s : State) (p : Nat) : (s.markPage p).desc = s.desc := rfl
@[simp] theorem State.markPage_buffers (s : State) (p : Nat) : (s.markPage p).buffers = s.buffers := rfl
@[simp] theorem State.markPage_port (s : State) (p : Nat) : (s.markPage p).port = s.port := rfl
@[simp] theorem State.markPage_resp (s : State) (p : Nat) : (s.markPage p).resp = s.resp := rfl
@[simp] theorem State.markPage_ioDraws (s : State) (p : Nat) : (s.markPage p).ioDraws = s.ioDraws := rfl

@[simp] theorem State.setSlot_slots (s : State) (r : Fin 16) (x : Slot) : (s.setSlot r x).slots = s.slots.set r x := rfl
@[simp] theorem State.setSlot_timing (s : State) (r : Fin 16) (x : Slot) : (s.setSlot r x).timing = s.timing := rfl
@[simp] theorem State.setSlot_icache (s : State) (r : Fin 16) (x : Slot) : (s.setSlot r x).icache = s.icache := rfl
@[simp] theorem State.setSlot_cycles (s : State) (r : Fin 16) (x : Slot) : (s.setSlot r x).cycles = s.cycles := rfl
@[simp] theorem State.setSlot_dmacnt (s : State) (r : Fin 16) (x : Slot) : (s.setSlot r x).dmacnt = s.dmacnt := rfl
@[simp] theorem State.setSlot_desc (s : State) (r : Fin 16) (x : Slot) : (s.setSlot r x).desc = s.desc := rfl
@[simp] theorem State.setSlot_buffers (s : State) (r : Fin 16) (x : Slot) : (s.setSlot r x).buffers = s.buffers := rfl
@[simp] theorem State.setSlot_port (s : State) (r : Fin 16) (x : Slot) : (s.setSlot r x).port = s.port := rfl
@[simp] theorem State.setSlot_resp (s : State) (r : Fin 16) (x : Slot) : (s.setSlot r x).resp = s.resp := rfl
@[simp] theorem State.setSlot_ioDraws (s : State) (r : Fin 16) (x : Slot) : (s.setSlot r x).ioDraws = s.ioDraws := rfl

@[simp] theorem State.setDmacnt_slots (s : State) (chan : BitVec 2) (v : BitVec 16) : (s.setDmacnt chan v).slots = s.slots := rfl
@[simp] theorem State.setDmacnt_timing (s : State) (chan : BitVec 2) (v : BitVec 16) : (s.setDmacnt chan v).timing = s.timing := rfl
@[simp] theorem State.setDmacnt_icache (s : State) (chan : BitVec 2) (v : BitVec 16) : (s.setDmacnt chan v).icache = s.icache := rfl
@[simp] theorem State.setDmacnt_cycles (s : State) (chan : BitVec 2) (v : BitVec 16) : (s.setDmacnt chan v).cycles = s.cycles := rfl
@[simp] theorem State.setDmacnt_dmacnt (s : State) (chan : BitVec 2) (v : BitVec 16) : (s.setDmacnt chan v).dmacnt = s.dmacnt.set chan.toFin v := rfl
@[simp] theorem State.setDmacnt_desc (s : State) (chan : BitVec 2) (v : BitVec 16) : (s.setDmacnt chan v).desc = s.desc := rfl
@[simp] theorem State.setDmacnt_buffers (s : State) (chan : BitVec 2) (v : BitVec 16) : (s.setDmacnt chan v).buffers = s.buffers := rfl
@[simp] theorem State.setDmacnt_port (s : State) (chan : BitVec 2) (v : BitVec 16) : (s.setDmacnt chan v).port = s.port := rfl
@[simp] theorem State.setDmacnt_resp (s : State) (chan : BitVec 2) (v : BitVec 16) : (s.setDmacnt chan v).resp = s.resp := rfl
@[simp] theorem State.setDmacnt_ioDraws (s : State) (chan : BitVec 2) (v : BitVec 16) : (s.setDmacnt chan v).ioDraws = s.ioDraws := rfl

@[simp] theorem State.putDesc_slots (s : State) (d : Descriptor) : (s.putDesc d).slots = s.slots := rfl
@[simp] theorem State.putDesc_timing (s : State) (d : Descriptor) : (s.putDesc d).timing = s.timing := rfl
@[simp] theorem State.putDesc_icache (s : State) (d : Descriptor) : (s.putDesc d).icache = s.icache := rfl
@[simp] theorem State.putDesc_cycles (s : State) (d : Descriptor) : (s.putDesc d).cycles = s.cycles := rfl
@[simp] theorem State.putDesc_dmacnt (s : State) (d : Descriptor) : (s.putDesc d).dmacnt = s.dmacnt := rfl
@[simp] theorem State.putDesc_desc (s : State) (d : Descriptor) : (s.putDesc d).desc = d := rfl
@[simp] theorem State.putDesc_buffers (s : State) (d : Descriptor) : (s.putDesc d).buffers = s.buffers := rfl
@[simp] theorem State.putDesc_port (s : State) (d : Descriptor) : (s.putDesc d).port = s.port := rfl
@[simp] theorem State.putDesc_resp (s : State) (d : Descriptor) : (s.putDesc d).resp = s.resp := rfl
@[simp] theorem State.putDesc_ioDraws (s : State) (d : Descriptor) : (s.putDesc d).ioDraws = s.ioDraws := rfl

@[simp] theorem State.putTiming_slots (s : State) (t : Timing) : (s.putTiming t).slots = s.slots := rfl
@[simp] theorem State.putTiming_timing (s : State) (t : Timing) : (s.putTiming t).timing = t := rfl
@[simp] theorem State.putTiming_icache (s : State) (t : Timing) : (s.putTiming t).icache = s.icache := rfl
@[simp] theorem State.putTiming_cycles (s : State) (t : Timing) : (s.putTiming t).cycles = s.cycles := rfl
@[simp] theorem State.putTiming_dmacnt (s : State) (t : Timing) : (s.putTiming t).dmacnt = s.dmacnt := rfl
@[simp] theorem State.putTiming_desc (s : State) (t : Timing) : (s.putTiming t).desc = s.desc := rfl
@[simp] theorem State.putTiming_buffers (s : State) (t : Timing) : (s.putTiming t).buffers = s.buffers := rfl
@[simp] theorem State.putTiming_port (s : State) (t : Timing) : (s.putTiming t).port = s.port := rfl
@[simp] theorem State.putTiming_resp (s : State) (t : Timing) : (s.putTiming t).resp = s.resp := rfl
@[simp] theorem State.putTiming_ioDraws (s : State) (t : Timing) : (s.putTiming t).ioDraws = s.ioDraws := rfl

@[simp] theorem State.clearPages_slots (s : State) : s.clearPages.slots = s.slots := rfl
@[simp] theorem State.clearPages_timing (s : State) : s.clearPages.timing = s.timing := rfl
@[simp] theorem State.clearPages_icache (s : State) : s.clearPages.icache = [] := rfl
@[simp] theorem State.clearPages_cycles (s : State) : s.clearPages.cycles = s.cycles := rfl
@[simp] theorem State.clearPages_dmacnt (s : State) : s.clearPages.dmacnt = s.dmacnt := rfl
@[simp] theorem State.clearPages_desc (s : State) : s.clearPages.desc = s.desc := rfl
@[simp] theorem State.clearPages_buffers (s : State) : s.clearPages.buffers = s.buffers := rfl
@[simp] theorem State.clearPages_port (s : State) : s.clearPages.port = s.port := rfl
@[simp] theorem State.clearPages_resp (s : State) : s.clearPages.resp = s.resp := rfl
@[simp] theorem State.clearPages_ioDraws (s : State) : s.clearPages.ioDraws = s.ioDraws := rfl

@[simp] theorem State.invalidateAll_slots (s : State) (ps : List Nat) : (s.invalidateAll ps).slots = s.slots := by
  induction ps generalizing s with
  | nil => rfl
  | cons p ps ih => exact ih (s.invalidate p)

@[simp] theorem State.invalidateAll_timing (s : State) (ps : List Nat) : (s.invalidateAll ps).timing = s.timing := by
  induction ps generalizing s with
  | nil => rfl
  | cons p ps ih => exact ih (s.invalidate p)

@[simp] theorem State.invalidateAll_cycles (s : State) (ps : List Nat) : (s.invalidateAll ps).cycles = s.cycles := by
  induction ps generalizing s with
  | nil => rfl
  | cons p ps ih => exact ih (s.invalidate p)

@[simp] theorem State.invalidateAll_dmacnt (s : State) (ps : List Nat) : (s.invalidateAll ps).dmacnt = s.dmacnt := by
  induction ps generalizing s with
  | nil => rfl
  | cons p ps ih => exact ih (s.invalidate p)

@[simp] theorem State.invalidateAll_desc (s : State) (ps : List Nat) : (s.invalidateAll ps).desc = s.desc := by
  induction ps generalizing s with
  | nil => rfl
  | cons p ps ih => exact ih (s.invalidate p)

@[simp] theorem State.invalidateAll_buffers (s : State) (ps : List Nat) : (s.invalidateAll ps).buffers = s.buffers := by
  induction ps generalizing s with
  | nil => rfl
  | cons p ps ih => exact ih (s.invalidate p)

@[simp] theorem State.invalidateAll_port (s : State) (ps : List Nat) : (s.invalidateAll ps).port = s.port := by
  induction ps generalizing s with
  | nil => rfl
  | cons p ps ih => exact ih (s.invalidate p)

@[simp] theorem State.invalidateAll_resp (s : State) (ps : List Nat) : (s.invalidateAll ps).resp = s.resp := by
  induction ps generalizing s with
  | nil => rfl
  | cons p ps ih => exact ih (s.invalidate p)

@[simp] theorem State.invalidateAll_ioDraws (s : State) (ps : List Nat) : (s.invalidateAll ps).ioDraws = s.ioDraws := by
  induction ps generalizing s with
  | nil => rfl
  | cons p ps ih => exact ih (s.invalidate p)

@[simp] theorem State.invalidateAll_nil (s : State) : s.invalidateAll [] = s := rfl

@[simp] theorem State.invalidateAll_cons (s : State) (p : Nat) (ps : List Nat) :
    s.invalidateAll (p :: ps) = (s.invalidate p).invalidateAll ps := rfl

theorem State.slot_eq (s : State) (r : Fin 16) : s.slot r = s.slots[r] := rfl

/-- The slot accessor reads the slot table alone. -/
theorem State.slot_congr {s t : State} (h : t.slots = s.slots) (r : Fin 16) : t.slot r = s.slot r := by
  simp [State.slot, h]

theorem State.setSlot_slot_same (s : State) (r : Fin 16) (x : Slot) : (s.setSlot r x).slot r = x := by
  simp [State.slot]

theorem State.setSlot_slot_other (s : State) {r q : Fin 16} (x : Slot) (h : q ≠ r) :
    (s.setSlot r x).slot q = s.slot q := by
  have : (r : Nat) ≠ q := fun e => h (Fin.ext e.symm)
  simp [State.slot, this]

/-- What any slot holds after one slot is written. -/
@[simp] theorem State.setSlot_slot (s : State) (r q : Fin 16) (x : Slot) :
    (s.setSlot r x).slot q = if q = r then x else s.slot q := by
  by_cases h : q = r
  · subst h; simp [State.setSlot_slot_same]
  · simp [State.setSlot_slot_other s x h, h]

/-- A handle's buffer depends on the buffer table alone. -/
theorem State.buffer_congr {s t : State} (h : t.buffers = s.buffers) (b : Handle) : t.buffer b = s.buffer b := by
  simp [State.buffer, h]

/-- Which slot an address resolves to depends on the slot table alone. -/
theorem State.mappedSlot_congr {s t : State} (h : t.slots = s.slots) (a : Word) : t.mappedSlot a = s.mappedSlot a := by
  simp [State.mappedSlot, State.slot_congr h]

/-- The bytes of a store depend on its slot and the buffers alone. -/
theorem State.byteIn_congr {s t : State} {r : Fin 16} (h : t.slot r = s.slot r) (hb : t.buffers = s.buffers) (o : Nat) :
    t.byteIn r o = s.byteIn r o := by
  simp [State.byteIn, h, State.buffer_congr hb]

/-- The bytes of the stores depend on the slot table and the buffers alone. -/
theorem State.byteAt_congr {s t : State} (h : t.slots = s.slots) (hb : t.buffers = s.buffers) (a : Word) :
    t.byteAt a = s.byteAt a := by
  simp [State.byteAt, State.byteIn_congr (State.slot_congr h _) hb]

theorem State.setDmacnt_dmacntOf (s : State) (chan c : BitVec 2) (v : BitVec 16) :
    (s.setDmacnt chan v).dmacntOf c = if c = chan then v else s.dmacntOf c := by
  by_cases h : c = chan
  · subst h; simp [State.dmacntOf]
  · have : chan.toNat ≠ c.toNat := fun e => h (BitVec.eq_of_toNat_eq e.symm)
    simp [State.dmacntOf, h, this]

@[simp] theorem State.begin_slot (s : State) (r : Fin 16) : (s.begin).slot r = s.slot r := rfl
@[simp] theorem State.putRdata_slot (s : State) (v : Word) (r : Fin 16) : (s.putRdata v).slot r = s.slot r := rfl
@[simp] theorem State.putInfo_slot (s : State) (c : CartInfo) (r : Fin 16) : (s.putInfo c).slot r = s.slot r := rfl
@[simp] theorem State.emit_slot (s : State) (e : Event) (r : Fin 16) : (s.emit e).slot r = s.slot r := rfl
@[simp] theorem State.charge_slot (s : State) (k : Nat) (r : Fin 16) : (s.charge k).slot r = s.slot r := rfl
@[simp] theorem State.invalidate_slot (s : State) (p : Nat) (r : Fin 16) : (s.invalidate p).slot r = s.slot r := rfl
@[simp] theorem State.markPage_slot (s : State) (p : Nat) (r : Fin 16) : (s.markPage p).slot r = s.slot r := rfl
@[simp] theorem State.putDesc_slot (s : State) (d : Descriptor) (r : Fin 16) : (s.putDesc d).slot r = s.slot r := rfl
@[simp] theorem State.putTiming_slot (s : State) (t : Timing) (r : Fin 16) : (s.putTiming t).slot r = s.slot r := rfl
@[simp] theorem State.clearPages_slot (s : State) (r : Fin 16) : s.clearPages.slot r = s.slot r := rfl
@[simp] theorem State.setDmacnt_slot (s : State) (chan : BitVec 2) (v : BitVec 16) (r : Fin 16) : (s.setDmacnt chan v).slot r = s.slot r := rfl

@[simp] theorem State.invalidateAll_slot (s : State) (ps : List Nat) (r : Fin 16) :
    (s.invalidateAll ps).slot r = s.slot r :=
  State.slot_congr (State.invalidateAll_slots s ps) r

@[simp] theorem State.begin_buffer (s : State) (b : Handle) : (s.begin).buffer b = s.buffer b := rfl
@[simp] theorem State.putRdata_buffer (s : State) (v : Word) (b : Handle) : (s.putRdata v).buffer b = s.buffer b := rfl
@[simp] theorem State.putInfo_buffer (s : State) (c : CartInfo) (b : Handle) : (s.putInfo c).buffer b = s.buffer b := rfl
@[simp] theorem State.emit_buffer (s : State) (e : Event) (b : Handle) : (s.emit e).buffer b = s.buffer b := rfl
@[simp] theorem State.charge_buffer (s : State) (k : Nat) (b : Handle) : (s.charge k).buffer b = s.buffer b := rfl
@[simp] theorem State.invalidate_buffer (s : State) (p : Nat) (b : Handle) : (s.invalidate p).buffer b = s.buffer b := rfl
@[simp] theorem State.markPage_buffer (s : State) (p : Nat) (b : Handle) : (s.markPage p).buffer b = s.buffer b := rfl
@[simp] theorem State.setSlot_buffer (s : State) (r : Fin 16) (x : Slot) (b : Handle) : (s.setSlot r x).buffer b = s.buffer b := rfl
@[simp] theorem State.putDesc_buffer (s : State) (d : Descriptor) (b : Handle) : (s.putDesc d).buffer b = s.buffer b := rfl
@[simp] theorem State.putTiming_buffer (s : State) (t : Timing) (b : Handle) : (s.putTiming t).buffer b = s.buffer b := rfl
@[simp] theorem State.clearPages_buffer (s : State) (b : Handle) : s.clearPages.buffer b = s.buffer b := rfl
@[simp] theorem State.setDmacnt_buffer (s : State) (chan : BitVec 2) (v : BitVec 16) (b : Handle) : (s.setDmacnt chan v).buffer b = s.buffer b := rfl

@[simp] theorem State.invalidateAll_buffer (s : State) (ps : List Nat) (b : Handle) :
    (s.invalidateAll ps).buffer b = s.buffer b :=
  State.buffer_congr (State.invalidateAll_buffers s ps) b

end Sys2Proof.Machine
end

