-- ==== Sys2Proof/Laws/Ops.lean ====
section
/-! SUPPORT. The shared operations: for each, once, everything it can do. -/

namespace Sys2Proof.Machine

/-! ### Addresses -/

theorem offsetOf_lt (a : Word) : offsetOf a < 0x1000000 := by
  simp only [offsetOf, regionShift]; omega

theorem regionOf_lt (a : Word) : regionOf a < 256 := by
  have := a.isLt
  simp only [regionOf, regionShift]; omega

/-- An address is its region and its offset. -/
theorem toNat_eq_region_offset (a : Word) : a.toNat = regionOf a * 0x1000000 + offsetOf a := by
  simp only [regionOf, offsetOf, regionShift]; omega

theorem slotIndex_eq_some {a : Word} {r : Fin 16} : slotIndex a = some r ↔ regionOf a = r := by
  simp only [slotIndex]
  split
  · rename_i h
    simp only [Option.some.injEq]
    exact ⟨fun e => by rw [← e], fun e => Fin.ext e⟩
  · rename_i h
    have := r.isLt
    simp only [reduceCtorEq, false_iff]; omega

theorem slotIndex_eq_none {a : Word} : slotIndex a = none ↔ 16 ≤ regionOf a := by
  simp only [slotIndex]
  split
  · simp only [reduceCtorEq, false_iff]; omega
  · simp only [true_iff]; omega

/-- An address with a given region and offset. -/
theorem eq_of_region_offset {a b : Word} (h1 : regionOf a = regionOf b) (h2 : offsetOf a = offsetOf b) : a = b := by
  apply BitVec.eq_of_toNat_eq
  rw [toNat_eq_region_offset a, toNat_eq_region_offset b, h1, h2]

/-- Moving forward inside a region keeps the region and adds to the offset. -/
theorem region_offset_add {a : Word} {k : Nat} (h : offsetOf a + k < 0x1000000) :
    regionOf (a + BitVec.ofNat 32 k) = regionOf a ∧ offsetOf (a + BitVec.ofNat 32 k) = offsetOf a + k := by
  have e := toNat_eq_region_offset a
  have hr := regionOf_lt a
  have : (a + BitVec.ofNat 32 k).toNat = a.toNat + k := by
    rw [BitVec.toNat_add, BitVec.toNat_ofNat]; omega
  refine ⟨?_, ?_⟩
  · simp only [regionOf, regionShift, this] at *; omega
  · simp only [offsetOf, regionShift, this] at *; omega

theorem clear_low (a : Word) (k : Nat) : ((a >>> k) <<< k).toNat = a.toNat / 2 ^ k * 2 ^ k := by
  have := a.isLt
  simp only [BitVec.toNat_shiftLeft, BitVec.toNat_ushiftRight, Nat.shiftLeft_eq, Nat.shiftRight_eq_div_pow]
  apply Nat.mod_eq_of_lt
  have := Nat.div_mul_le_self a.toNat (2 ^ k)
  omega

/-- The address a store reaches is the address rounded down to its width (20_memory.md R39). -/
theorem alignDown_toNat (n : Width) (a : Word) : (alignDown n a).toNat = a.toNat / n.bytes * n.bytes := by
  have h2 : a &&& 0xFFFFFFFE#32 = (a >>> 1) <<< 1 := by ext i hi; interval_cases i <;> simp
  have h4 : a &&& 0xFFFFFFFC#32 = (a >>> 2) <<< 2 := by ext i hi; interval_cases i <;> simp
  cases n with
  | b1 => simp [alignDown, Width.bytes]
  | b2 => rw [alignDown, h2, clear_low]; rfl
  | b4 => rw [alignDown, h4, clear_low]; rfl

/-- "Aligning an address by clearing its low bits never changes `addr[31:24]`" (R47). -/
theorem alignDown_region (n : Width) (a : Word) : regionOf (alignDown n a) = regionOf a := by
  have := alignDown_toNat n a
  cases n <;> simp only [Width.bytes] at this <;> simp only [regionOf, regionShift, this] <;> omega

theorem alignDown_offset (n : Width) (a : Word) : offsetOf (alignDown n a) = offsetOf a / n.bytes * n.bytes := by
  have := alignDown_toNat n a
  cases n <;> simp only [Width.bytes] at this ⊢ <;> simp only [offsetOf, regionShift, this] <;> omega

theorem slotIndex_congr {a b : Word} (h : regionOf a = regionOf b) : slotIndex a = slotIndex b := by
  cases hb : slotIndex b with
  | none => rw [slotIndex_eq_none] at hb ⊢; omega
  | some r => rw [slotIndex_eq_some] at hb ⊢; omega

theorem alignDown_slotIndex (n : Width) (a : Word) : slotIndex (alignDown n a) = slotIndex a :=
  slotIndex_congr (alignDown_region n a)

/-! ### Mapping -/

/-- An address is mapped exactly when its region names a slot that is not unmapped (R32). -/
theorem State.mappedSlot_eq_some {s : State} {a : Word} {r : Fin 16} :
    s.mappedSlot a = some r ↔ slotIndex a = some r ∧ s.slot r ≠ .unmapped := by
  simp only [State.mappedSlot]
  cases slotIndex a with
  | none => simp
  | some q =>
    by_cases h : s.slot q = .unmapped
    · simp only [h, if_true, reduceCtorEq, Option.some.injEq, false_iff]
      rintro ⟨rfl, h'⟩; exact h' h
    · simp only [h, if_false, Option.some.injEq]
      exact ⟨fun e => by subst e; exact ⟨rfl, h⟩, fun e => e.1⟩

theorem State.mappedSlot_eq_none {s : State} {a : Word} :
    s.mappedSlot a = none ↔ ∀ r, slotIndex a = some r → s.slot r = .unmapped := by
  simp only [State.mappedSlot]
  cases slotIndex a with
  | none => simp
  | some q => by_cases h : s.slot q = .unmapped <;> simp [h]

theorem State.mappedSlot_alignDown (s : State) (n : Width) (a : Word) :
    s.mappedSlot (alignDown n a) = s.mappedSlot a := by
  simp [State.mappedSlot, alignDown_slotIndex]

/-! ### The range check -/

theorem inRange_eq_some {size : Nat} {off : Int} {n : Width} {o : Nat} :
    inRange size off n = some o ↔ off = o ∧ o + n.bytes ≤ size := by
  cases off with
  | ofNat k =>
    simp only [inRange]
    split
    · rename_i h
      simp only [Option.some.injEq, Int.ofNat_eq_natCast]
      constructor
      · rintro rfl; exact ⟨rfl, h⟩
      · rintro ⟨e, -⟩; omega
    · rename_i h
      simp only [reduceCtorEq, Int.ofNat_eq_natCast, false_iff]
      rintro ⟨e, h'⟩; apply h; omega
  | negSucc k =>
    simp only [inRange, reduceCtorEq, false_iff]
    rintro ⟨e, -⟩; omega

theorem inRange_eq_none {size : Nat} {off : Int} {n : Width} :
    inRange size off n = none ↔ off < 0 ∨ size < off + n.bytes := by
  cases off with
  | ofNat k =>
    simp only [inRange, Int.ofNat_eq_natCast]
    split <;> simp only [reduceCtorEq, false_iff, true_iff] <;> omega
  | negSucc k =>
    simp only [inRange, true_iff]
    exact .inl (by omega)

/-- A natural offset is in range exactly when the access ends inside the view (R38). -/
theorem inRange_natCast (size o : Nat) (n : Width) :
    inRange size (o : Int) n = if o + n.bytes ≤ size then some o else none := rfl

/-! ### Reading a view -/

/-- A read changes nothing but the count of oracle draws. -/
theorem State.readAt_state (s : State) (r : Fin 16) (o : Nat) (n : Width) :
    (s.readAt r o n).2 = { s with ioDraws := (s.readAt r o n).2.ioDraws } := by
  simp only [State.readAt]
  cases s.slot r <;> rfl

@[simp] theorem State.readAt_slots (s : State) (r : Fin 16) (o : Nat) (n : Width) : (s.readAt r o n).2.slots = s.slots := by
  rw [State.readAt_state]

@[simp] theorem State.readAt_timing (s : State) (r : Fin 16) (o : Nat) (n : Width) : (s.readAt r o n).2.timing = s.timing := by
  rw [State.readAt_state]

@[simp] theorem State.readAt_icache (s : State) (r : Fin 16) (o : Nat) (n : Width) : (s.readAt r o n).2.icache = s.icache := by
  rw [State.readAt_state]

@[simp] theorem State.readAt_cycles (s : State) (r : Fin 16) (o : Nat) (n : Width) : (s.readAt r o n).2.cycles = s.cycles := by
  rw [State.readAt_state]

@[simp] theorem State.readAt_dmacnt (s : State) (r : Fin 16) (o : Nat) (n : Width) : (s.readAt r o n).2.dmacnt = s.dmacnt := by
  rw [State.readAt_state]

@[simp] theorem State.readAt_desc (s : State) (r : Fin 16) (o : Nat) (n : Width) : (s.readAt r o n).2.desc = s.desc := by
  rw [State.readAt_state]

@[simp] theorem State.readAt_buffers (s : State) (r : Fin 16) (o : Nat) (n : Width) : (s.readAt r o n).2.buffers = s.buffers := by
  rw [State.readAt_state]

@[simp] theorem State.readAt_port (s : State) (r : Fin 16) (o : Nat) (n : Width) : (s.readAt r o n).2.port = s.port := by
  rw [State.readAt_state]

@[simp] theorem State.readAt_resp (s : State) (r : Fin 16) (o : Nat) (n : Width) : (s.readAt r o n).2.resp = s.resp := by
  rw [State.readAt_state]

@[simp] theorem State.readAt_slot (s : State) (r : Fin 16) (o : Nat) (n : Width) (q : Fin 16) :
    (s.readAt r o n).2.slot q = s.slot q :=
  State.slot_congr (State.readAt_slots s r o n) q

@[simp] theorem State.readAt_byteIn (s : State) (r : Fin 16) (o : Nat) (n : Width) (q : Fin 16) (x : Nat) :
    (s.readAt r o n).2.byteIn q x = s.byteIn q x :=
  State.byteIn_congr (State.readAt_slot s r o n q) (State.readAt_buffers s r o n) x

/-- A slot with bytes answers a read with the little-endian value of the bytes at the offset and changes nothing
(R34). -/
theorem State.readAt_bytes {s : State} {r : Fin 16} {o : Nat} {n : Width} (hb : (s.slot r).hasBytes = true)
    (ho : o + n.bytes ≤ (s.slot r).size) :
    s.readAt r o n =
      (BitVec.ofNat 32 (valueOfBytes ((List.range n.bytes).map (fun i => (s.byteIn r (o + i)).getD 0))), s) := by
  have key : ∀ (m : Memory) (a k : Nat), m.readBytes a k = (List.range k).map (fun i => m.read (a + i)) := by
    intro m a k
    induction k generalizing a with
    | zero => rfl
    | succ k ih =>
      rw [Memory.readBytes, ih, List.range_succ_eq_map, List.map_cons, List.map_map]
      congr 1
      apply List.map_congr_left
      intro i _; simp only [Function.comp]; congr 1; omega
  cases hs : s.slot r with
  | unmapped => rw [hs] at hb; cases hb
  | io => rw [hs] at hb; cases hb
  | rw size bytes =>
    rw [hs] at ho
    simp only [State.readAt, hs, key]
    congr 3
    apply List.map_congr_left
    intro i hi
    have : o + i < size := by rw [List.mem_range] at hi; simp only [Slot.size] at ho; omega
    simp [State.byteIn, hs, this]
  | ro buf byteOffset size =>
    rw [hs] at ho
    simp only [State.readAt, hs, key]
    congr 3
    apply List.map_congr_left
    intro i hi
    have : o + i < size := by rw [List.mem_range] at hi; simp only [Slot.size] at ho; omega
    simp [State.byteIn, hs, this, Buffer.byte, Nat.add_assoc]

/-- A byte the stores hold at an address lies in a mapped slot with bytes, inside its view. -/
theorem State.byteAt_eq_some {s : State} {a : Word} {b : Byte} :
    s.byteAt a = some b ↔ ∃ r, slotIndex a = some r ∧ (s.slot r).hasBytes = true ∧ offsetOf a < (s.slot r).size ∧
      s.byteIn r (offsetOf a) = some b := by
  simp only [State.byteAt]
  cases hi : slotIndex a with
  | none => simp
  | some r =>
    simp only [Option.some.injEq]
    constructor
    · intro h
      refine ⟨r, rfl, ?_, ?_, h⟩ <;> simp only [State.byteIn] at h <;> cases hs : s.slot r <;> simp only [hs] at h <;>
        first
          | (cases h)
          | rfl
          | (split at h
             · assumption
             · cases h)
    · rintro ⟨q, rfl, -, -, h⟩; exact h

/-- The byte of an address whose region is known. -/
theorem State.byteAt_of_slotIndex {s : State} {a : Word} {r : Fin 16} (h : slotIndex a = some r) :
    s.byteAt a = s.byteIn r (offsetOf a) := by
  simp only [State.byteAt, h]

/-- A slot with bytes is mapped. -/
theorem State.mappedSlot_of_hasBytes {s : State} {a : Word} {r : Fin 16} (h : slotIndex a = some r)
    (hb : (s.slot r).hasBytes = true) : s.mappedSlot a = some r :=
  State.mappedSlot_eq_some.2 ⟨h, fun e => by rw [e] at hb; cases hb⟩

/-- The I/O slot answers with the next draw of the oracle (R37). -/
theorem State.readAt_io {s : State} {r : Fin 16} (h : s.slot r = .io) (o : Nat) (n : Width) :
    s.readAt r o n = (truncTo n (Config.ioValue s.ioDraws), { s with ioDraws := s.ioDraws + 1 }) := by
  simp only [State.readAt, h]

theorem State.viewRead_eq_some {s : State} {r : Fin 16} {off : Int} {n : Width} {x : Word × State} :
    s.viewRead r off n = some x ↔
      ∃ o : Nat, off = o ∧ o + n.bytes ≤ (s.slot r).size ∧ x = s.readAt r o n := by
  simp only [State.viewRead]
  cases h : inRange (s.slot r).size off n with
  | none =>
    simp only [reduceCtorEq, false_iff]
    rintro ⟨o, rfl, ho, -⟩
    rw [inRange_eq_none] at h; omega
  | some o =>
    rw [inRange_eq_some] at h
    simp only [Option.some.injEq]
    constructor
    · rintro rfl; exact ⟨o, h.1, h.2, rfl⟩
    · rintro ⟨k, hk, -, rfl⟩
      have : k = o := by omega
      rw [this]

theorem State.viewRead_eq_none {s : State} {r : Fin 16} {off : Int} {n : Width} :
    s.viewRead r off n = none ↔ off < 0 ∨ (s.slot r).size < off + n.bytes := by
  rw [← inRange_eq_none, State.viewRead]
  cases inRange (s.slot r).size off n <;> simp

/-! ### Writing a view -/

/-- What a write makes of the slot it names (R35 to R37): only a read-write block changes. -/
def Slot.written (x : Slot) (o : Nat) (n : Width) (v : Word) : Slot :=
  match x with
  | .rw size bytes => .rw size (bytes.writeBytes o (bytesOfValue n.bytes v.toNat))
  | y => y

/-- A write changes nothing but the slot table and the events of the response. -/
theorem State.writeAt_state (s : State) (r : Fin 16) (o : Nat) (n : Width) (v : Word) :
    s.writeAt r o n v =
      { s with slots := (s.writeAt r o n v).slots,
               resp := { s.resp with events := (s.writeAt r o n v).resp.events } } := by
  simp only [State.writeAt]
  cases s.slot r <;> rfl

@[simp] theorem State.writeAt_timing (s : State) (r : Fin 16) (o : Nat) (n : Width) (v : Word) :
    (s.writeAt r o n v).timing = s.timing := by
  rw [State.writeAt_state]

@[simp] theorem State.writeAt_icache (s : State) (r : Fin 16) (o : Nat) (n : Width) (v : Word) :
    (s.writeAt r o n v).icache = s.icache := by
  rw [State.writeAt_state]

@[simp] theorem State.writeAt_cycles (s : State) (r : Fin 16) (o : Nat) (n : Width) (v : Word) :
    (s.writeAt r o n v).cycles = s.cycles := by
  rw [State.writeAt_state]

@[simp] theorem State.writeAt_dmacnt (s : State) (r : Fin 16) (o : Nat) (n : Width) (v : Word) :
    (s.writeAt r o n v).dmacnt = s.dmacnt := by
  rw [State.writeAt_state]

@[simp] theorem State.writeAt_desc (s : State) (r : Fin 16) (o : Nat) (n : Width) (v : Word) :
    (s.writeAt r o n v).desc = s.desc := by
  rw [State.writeAt_state]

@[simp] theorem State.writeAt_buffers (s : State) (r : Fin 16) (o : Nat) (n : Width) (v : Word) :
    (s.writeAt r o n v).buffers = s.buffers := by
  rw [State.writeAt_state]

@[simp] theorem State.writeAt_port (s : State) (r : Fin 16) (o : Nat) (n : Width) (v : Word) :
    (s.writeAt r o n v).port = s.port := by
  rw [State.writeAt_state]

@[simp] theorem State.writeAt_ioDraws (s : State) (r : Fin 16) (o : Nat) (n : Width) (v : Word) :
    (s.writeAt r o n v).ioDraws = s.ioDraws := by
  rw [State.writeAt_state]

@[simp] theorem State.writeAt_cycAdd (s : State) (r : Fin 16) (o : Nat) (n : Width) (v : Word) :
    (s.writeAt r o n v).resp.cycAdd = s.resp.cycAdd := by
  rw [State.writeAt_state]

@[simp] theorem State.writeAt_rdata (s : State) (r : Fin 16) (o : Nat) (n : Width) (v : Word) :
    (s.writeAt r o n v).resp.rdata = s.resp.rdata := by
  rw [State.writeAt_state]

@[simp] theorem State.writeAt_info (s : State) (r : Fin 16) (o : Nat) (n : Width) (v : Word) :
    (s.writeAt r o n v).resp.info = s.resp.info := by
  rw [State.writeAt_state]

/-- Every slot after a write: the named one as `Slot.written` says, the others as before. -/
@[simp] theorem State.writeAt_slot (s : State) (r : Fin 16) (o : Nat) (n : Width) (v : Word) (q : Fin 16) :
    (s.writeAt r o n v).slot q = if q = r then (s.slot r).written o n v else s.slot q := by
  by_cases hq : q = r
  · subst hq
    cases h : s.slot q <;> simp [State.writeAt, Slot.written, h]
  · cases h : s.slot r <;> simp [State.writeAt, hq, h]

@[simp] theorem State.writeAt_buffer (s : State) (r : Fin 16) (o : Nat) (n : Width) (v : Word) (b : Handle) :
    (s.writeAt r o n v).buffer b = s.buffer b :=
  State.buffer_congr (State.writeAt_buffers s r o n v) b

@[simp] theorem Slot.written_size (x : Slot) (o : Nat) (n : Width) (v : Word) : (x.written o n v).size = x.size := by
  cases x <;> rfl

@[simp] theorem Slot.written_hasBytes (x : Slot) (o : Nat) (n : Width) (v : Word) :
    (x.written o n v).hasBytes = x.hasBytes := by
  cases x <;> rfl

/-- A write to a read-only view changes nothing (R36). -/
theorem State.writeAt_ro {s : State} {r : Fin 16} {b : Handle} {k size : Nat} (h : s.slot r = .ro b k size) (o : Nat)
    (n : Width) (v : Word) : s.writeAt r o n v = s := by
  simp only [State.writeAt, h]

/-- A write to the I/O slot is an event and nothing else (R37). -/
theorem State.writeAt_io {s : State} {r : Fin 16} (h : s.slot r = .io) (o : Nat) (n : Width) (v : Word) :
    s.writeAt r o n v = s.emit (.ioWrite o n.bytes (truncTo n v)) := by
  simp only [State.writeAt, h]

/-- A write to a read-write block in canonical form: the bytes of the access take the value's bytes, every other byte
stays (R35). -/
theorem State.byteIn_writeAt_rw {s : State} {r : Fin 16} {size : Nat} {m : Memory} (h : s.slot r = .rw size m)
    (hw : m.wf = true) {o : Nat} {n : Width} (ho : o + n.bytes ≤ size) (v : Word) (q : Fin 16) (x : Nat) :
    (s.writeAt r o n v).byteIn q x =
      if q = r ∧ o ≤ x ∧ x < o + n.bytes then some ((bytesOfValue n.bytes v.toNat).getD (x - o) 0)
      else s.byteIn q x := by
  by_cases hq : q = r
  · subst hq
    by_cases hx : o ≤ x ∧ x < o + n.bytes
    · have hs : x < size := by omega
      simp [State.byteIn, h, Slot.written, Memory.read_writeBytes hw, hx, hs]
    · simp [State.byteIn, h, Slot.written, Memory.read_writeBytes hw, hx]
  · have := State.byteIn_congr (s := s) (t := s.writeAt r o n v) (r := q) (by simp [hq]) (by simp) x
    simp [this, hq]

/-- A write leaves the bytes of every slot that is not the read-write block it names. -/
theorem State.byteIn_writeAt_other {s : State} {r q : Fin 16} (h : q ≠ r ∨ ∀ size m, s.slot r ≠ .rw size m) (o : Nat)
    (n : Width) (v : Word) (x : Nat) : (s.writeAt r o n v).byteIn q x = s.byteIn q x := by
  apply State.byteIn_congr _ (by simp)
  rw [State.writeAt_slot]
  by_cases hq : q = r
  · subst hq
    rcases h with h | h
    · exact absurd rfl h
    · rw [if_pos rfl]
      cases hs : s.slot q with
      | rw size m => exact absurd hs (h size m)
      | _ => rfl
  · rw [if_neg hq]

theorem State.viewWrite_eq_some {s t : State} {r : Fin 16} {off : Int} {n : Width} {v : Word} :
    s.viewWrite r off n v = some t ↔
      ∃ o : Nat, off = o ∧ o + n.bytes ≤ (s.slot r).size ∧ t = s.writeAt r o n v := by
  simp only [State.viewWrite]
  cases h : inRange (s.slot r).size off n with
  | none =>
    simp only [reduceCtorEq, false_iff]
    rintro ⟨o, rfl, ho, -⟩
    rw [inRange_eq_none] at h; omega
  | some o =>
    rw [inRange_eq_some] at h
    simp only [Option.some.injEq]
    constructor
    · rintro rfl; exact ⟨o, h.1, h.2, rfl⟩
    · rintro ⟨k, hk, -, rfl⟩
      have : k = o := by omega
      rw [this]

theorem State.viewWrite_eq_none {s : State} {r : Fin 16} {off : Int} {n : Width} {v : Word} :
    s.viewWrite r off n v = none ↔ off < 0 ∨ (s.slot r).size < off + n.bytes := by
  rw [← inRange_eq_none, State.viewWrite]
  cases inRange (s.slot r).size off n <;> simp

/-! ### The address-space paths -/

/-- A read through the address space succeeds exactly on a mapped address whose access ends inside the view (R46). -/
theorem State.memRead_eq_ok {s : State} {a : Word} {n : Width} {x : Word × State} :
    s.memRead a n = .ok x ↔
      ∃ r, s.mappedSlot a = some r ∧ offsetOf a + n.bytes ≤ (s.slot r).size ∧ x = s.readAt r (offsetOf a) n := by
  simp only [State.memRead]
  cases hm : s.mappedSlot a with
  | none => simp
  | some r =>
    simp only [Option.some.injEq]
    cases hv : s.viewRead r (offsetOf a) n with
    | none =>
      simp only [reduceCtorEq, false_iff]
      rintro ⟨q, rfl, ho, -⟩
      rw [State.viewRead_eq_none] at hv; omega
    | some y =>
      rw [State.viewRead_eq_some] at hv
      obtain ⟨o, h1, h2, rfl⟩ := hv
      have : o = offsetOf a := by omega
      subst this
      simp only [Except.ok.injEq]
      constructor
      · rintro rfl; exact ⟨r, rfl, h2, rfl⟩
      · rintro ⟨q, rfl, -, rfl⟩; rfl

/-- When a read through the address space faults, and with which fault: the region check comes first (R46, R136). -/
theorem State.memRead_eq_error {s : State} {a : Word} {n : Width} {f : Fault} :
    s.memRead a n = .error f ↔
      (s.mappedSlot a = none ∧ f = .fRegion a) ∨
      (∃ r, s.mappedSlot a = some r ∧ (s.slot r).size < offsetOf a + n.bytes ∧ f = .fOffset a) := by
  simp only [State.memRead]
  cases hm : s.mappedSlot a with
  | none => simp [eq_comm]
  | some r =>
    simp only [Option.some.injEq, reduceCtorEq, false_and, false_or]
    cases hv : s.viewRead r (offsetOf a) n with
    | none =>
      rw [State.viewRead_eq_none] at hv
      simp only [Except.error.injEq]
      constructor
      · rintro rfl; exact ⟨r, rfl, by omega, rfl⟩
      · rintro ⟨q, -, -, rfl⟩; rfl
    | some y =>
      rw [State.viewRead_eq_some] at hv
      obtain ⟨o, h1, h2, rfl⟩ := hv
      simp only [reduceCtorEq, false_iff]
      rintro ⟨q, rfl, h3, -⟩; omega

/-- `MemWrite` succeeds exactly on a mapped address whose access ends inside the view (R47). -/
theorem State.memWrite_eq_ok {s t : State} {a : Word} {n : Width} {v : Word} :
    s.memWrite a n v = .ok t ↔
      ∃ r, s.mappedSlot a = some r ∧ offsetOf a + n.bytes ≤ (s.slot r).size ∧
        t = s.writeAt r (offsetOf a) n v := by
  simp only [State.memWrite]
  cases hm : s.mappedSlot a with
  | none => simp
  | some r =>
    simp only [Option.some.injEq]
    cases hv : s.viewWrite r (offsetOf a) n v with
    | none =>
      simp only [reduceCtorEq, false_iff]
      rintro ⟨q, rfl, ho, -⟩
      rw [State.viewWrite_eq_none] at hv; omega
    | some y =>
      rw [State.viewWrite_eq_some] at hv
      obtain ⟨o, h1, h2, rfl⟩ := hv
      have : o = offsetOf a := by omega
      subst this
      simp only [Except.ok.injEq]
      constructor
      · rintro rfl; exact ⟨r, rfl, h2, rfl⟩
      · rintro ⟨q, rfl, -, rfl⟩; rfl

/-- When `MemWrite` faults, and with which fault: it raises with its own address (R47). -/
theorem State.memWrite_eq_error {s : State} {a : Word} {n : Width} {v : Word} {f : Fault} :
    s.memWrite a n v = .error f ↔
      (s.mappedSlot a = none ∧ f = .fRegion a) ∨
      (∃ r, s.mappedSlot a = some r ∧ (s.slot r).size < offsetOf a + n.bytes ∧ f = .fOffset a) := by
  simp only [State.memWrite]
  cases hm : s.mappedSlot a with
  | none => simp [eq_comm]
  | some r =>
    simp only [Option.some.injEq, reduceCtorEq, false_and, false_or]
    cases hv : s.viewWrite r (offsetOf a) n v with
    | none =>
      rw [State.viewWrite_eq_none] at hv
      simp only [Except.error.injEq]
      constructor
      · rintro rfl; exact ⟨r, rfl, by omega, rfl⟩
      · rintro ⟨q, -, -, rfl⟩; rfl
    | some y =>
      rw [State.viewWrite_eq_some] at hv
      obtain ⟨o, h1, h2, rfl⟩ := hv
      simp only [reduceCtorEq, false_iff]
      rintro ⟨q, rfl, h3, -⟩; omega

/-! ### Invalidation -/

/-- After a list of invalidations exactly the listed pages are gone (42_decode_cache.md R90). -/
theorem State.has_invalidateAll (s : State) (ps : List Nat) (q : Nat) :
    (s.invalidateAll ps).icache.has q = (s.icache.has q && !ps.contains q) := by
  induction ps generalizing s with
  | nil => simp
  | cons p ps ih =>
    rw [State.invalidateAll_cons, ih]
    simp only [State.invalidate_icache, PageSet.has_remove, List.contains_cons, Bool.not_or, Bool.and_assoc]
    by_cases h : q = p
    · simp [h]
    · have hb : (q == p) = false := by simpa using h
      simp [h, hb]

theorem State.invalidateAll_wf {s : State} (h : s.icache.wf = true) (ps : List Nat) :
    (s.invalidateAll ps).icache.wf = true := by
  induction ps generalizing s with
  | nil => exact h
  | cons p ps ih => exact ih (s := s.invalidate p) (PageSet.remove_wf h p)

/-! ### The timing tables -/

@[simp] theorem Timing.entry_set (t : Timing) (k j : TableKind) (r q : Fin 16) (v : Nat) :
    (t.set k r v).entry j q = if j = k ∧ q = r then v % 32 else t.entry j q := by
  have hq : ∀ (x : Vector (BitVec 5) 16), ((x.set r (BitVec.ofNat 5 v))[q]).toNat =
      if q = r then v % 32 else x[q].toNat := by
    intro x
    by_cases h : q = r
    · subst h; simp
    · have : (r : Nat) ≠ q := fun e => h (Fin.ext e.symm)
      simp [h, this]
  cases k <;> cases j <;>
    simp only [Timing.entry, Timing.set, Timing.table, hq, reduceCtorEq, false_and, true_and, if_false]

theorem Timing.entry_lt (t : Timing) (k : TableKind) (r : Fin 16) : t.entry k r < 32 := by
  have := ((t.table k)[r]).isLt
  simpa [Timing.entry] using this

theorem lutN_le (i : BitVec 2) : lutN i ≤ 8 := by simp only [lutN]; split_ifs <;> omega

theorem lutS0_le (i : BitVec 1) : lutS0 i ≤ 8 := by simp only [lutS0]; split_ifs <;> omega

theorem lutS1_le (i : BitVec 1) : lutS1 i ≤ 8 := by simp only [lutS1]; split_ifs <;> omega

theorem lutS2_le (i : BitVec 1) : lutS2 i ≤ 8 := by simp only [lutS2]; split_ifs <;> omega

end Sys2Proof.Machine
end

