-- ==== Sys2Proof/Laws/Dma.lean ====
section
/-! SUPPORT. The DMA sequencer: one copy, a run of copies, and the whole movement as the list of its copies. -/

namespace Sys2Proof.Machine

theorem State.afterCopies_nil (s : State) (S D : Fin 16) : s.afterCopies S D [] = s := rfl

theorem State.afterCopies_cons (s : State) (S D : Fin 16) (c : DmaStep) (cs : List DmaStep) :
    s.afterCopies S D (c :: cs) =
      ((s.readAt S c.src.toNat c.n).2.writeAt D c.dst.toNat c.n (s.readAt S c.src.toNat c.n).1).afterCopies S D cs :=
  rfl

theorem State.afterCopies_append (s : State) (S D : Fin 16) (as bs : List DmaStep) :
    s.afterCopies S D (as ++ bs) = (s.afterCopies S D as).afterCopies S D bs := by
  induction as generalizing s with
  | nil => rfl
  | cons a as ih => exact ih _

/-- Whatever every in-range copy keeps, a list of in-range copies keeps. -/
theorem State.afterCopies_induct {P : State → Prop} {S D : Fin 16} {cs : List DmaStep} {s : State}
    (hstep : ∀ c ∈ cs, ∀ u, P u → P ((u.readAt S c.src.toNat c.n).2.writeAt D c.dst.toNat c.n
      (u.readAt S c.src.toNat c.n).1)) (h : P s) : P (s.afterCopies S D cs) := by
  induction cs generalizing s with
  | nil => exact h
  | cons c cs ih =>
    rw [State.afterCopies_cons]
    exact ih (fun x hx => hstep x (List.mem_cons_of_mem c hx)) (hstep c List.mem_cons_self s h)

/-- Copies keep the size of every slot. -/
theorem State.afterCopies_size (s : State) (S D : Fin 16) (cs : List DmaStep) (q : Fin 16) :
    ((s.afterCopies S D cs).slot q).size = (s.slot q).size := by
  refine State.afterCopies_induct (P := fun u => (u.slot q).size = (s.slot q).size) ?_ rfl
  intro c _ u hu
  rw [← hu, State.writeAt_slot]
  by_cases hq : q = D
  · subst hq; simp
  · simp [hq]

/-- Copies leave every slot but the destination. -/
theorem State.afterCopies_slot_other (s : State) (S D : Fin 16) (cs : List DmaStep) {q : Fin 16} (hq : q ≠ D) :
    (s.afterCopies S D cs).slot q = s.slot q := by
  refine State.afterCopies_induct (P := fun u => u.slot q = s.slot q) ?_ rfl
  intro c _ u hu
  rw [← hu, State.writeAt_slot, if_neg hq, State.readAt_slot]

@[simp] theorem State.afterCopies_timing (s : State) (S D : Fin 16) (cs : List DmaStep) :
    (s.afterCopies S D cs).timing = s.timing :=
  State.afterCopies_induct (P := fun u => u.timing = s.timing) (fun c _ u hu => by simp [hu]) rfl

@[simp] theorem State.afterCopies_icache (s : State) (S D : Fin 16) (cs : List DmaStep) :
    (s.afterCopies S D cs).icache = s.icache :=
  State.afterCopies_induct (P := fun u => u.icache = s.icache) (fun c _ u hu => by simp [hu]) rfl

@[simp] theorem State.afterCopies_cycles (s : State) (S D : Fin 16) (cs : List DmaStep) :
    (s.afterCopies S D cs).cycles = s.cycles :=
  State.afterCopies_induct (P := fun u => u.cycles = s.cycles) (fun c _ u hu => by simp [hu]) rfl

@[simp] theorem State.afterCopies_dmacnt (s : State) (S D : Fin 16) (cs : List DmaStep) :
    (s.afterCopies S D cs).dmacnt = s.dmacnt :=
  State.afterCopies_induct (P := fun u => u.dmacnt = s.dmacnt) (fun c _ u hu => by simp [hu]) rfl

@[simp] theorem State.afterCopies_desc (s : State) (S D : Fin 16) (cs : List DmaStep) :
    (s.afterCopies S D cs).desc = s.desc :=
  State.afterCopies_induct (P := fun u => u.desc = s.desc) (fun c _ u hu => by simp [hu]) rfl

@[simp] theorem State.afterCopies_buffers (s : State) (S D : Fin 16) (cs : List DmaStep) :
    (s.afterCopies S D cs).buffers = s.buffers :=
  State.afterCopies_induct (P := fun u => u.buffers = s.buffers) (fun c _ u hu => by simp [hu]) rfl

@[simp] theorem State.afterCopies_port (s : State) (S D : Fin 16) (cs : List DmaStep) :
    (s.afterCopies S D cs).port = s.port :=
  State.afterCopies_induct (P := fun u => u.port = s.port) (fun c _ u hu => by simp [hu]) rfl

@[simp] theorem State.afterCopies_cycAdd (s : State) (S D : Fin 16) (cs : List DmaStep) :
    (s.afterCopies S D cs).resp.cycAdd = s.resp.cycAdd :=
  State.afterCopies_induct (P := fun u => u.resp.cycAdd = s.resp.cycAdd) (fun c _ u hu => by simp [hu]) rfl

@[simp] theorem State.afterCopies_rdata (s : State) (S D : Fin 16) (cs : List DmaStep) :
    (s.afterCopies S D cs).resp.rdata = s.resp.rdata :=
  State.afterCopies_induct (P := fun u => u.resp.rdata = s.resp.rdata) (fun c _ u hu => by simp [hu]) rfl

@[simp] theorem State.afterCopies_info (s : State) (S D : Fin 16) (cs : List DmaStep) :
    (s.afterCopies S D cs).resp.info = s.resp.info :=
  State.afterCopies_induct (P := fun u => u.resp.info = s.resp.info) (fun c _ u hu => by simp [hu]) rfl

/-- One copy: it succeeds exactly when both sides are in range, and then it is the read followed by the write
(44_dma.md R114). -/
theorem dmaCopy_eq_ok {chan : BitVec 2} {S D : Fin 16} {c : Cursor} {n : Width} {s t : State} :
    dmaCopy chan S D c n s = .ok t ↔
      DmaStep.fits (s.slot S).size (s.slot D).size { n := n, src := c.src, dst := c.dst } ∧
        t = s.afterCopies S D [{ n := n, src := c.src, dst := c.dst }] := by
  simp only [dmaCopy, DmaStep.fits]
  cases hr : s.viewRead S c.src n with
  | none =>
    rw [State.viewRead_eq_none] at hr
    simp only [reduceCtorEq, false_iff]
    rintro ⟨⟨h1, h2, -⟩, -⟩; omega
  | some x =>
    rw [State.viewRead_eq_some] at hr
    obtain ⟨o, ho, hin, rfl⟩ := hr
    have hto : c.src.toNat = o := by omega
    cases hw : State.viewWrite (s.readAt S o n).2 D c.dst n (s.readAt S o n).1 with
    | none =>
      have hw' := hw
      rw [State.viewWrite_eq_none, State.readAt_slot] at hw
      simp only [hw', reduceCtorEq, false_iff]
      rintro ⟨⟨-, -, h3, h4⟩, -⟩; omega
    | some u =>
      have hw' := hw
      rw [State.viewWrite_eq_some, State.readAt_slot] at hw
      obtain ⟨p, hp, hpin, rfl⟩ := hw
      have htp : c.dst.toNat = p := by omega
      simp only [hw', Except.ok.injEq, State.afterCopies_cons, State.afterCopies_nil, hto, htp]
      constructor
      · rintro rfl; exact ⟨⟨by omega, by omega, by omega, by omega⟩, rfl⟩
      · rintro ⟨-, rfl⟩; rfl

/-- A copy that does not succeed names the side that left its view, the source side first (R114, 60_exceptions.md
R136). -/
theorem dmaCopy_eq_error {chan : BitVec 2} {S D : Fin 16} {c : Cursor} {n : Width} {s : State} {f : Fault} :
    dmaCopy chan S D c n s = .error f ↔
      ((c.src < 0 ∨ (s.slot S).size < c.src + n.bytes) ∧ f = .fOffsetDma chan .source) ∨
      (0 ≤ c.src ∧ c.src + n.bytes ≤ (s.slot S).size ∧ (c.dst < 0 ∨ (s.slot D).size < c.dst + n.bytes) ∧
        f = .fOffsetDma chan .destination) := by
  simp only [dmaCopy]
  cases hr : s.viewRead S c.src n with
  | none =>
    rw [State.viewRead_eq_none] at hr
    simp only [Except.error.injEq]
    constructor
    · rintro rfl; exact .inl ⟨hr, rfl⟩
    · rintro (⟨-, rfl⟩ | ⟨h1, h2, -⟩)
      · rfl
      · omega
  | some x =>
    rw [State.viewRead_eq_some] at hr
    obtain ⟨o, ho, hin, rfl⟩ := hr
    cases hw : State.viewWrite (s.readAt S o n).2 D c.dst n (s.readAt S o n).1 with
    | none =>
      have hw' := hw
      rw [State.viewWrite_eq_none, State.readAt_slot] at hw
      simp only [hw', Except.error.injEq]
      constructor
      · rintro rfl; exact .inr ⟨by omega, by omega, hw, rfl⟩
      · rintro (⟨h, -⟩ | ⟨-, -, -, rfl⟩)
        · omega
        · rfl
    | some u =>
      have hw' := hw
      rw [State.viewWrite_eq_some, State.readAt_slot] at hw
      obtain ⟨p, hp, hpin, rfl⟩ := hw
      simp only [hw', reduceCtorEq, false_iff]
      rintro (⟨h, -⟩ | ⟨-, -, h, -⟩) <;> omega

@[simp] theorem dmaRun_zero (n : Width) (a b ss ds : Int) : dmaRun n a b ss ds 0 = [] := rfl

theorem dmaRun_succ (n : Width) (a b ss ds : Int) (k : Nat) :
    dmaRun n a b ss ds (k + 1) = { n := n, src := a, dst := b } :: dmaRun n (a + ss) (b + ds) ss ds k := by
  simp only [dmaRun, List.range_succ_eq_map, List.map_cons, List.map_map]
  congr 1
  · simp
  · apply List.map_congr_left
    intro i _
    simp only [Function.comp, DmaStep.mk.injEq, true_and]
    constructor <;> push_cast <;> ring

@[simp] theorem dmaRun_one (n : Width) (a b ss ds : Int) :
    dmaRun n a b ss ds 1 = [{ n := n, src := a, dst := b }] := by
  rw [dmaRun_succ, dmaRun_zero]

/-- A run of copies: it succeeds exactly when every copy is in range, the cursor has then advanced by all the steps, and
the state is the one the listed copies leave. -/
theorem dmaCopies_eq_ok {chan : BitVec 2} {S D : Fin 16} {n : Width} {ss ds : Int} {k : Nat} {c e : Cursor}
    {s t : State} :
    dmaCopies chan S D n ss ds k c s = .ok (e, t) ↔
      (∀ x ∈ dmaRun n c.src c.dst ss ds k, DmaStep.fits (s.slot S).size (s.slot D).size x) ∧
        e = { src := c.src + k * ss, dst := c.dst + k * ds } ∧
        t = s.afterCopies S D (dmaRun n c.src c.dst ss ds k) := by
  induction k generalizing c s with
  | zero =>
    simp only [dmaCopies, Except.ok.injEq, Prod.mk.injEq, dmaRun_zero, List.not_mem_nil, false_imp_iff, implies_true,
      true_and, State.afterCopies_nil]
    constructor
    · rintro ⟨rfl, rfl⟩; simp
    · rintro ⟨rfl, rfl⟩; simp
  | succ k ih =>
    simp only [dmaCopies]
    rw [dmaRun_succ]
    cases hc : dmaCopy chan S D c n s with
    | error f =>
      simp only [reduceCtorEq, false_iff]
      rintro ⟨h, -⟩
      have h0 := h _ List.mem_cons_self
      rw [dmaCopy_eq_error] at hc
      simp only [DmaStep.fits] at h0
      rcases hc with ⟨hc, -⟩ | ⟨-, -, hc, -⟩ <;> omega
    | ok u =>
      rw [dmaCopy_eq_ok] at hc
      obtain ⟨hfit, rfl⟩ := hc
      simp only [ih, State.afterCopies_size, List.forall_mem_cons]
      have hcons : ∀ x xs, s.afterCopies S D (x :: xs) = (s.afterCopies S D [x]).afterCopies S D xs := fun _ _ => rfl
      rw [hcons]
      have e1 : ∀ (x y : Int), x + y + (k : Int) * y = x + ((k + 1 : Nat) : Int) * y := by
        intro x y; push_cast; ring
      simp only [e1]
      constructor
      · rintro ⟨h1, h2, h3⟩; exact ⟨⟨hfit, h1⟩, h2, h3⟩
      · rintro ⟨⟨-, h1⟩, h2, h3⟩; exact ⟨h1, h2, h3⟩

/-- No copy is out of range exactly when all are in range. -/
theorem firstUnfit_eq_none {m n : Nat} {cs : List DmaStep} :
    firstUnfit m n cs = none ↔ ∀ x ∈ cs, DmaStep.fits m n x := by
  induction cs with
  | nil => simp [firstUnfit]
  | cons c cs ih =>
    rw [List.forall_mem_cons, ← ih, firstUnfit, DmaStep.fits]
    split_ifs with h1 h2
    · exact ⟨nofun, fun h => by omega⟩
    · exact ⟨nofun, fun h => by omega⟩
    · exact ⟨fun h => ⟨by omega, h⟩, fun h => h.2⟩

/-- A list's first copy out of range is that of what follows the copies in range. -/
theorem firstUnfit_append {m n : Nat} {as bs : List DmaStep} (h : ∀ x ∈ as, DmaStep.fits m n x) :
    firstUnfit m n (as ++ bs) = firstUnfit m n bs := by
  induction as with
  | nil => rfl
  | cons a as ih =>
    obtain ⟨⟨h1, h2, h3, h4⟩, h5⟩ := List.forall_mem_cons.1 h
    rw [List.cons_append, firstUnfit, if_neg (by omega), if_neg (by omega), ih h5]

/-- A copy that stops a list stops every longer list. -/
theorem firstUnfit_append_of_some {m n : Nat} {as bs : List DmaStep} {side : DmaSide}
    (h : firstUnfit m n as = some side) : firstUnfit m n (as ++ bs) = some side := by
  induction as with
  | nil => cases h
  | cons a as ih =>
    simp only [List.cons_append, firstUnfit] at h ⊢
    split_ifs at h ⊢
    · exact h
    · exact h
    · exact ih h

/-- A copy that does not succeed is a list of one copy whose first copy is out of range. -/
theorem dmaCopy_error_side {chan : BitVec 2} {S D : Fin 16} {c : Cursor} {n : Width} {s : State} {f : Fault}
    (h : dmaCopy chan S D c n s = .error f) :
    ∃ side, f = .fOffsetDma chan side ∧
      ∀ cs, firstUnfit (s.slot S).size (s.slot D).size ({ n := n, src := c.src, dst := c.dst } :: cs) = some side := by
  rcases dmaCopy_eq_error.1 h with ⟨hc, rfl⟩ | ⟨h1, h2, hc, rfl⟩
  · exact ⟨_, rfl, fun cs => by rw [firstUnfit, if_pos hc]⟩
  · exact ⟨_, rfl, fun cs => by rw [firstUnfit, if_neg (by simp only; omega), if_pos hc]⟩

/-- A run of copies that stops, stops with `F_OFFSET` of its channel and the side of its first copy out of range. -/
theorem dmaCopies_eq_error {chan : BitVec 2} {S D : Fin 16} {n : Width} {ss ds : Int} {k : Nat} {c : Cursor} {s : State}
    {f : Fault} (h : dmaCopies chan S D n ss ds k c s = .error f) :
    ∃ side, f = .fOffsetDma chan side ∧
      firstUnfit (s.slot S).size (s.slot D).size (dmaRun n c.src c.dst ss ds k) = some side := by
  induction k generalizing c s with
  | zero => simp [dmaCopies] at h
  | succ k ih =>
    simp only [dmaCopies] at h
    rw [dmaRun_succ]
    cases hc : dmaCopy chan S D c n s with
    | error g =>
      rw [hc] at h; cases h
      obtain ⟨side, h1, h2⟩ := dmaCopy_error_side hc
      exact ⟨side, h1, h2 _⟩
    | ok u =>
      rw [hc] at h
      obtain ⟨side, h1, h2⟩ := ih h
      rw [dmaCopy_eq_ok] at hc
      obtain ⟨hfit, rfl⟩ := hc
      rw [State.afterCopies_size, State.afterCopies_size] at h2
      refine ⟨side, h1, ?_⟩
      rw [← h2]
      exact firstUnfit_append (as := [_]) (List.forall_mem_singleton.2 hfit)

/-- The paired loop and the last element, as the list of their copies (R116). -/
theorem dmaPairs_eq_ok {chan : BitVec 2} {S D : Fin 16} {ss ds : Int} {k : Nat} {c : Cursor} {s t : State} :
    dmaPairs chan S D ss ds k c s = .ok t ↔
      (∀ x ∈ dmaRun .b4 c.src c.dst (2 * ss) (2 * ds) (k / 2) ++
          dmaRun .b2 (c.src + (k / 2 : Nat) * (2 * ss)) (c.dst + (k / 2 : Nat) * (2 * ds)) ss ds (k % 2),
        DmaStep.fits (s.slot S).size (s.slot D).size x) ∧
      t = s.afterCopies S D (dmaRun .b4 c.src c.dst (2 * ss) (2 * ds) (k / 2) ++
          dmaRun .b2 (c.src + (k / 2 : Nat) * (2 * ss)) (c.dst + (k / 2 : Nat) * (2 * ds)) ss ds (k % 2)) := by
  simp only [dmaPairs]
  cases hc : dmaCopies chan S D .b4 (2 * ss) (2 * ds) (k / 2) c s with
  | error f =>
    obtain ⟨side, -, hn⟩ := dmaCopies_eq_error hc
    simp only [reduceCtorEq, false_iff]
    rintro ⟨h, -⟩
    rw [firstUnfit_eq_none.2 fun x hx => h x (List.mem_append_left _ hx)] at hn
    cases hn
  | ok y =>
    obtain ⟨e, u⟩ := y
    rw [dmaCopies_eq_ok] at hc
    obtain ⟨hfit, rfl, rfl⟩ := hc
    rw [State.afterCopies_append]
    rcases Nat.mod_two_eq_zero_or_one k with hk | hk
    · simp only [hk, Nat.zero_ne_one, if_false, dmaRun_zero, List.append_nil, State.afterCopies_nil, Except.ok.injEq]
      exact ⟨fun h => ⟨hfit, h.symm⟩, fun h => h.2.symm⟩
    · simp only [hk, if_true, dmaRun_one, dmaCopy_eq_ok, State.afterCopies_size, List.mem_append, List.mem_singleton]
      constructor
      · rintro ⟨h1, h2⟩
        refine ⟨?_, h2⟩
        rintro x (hx | rfl)
        · exact hfit x hx
        · exact h1
      · rintro ⟨h1, h2⟩
        exact ⟨h1 _ (.inr rfl), h2⟩

/-- The paired loop that stops, stops with the side of its first copy out of range. -/
theorem dmaPairs_eq_error {chan : BitVec 2} {S D : Fin 16} {ss ds : Int} {k : Nat} {c : Cursor} {s : State} {f : Fault}
    (h : dmaPairs chan S D ss ds k c s = .error f) :
    ∃ side, f = .fOffsetDma chan side ∧ firstUnfit (s.slot S).size (s.slot D).size
      (dmaRun .b4 c.src c.dst (2 * ss) (2 * ds) (k / 2) ++
        dmaRun .b2 (c.src + (k / 2 : Nat) * (2 * ss)) (c.dst + (k / 2 : Nat) * (2 * ds)) ss ds (k % 2)) = some side := by
  simp only [dmaPairs] at h
  cases hc : dmaCopies chan S D .b4 (2 * ss) (2 * ds) (k / 2) c s with
  | error g =>
    rw [hc] at h; cases h
    obtain ⟨side, h1, h2⟩ := dmaCopies_eq_error hc
    exact ⟨side, h1, firstUnfit_append_of_some h2⟩
  | ok y =>
    obtain ⟨e, u⟩ := y
    rw [hc] at h
    rw [dmaCopies_eq_ok] at hc
    obtain ⟨hfit, rfl, rfl⟩ := hc
    simp only at h
    split at h
    · rename_i hk
      obtain ⟨side, h1, h2⟩ := dmaCopy_error_side h
      simp only [State.afterCopies_size] at h2
      refine ⟨side, h1, ?_⟩
      rw [firstUnfit_append hfit, hk, dmaRun_one]
      exact h2 []
    · cases h

/-- The whole movement of a transfer with a positive count: it succeeds exactly when every copy of the schedule is in
range, and then leaves what those copies leave, in order (R110, R114 to R116). -/
theorem dmaMove_eq_ok {chan : BitVec 2} {d : Descriptor} {S D : Fin 16} {s t : State} (hcount : 1 ≤ d.count.toNat) :
    dmaMove chan d S D s = .ok t ↔
      (∀ x ∈ dmaSchedule d, DmaStep.fits (s.slot S).size (s.slot D).size x) ∧
        t = s.afterCopies S D (dmaSchedule d) := by
  cases hw : d.w32 with
  | true =>
    simp only [dmaMove, dmaSchedule, hw, if_true, dmaBody32]
    cases hc : dmaCopies chan S D .b4 (dmaStep d.srcCtl (dmaWidth true)) (dmaStep d.dstCtl (dmaWidth true))
      d.count.toNat { src := offsetOf d.src, dst := offsetOf d.dst } s with
    | error f =>
      obtain ⟨side, -, hn⟩ := dmaCopies_eq_error hc
      simp only [reduceCtorEq, false_iff]
      rintro ⟨h, -⟩
      rw [firstUnfit_eq_none.2 h] at hn
      cases hn
    | ok y =>
      obtain ⟨e, u⟩ := y
      rw [dmaCopies_eq_ok] at hc
      obtain ⟨hfit, -, rfl⟩ := hc
      simp only [Except.ok.injEq]
      exact ⟨fun h => ⟨hfit, h.symm⟩, fun h => h.2.symm⟩
  | false =>
    simp only [dmaMove, dmaSchedule, hw, Bool.false_eq_true, if_false, dmaBody16, dmaPrologue]
    by_cases hp : offsetOf d.src / 2 % 2 = 1
    · simp only [hp, decide_true, if_true, dmaRun_one]
      cases hc : dmaCopies chan S D .b2 (dmaStep d.srcCtl (dmaWidth false)) (dmaStep d.dstCtl (dmaWidth false)) 1
        { src := offsetOf d.src, dst := offsetOf d.dst } s with
      | error f =>
        obtain ⟨side, -, hn⟩ := dmaCopies_eq_error hc
        simp only [reduceCtorEq, false_iff]
        rintro ⟨h, -⟩
        rw [dmaRun_one] at hn
        rw [firstUnfit_eq_none.2 fun x hx => h x (by simp [List.mem_singleton.1 hx])] at hn
        cases hn
      | ok y =>
        obtain ⟨e, u⟩ := y
        rw [dmaCopies_eq_ok] at hc
        obtain ⟨hfit, rfl, rfl⟩ := hc
        simp only [dmaPairs_eq_ok, dmaRun_one, State.afterCopies_size, List.append_assoc]
        rw [State.afterCopies_append s S D [_]]
        have e1 : ∀ a b : Int, a + (1 : Nat) * b + ((d.count.toNat - 1) / 2 : Nat) * (2 * b) =
            a + ((d.count.toNat - 1) / 2 * 2 + 1 : Nat) * b := by
          intro a b; push_cast; ring
        have e2 : (d.count.toNat - 1) % 2 = 1 → (d.count.toNat - 1) / 2 * 2 + 1 = d.count.toNat - 1 := by omega
        rcases Nat.mod_two_eq_zero_or_one (d.count.toNat - 1) with hk | hk
        · simp only [hk, dmaRun_zero, List.append_nil, List.cons_append, List.nil_append, List.forall_mem_cons]
          simp only [dmaRun_one, List.forall_mem_singleton] at hfit
          exact ⟨fun h => ⟨⟨hfit, h.1⟩, h.2⟩, fun h => ⟨h.1.2, h.2⟩⟩
        · simp only [e1, e2 hk, List.cons_append, List.nil_append, List.forall_mem_cons]
          simp only [dmaRun_one, List.forall_mem_singleton] at hfit
          exact ⟨fun h => ⟨⟨hfit, h.1⟩, h.2⟩, fun h => ⟨h.1.2, h.2⟩⟩
    · have e1 : ∀ a b : Int, a + (d.count.toNat / 2 : Nat) * (2 * b) = a + (d.count.toNat / 2 * 2 : Nat) * b := by
        intro a b; push_cast; ring
      have e2 : d.count.toNat % 2 = 1 → d.count.toNat / 2 * 2 = d.count.toNat - 1 := by omega
      simp only [hp, decide_false, Bool.false_eq_true, if_false, dmaPairs_eq_ok, dmaRun_zero, List.nil_append,
        Nat.sub_zero, Nat.cast_zero, zero_mul, add_zero, e1]
      rcases Nat.mod_two_eq_zero_or_one d.count.toNat with hk | hk
      · simp only [hk, dmaRun_zero]
      · simp only [e2 hk]

/-- A movement that stops, stops with `F_OFFSET` of its channel, "never `F_REGION`" (R110), and the side of the first copy
of its schedule that is out of range (60_exceptions.md R136). -/
theorem dmaMove_eq_error {chan : BitVec 2} {d : Descriptor} {S D : Fin 16} {s : State} {f : Fault}
    (hcount : 1 ≤ d.count.toNat) (h : dmaMove chan d S D s = .error f) :
    ∃ side, f = .fOffsetDma chan side ∧
      firstUnfit (s.slot S).size (s.slot D).size (dmaSchedule d) = some side := by
  cases hw : d.w32 with
  | true =>
    simp only [dmaMove, hw, if_true, dmaBody32] at h
    simp only [dmaSchedule, hw, if_true]
    split at h
    · rename_i g hc; cases h; exact dmaCopies_eq_error hc
    · cases h
  | false =>
    simp only [dmaMove, hw, Bool.false_eq_true, if_false, dmaBody16] at h
    simp only [dmaSchedule, hw, Bool.false_eq_true, if_false, dmaPrologue, List.append_assoc]
    by_cases hp : offsetOf d.src / 2 % 2 = 1
    · simp only [hp, decide_true, if_true] at h ⊢
      split at h
      · rename_i g hc; cases h
        obtain ⟨side, h1, h2⟩ := dmaCopies_eq_error hc
        exact ⟨side, h1, firstUnfit_append_of_some h2⟩
      · rename_i e u hc
        rw [dmaCopies_eq_ok] at hc
        obtain ⟨hfit, rfl, rfl⟩ := hc
        obtain ⟨side, h1, h2⟩ := dmaPairs_eq_error h
        refine ⟨side, h1, ?_⟩
        rw [firstUnfit_append hfit, ← h2]
        simp only [State.afterCopies_size]
        have e1 : ∀ a b : Int, a + (1 : Nat) * b + ((d.count.toNat - 1) / 2 : Nat) * (2 * b) =
            a + ((d.count.toNat - 1) / 2 * 2 + 1 : Nat) * b := by
          intro a b; push_cast; ring
        have e2 : (d.count.toNat - 1) % 2 = 1 → (d.count.toNat - 1) / 2 * 2 + 1 = d.count.toNat - 1 := by omega
        rcases Nat.mod_two_eq_zero_or_one (d.count.toNat - 1) with hk | hk
        · simp only [hk, dmaRun_zero]
        · simp only [e1, e2 hk]
    · simp only [hp, decide_false, Bool.false_eq_true, if_false] at h ⊢
      obtain ⟨side, h1, h2⟩ := dmaPairs_eq_error h
      refine ⟨side, h1, ?_⟩
      rw [← h2]
      have e1 : ∀ a b : Int, a + (d.count.toNat / 2 : Nat) * (2 * b) = a + (d.count.toNat / 2 * 2 : Nat) * b := by
        intro a b; push_cast; ring
      have e2 : d.count.toNat % 2 = 1 → d.count.toNat / 2 * 2 = d.count.toNat - 1 := by omega
      simp only [dmaRun_zero, List.nil_append, Nat.sub_zero, Nat.cast_zero, zero_mul, add_zero, e1]
      rcases Nat.mod_two_eq_zero_or_one d.count.toNat with hk | hk
      · simp only [hk, dmaRun_zero]
      · simp only [e2 hk]

end Sys2Proof.Machine
end

