-- ==== Sys2Proof/Laws/Exec.lean ====
section
/-! SUPPORT. The meanings' shared shapes: for a load, a store, a wait and a transfer, once, when it completes and with
what state, when it faults and with what fault. -/

namespace Sys2Proof.Machine

@[simp] theorem State.begin_mappedSlot (s : State) (a : Word) : s.begin.mappedSlot a = s.mappedSlot a := rfl

/-- A load completes exactly on a mapped address whose access ends inside the view; its state is the read's, with the
widened value on the response port (41_load_store.md R80). -/
theorem loadWith_eq_next {n : Width} {w : Word → Word} {a : Word} {s t : State} :
    loadWith n w a s = .next t ↔
      ∃ r, s.mappedSlot a = some r ∧ offsetOf a + n.bytes ≤ (s.slot r).size ∧
        t = (s.begin.readAt r (offsetOf a) n).2.putRdata (w (s.begin.readAt r (offsetOf a) n).1) := by
  simp only [loadWith]
  cases h : s.begin.memRead a n with
  | error f =>
    rw [State.memRead_eq_error, State.begin_mappedSlot] at h
    simp only [raise, reduceCtorEq, false_iff]
    rintro ⟨r, h1, h2, -⟩
    rcases h with ⟨h, -⟩ | ⟨q, h, h3, -⟩
    · rw [h] at h1; cases h1
    · rw [h] at h1; cases h1; simp only [State.begin_slot] at h3; omega
  | ok x =>
    rw [State.memRead_eq_ok, State.begin_mappedSlot] at h
    obtain ⟨r, h1, h2, rfl⟩ := h
    simp only [Host.Outcome.next.injEq]
    constructor
    · rintro rfl; exact ⟨r, h1, h2, rfl⟩
    · rintro ⟨q, h3, -, rfl⟩; rw [h1] at h3; cases h3; rfl

/-- A load from a slot with bytes: the little-endian value of the bytes, widened, on an otherwise blank response, and
nothing else changed (R80). -/
theorem loadWith_bytes {n : Width} {w : Word → Word} {a : Word} {s : State} {r : Fin 16} (hi : slotIndex a = some r)
    (hb : (s.slot r).hasBytes = true) (ho : offsetOf a + n.bytes ≤ (s.slot r).size) :
    loadWith n w a s =
      .next { s with resp := { Response.blank with rdata := some (w (BitVec.ofNat 32 (valueOfBytes
        ((List.range n.bytes).map (fun i => (s.byteIn r (offsetOf a + i)).getD 0))))) } } := by
  refine loadWith_eq_next.2 ⟨r, State.mappedSlot_of_hasBytes hi hb, ho, ?_⟩
  rw [State.readAt_bytes (by simpa using hb) (by simpa using ho)]
  rfl

/-- A load faults exactly on an unmapped region, or else on an access that leaves the view (R80, R136). -/
theorem loadWith_eq_fault {n : Width} {w : Word → Word} {a : Word} {s : State} {f : Fault} :
    loadWith n w a s = .fault f ↔
      (s.mappedSlot a = none ∧ f = .fRegion a) ∨
      (∃ r, s.mappedSlot a = some r ∧ (s.slot r).size < offsetOf a + n.bytes ∧ f = .fOffset a) := by
  simp only [loadWith]
  cases h : s.begin.memRead a n with
  | error g =>
    simp only [raise, Host.Outcome.fault.injEq]
    constructor
    · rintro rfl; rw [State.memRead_eq_error] at h; exact h
    · intro h2
      have : s.begin.memRead a n = .error f := State.memRead_eq_error.2 h2
      rw [h] at this; cases this; rfl
  | ok x =>
    simp only [reduceCtorEq, false_iff]
    intro h2
    have : s.begin.memRead a n = .error f := State.memRead_eq_error.2 h2
    rw [h] at this; cases this

/-- A store completes exactly on a mapped address whose aligned access ends inside the view; its state is the write's,
with the covered pages removed (R80, R86 to R88). -/
theorem storeWith_eq_next {n : Width} {a v : Word} {s t : State} :
    storeWith n a v s = .next t ↔
      ∃ r, s.mappedSlot a = some r ∧ offsetOf (alignDown n a) + n.bytes ≤ (s.slot r).size ∧
        t = (s.begin.writeAt r (offsetOf (alignDown n a)) n v).invalidateAll (storePages n a) := by
  simp only [storeWith]
  cases h : s.begin.memWrite (alignDown n a) n v with
  | error f =>
    rw [State.memWrite_eq_error, State.begin_mappedSlot, State.mappedSlot_alignDown] at h
    simp only [raise, reduceCtorEq, false_iff]
    rintro ⟨r, h1, h2, -⟩
    rcases h with ⟨h, -⟩ | ⟨q, h, h3, -⟩
    · rw [h] at h1; cases h1
    · rw [h] at h1; cases h1; simp only [State.begin_slot] at h3; omega
  | ok x =>
    rw [State.memWrite_eq_ok, State.begin_mappedSlot, State.mappedSlot_alignDown] at h
    obtain ⟨r, h1, h2, rfl⟩ := h
    simp only [Host.Outcome.next.injEq]
    constructor
    · rintro rfl; exact ⟨r, h1, h2, rfl⟩
    · rintro ⟨q, h3, -, rfl⟩; rw [h1] at h3; cases h3; rfl

/-- A store faults exactly on an unmapped region, or else on an aligned access that leaves the view; the fault records the
address presented (R130). -/
theorem storeWith_eq_fault {n : Width} {a v : Word} {s : State} {f : Fault} :
    storeWith n a v s = .fault f ↔
      (s.mappedSlot a = none ∧ f = .fRegion a) ∨
      (∃ r, s.mappedSlot a = some r ∧ (s.slot r).size < offsetOf (alignDown n a) + n.bytes ∧ f = .fOffset a) := by
  simp only [storeWith]
  cases h : s.begin.memWrite (alignDown n a) n v with
  | error g =>
    simp only [State.memWrite_eq_error, State.begin_mappedSlot, State.mappedSlot_alignDown, State.begin_slot] at h
    simp only [raise, Host.Outcome.fault.injEq]
    rcases h with ⟨h, rfl⟩ | ⟨r, h, hr, rfl⟩
    · simp [h, Fault.presenting, eq_comm]
    · simp [h, hr, Fault.presenting, eq_comm]
  | ok x =>
    simp only [State.memWrite_eq_ok, State.begin_mappedSlot, State.mappedSlot_alignDown, State.begin_slot] at h
    obtain ⟨r, h, hr, -⟩ := h
    simp [h, hr]

/-- A wait completes exactly for a region index below 16 (43_timing.md R101). -/
theorem waitWith_eq_next {k : TableKind} {a : Word} {s t : State} :
    waitWith k a s = .next t ↔ ∃ r, slotIndex a = some r ∧ t = s.begin.charge (1 + s.timing.entry k r) := by
  simp only [waitWith]
  cases slotIndex a <;> simp [raise, eq_comm]

theorem waitWith_eq_fault {k : TableKind} {a : Word} {s : State} {f : Fault} :
    waitWith k a s = .fault f ↔ slotIndex a = none ∧ f = .fRegion a := by
  simp only [waitWith]
  cases slotIndex a <;> simp [raise, eq_comm]

/-- What a transfer can do when it goes on: report an unmapped side and change nothing else, or perform its schedule,
charge and complete (44_dma.md R110, R113). -/
theorem execDmaXfer_eq_next {chan : BitVec 2} {d : Descriptor} {s t : State} :
    execDmaXfer chan d s = .next t ↔
      (1 ≤ d.count.toNat ∧ d.count.toNat ≤ 0x10000) ∧
      (((s.mappedSlot d.src = none ∨ s.mappedSlot d.dst = none) ∧
          t = (s.begin.putDesc d).emit (.dmaInvalid chan)) ∨
        (∃ S D, s.mappedSlot d.src = some S ∧ s.mappedSlot d.dst = some D ∧
          (∀ x ∈ dmaSchedule d, DmaStep.fits (s.slot S).size (s.slot D).size x) ∧
          t = (((s.begin.putDesc d).afterCopies S D (dmaSchedule d)).charge
            (dmaCost s.timing d.w32 S D d.count.toNat)).dmaComplete chan d)) := by
  simp only [execDmaXfer, dmaCountMax]
  by_cases h0 : d.count.toNat = 0
  · simp [h0]
  by_cases h1 : 0x10000 < d.count.toNat
  · have : ¬ d.count.toNat ≤ 0x10000 := by omega
    simp [h0, h1, this]
  have hc : 1 ≤ d.count.toNat ∧ d.count.toNat ≤ 0x10000 := by omega
  simp only [h0, h1, if_false, hc, true_and, and_self]
  cases hS : s.mappedSlot d.src with
  | none => simp [eq_comm]
  | some S =>
    cases hD : s.mappedSlot d.dst with
    | none => simp [eq_comm]
    | some D =>
      simp only [reduceCtorEq, or_self, false_and, false_or, Option.some.injEq]
      cases hm : dmaMove chan d S D (s.begin.putDesc d) with
      | error f =>
        simp only [raise, reduceCtorEq, false_iff]
        rintro ⟨S', D', rfl, rfl, hfit, -⟩
        have := (dmaMove_eq_ok (chan := chan) (d := d) (S := S) (D := D) (s := (s.begin.putDesc d)) hc.1).2
          ⟨hfit, rfl⟩
        rw [hm] at this; cases this
      | ok u =>
        rw [dmaMove_eq_ok hc.1] at hm
        obtain ⟨hfit, rfl⟩ := hm
        simp only [Host.Outcome.next.injEq, State.afterCopies_timing]
        constructor
        · rintro rfl; exact ⟨S, D, rfl, rfl, hfit, rfl⟩
        · rintro ⟨S', D', rfl, rfl, -, rfl⟩; rfl

/-- When a transfer faults and with what: with `F_OFFSET` of its channel and the side of the first copy out of range, when
the count is legal and both sides are mapped (R110, R114, 60_exceptions.md R136). -/
theorem execDmaXfer_eq_fault {chan : BitVec 2} {d : Descriptor} {s : State} {f : Fault} :
    execDmaXfer chan d s = .fault f ↔
      (1 ≤ d.count.toNat ∧ d.count.toNat ≤ 0x10000) ∧
      ∃ S D side, s.mappedSlot d.src = some S ∧ s.mappedSlot d.dst = some D ∧
        firstUnfit (s.slot S).size (s.slot D).size (dmaSchedule d) = some side ∧ f = .fOffsetDma chan side := by
  simp only [execDmaXfer, dmaCountMax]
  by_cases h0 : d.count.toNat = 0
  · simp [h0]
  by_cases h1 : 0x10000 < d.count.toNat
  · have : ¬ d.count.toNat ≤ 0x10000 := by omega
    simp [h0, h1, this]
  have hc : 1 ≤ d.count.toNat ∧ d.count.toNat ≤ 0x10000 := by omega
  simp only [h0, h1, if_false, hc, true_and, and_self]
  cases hS : s.mappedSlot d.src with
  | none => simp
  | some S =>
    cases hD : s.mappedSlot d.dst with
    | none => simp
    | some D =>
      simp only [Option.some.injEq]
      cases hm : dmaMove chan d S D (s.begin.putDesc d) with
      | error g =>
        obtain ⟨side, rfl, hu⟩ := dmaMove_eq_error hc.1 hm
        simp only [raise, Host.Outcome.fault.injEq]
        constructor
        · rintro rfl; exact ⟨S, D, side, rfl, rfl, hu, rfl⟩
        · rintro ⟨S', D', side', rfl, rfl, hu', rfl⟩
          exact congrArg _ (Option.some.inj (hu.symm.trans hu'))
      | ok u =>
        rw [dmaMove_eq_ok hc.1] at hm
        simp only [reduceCtorEq, false_iff]
        rintro ⟨S', D', side', rfl, rfl, hu', -⟩
        exact nomatch (firstUnfit_eq_none.2 hm.1).symm.trans hu'

/-- Both sides mapped and every copy in range: the transfer does not fault, so it completes. -/
theorem execDmaXfer_completes {chan : BitVec 2} {d : Descriptor} {s : State} {S D : Fin 16}
    (hc : 1 ≤ d.count.toNat ∧ d.count.toNat ≤ 0x10000) (hS : s.mappedSlot d.src = some S)
    (hD : s.mappedSlot d.dst = some D)
    (hfit : ∀ x ∈ dmaSchedule d, DmaStep.fits (s.slot S).size (s.slot D).size x) :
    execDmaXfer chan d s = .next ((((s.begin.putDesc d).afterCopies S D (dmaSchedule d)).charge
      (dmaCost s.timing d.w32 S D d.count.toNat)).dmaComplete chan d) :=
  execDmaXfer_eq_next.2 ⟨hc, .inr ⟨S, D, hS, hD, hfit, rfl⟩⟩

theorem State.dmaComplete_eq (s : State) (chan : BitVec 2) (d : Descriptor) :
    s.dmaComplete chan d =
      { s with dmacnt := (s.dmaComplete chan d).dmacnt, desc := descAfterCompletion d } := by
  simp only [State.dmaComplete]
  split <;> rfl

@[simp] theorem State.dmaComplete_slots (s : State) (chan : BitVec 2) (d : Descriptor) :
    (s.dmaComplete chan d).slots = s.slots := by
  rw [State.dmaComplete_eq]

@[simp] theorem State.dmaComplete_timing (s : State) (chan : BitVec 2) (d : Descriptor) :
    (s.dmaComplete chan d).timing = s.timing := by
  rw [State.dmaComplete_eq]

@[simp] theorem State.dmaComplete_icache (s : State) (chan : BitVec 2) (d : Descriptor) :
    (s.dmaComplete chan d).icache = s.icache := by
  rw [State.dmaComplete_eq]

@[simp] theorem State.dmaComplete_cycles (s : State) (chan : BitVec 2) (d : Descriptor) :
    (s.dmaComplete chan d).cycles = s.cycles := by
  rw [State.dmaComplete_eq]

@[simp] theorem State.dmaComplete_buffers (s : State) (chan : BitVec 2) (d : Descriptor) :
    (s.dmaComplete chan d).buffers = s.buffers := by
  rw [State.dmaComplete_eq]

@[simp] theorem State.dmaComplete_port (s : State) (chan : BitVec 2) (d : Descriptor) :
    (s.dmaComplete chan d).port = s.port := by
  rw [State.dmaComplete_eq]

@[simp] theorem State.dmaComplete_resp (s : State) (chan : BitVec 2) (d : Descriptor) :
    (s.dmaComplete chan d).resp = s.resp := by
  rw [State.dmaComplete_eq]

@[simp] theorem State.dmaComplete_ioDraws (s : State) (chan : BitVec 2) (d : Descriptor) :
    (s.dmaComplete chan d).ioDraws = s.ioDraws := by
  rw [State.dmaComplete_eq]

@[simp] theorem State.dmaComplete_desc (s : State) (chan : BitVec 2) (d : Descriptor) :
    (s.dmaComplete chan d).desc = descAfterCompletion d := by
  rw [State.dmaComplete_eq]

@[simp] theorem State.dmaComplete_slot (s : State) (chan : BitVec 2) (d : Descriptor) (q : Fin 16) :
    (s.dmaComplete chan d).slot q = s.slot q :=
  State.slot_congr (State.dmaComplete_slots s chan d) q

/-- The control registers after a completion step: with `repeat` unset the channel's own is masked (44_dma.md R118), with
`repeat` set none changes (R119). -/
theorem State.dmaComplete_dmacntOf (s : State) (chan : BitVec 2) (d : Descriptor) (c : BitVec 2) :
    (s.dmaComplete chan d).dmacntOf c =
      if d.rep = false ∧ c = chan then dmacntAfterCompletion (s.dmacntOf chan) else s.dmacntOf c := by
  cases hr : d.rep with
  | true => simp only [State.dmaComplete, hr, if_true, Bool.true_eq_false, false_and, if_false]; rfl
  | false =>
    simp only [State.dmaComplete, hr, Bool.false_eq_true, if_false, true_and]
    exact State.setDmacnt_dmacntOf s chan c _

end Sys2Proof.Machine
end

