-- ==== Sys2Proof/Laws/Invariants.lean ====
section
/-! SUPPORT. The shared operations keep the canonical form and the slot layout. -/

namespace Sys2Proof.Machine

/-! ### The canonical form -/

/-- An in-range write keeps a slot's bytes canonical. -/
theorem Slot.written_canonical {x : Slot} (h : x.canonical = true) {o : Nat} {n : Width} (ho : o + n.bytes ≤ x.size)
    (v : Word) : (x.written o n v).canonical = true := by
  cases x with
  | rw size m =>
    simp only [Slot.canonical, Bool.and_eq_true] at h
    simp only [Slot.size] at ho
    simp only [Slot.written, Slot.canonical, Bool.and_eq_true]
    exact ⟨Memory.writeBytes_wf h.1 _ _, Memory.below_writeBytes h.2 _ _ (by simpa using ho)⟩
  | unmapped => rfl
  | ro b k size => rfl
  | io => rfl

/-- A fresh block is canonical. -/
theorem Slot.fresh_canonical (size : Nat) : (Slot.fresh size).canonical = true := rfl

/-- The memory of the power-on state is in canonical form. -/
theorem State.reset_blocks_canonical : ∀ r, (State.reset.slot r).canonical = true := by decide

/-- The canonical form depends on the slots, the page set and the buffers alone. -/
theorem State.Canonical.congr {s t : State} (h : s.Canonical) (h1 : t.slots = s.slots) (h2 : t.icache = s.icache)
    (h3 : t.buffers = s.buffers) : t.Canonical :=
  ⟨fun r => by rw [State.slot_congr h1]; exact h.blocks r, by rw [h2]; exact h.pages, by rw [h3]; exact h.buffers⟩

theorem State.Canonical.setSlot {s : State} (h : s.Canonical) (r : Fin 16) {x : Slot} (hx : x.canonical = true) :
    (s.setSlot r x).Canonical := by
  refine ⟨fun q => ?_, h.pages, h.buffers⟩
  rw [State.setSlot_slot]
  split
  · exact hx
  · exact h.blocks q

theorem State.Canonical.readAt {s : State} (h : s.Canonical) (r : Fin 16) (o : Nat) (n : Width) :
    (s.readAt r o n).2.Canonical :=
  h.congr (by simp) (by simp) (by simp)

/-- An in-range write keeps the state canonical. -/
theorem State.Canonical.writeAt {s : State} (h : s.Canonical) {r : Fin 16} {o : Nat} {n : Width}
    (ho : o + n.bytes ≤ (s.slot r).size) (v : Word) : (s.writeAt r o n v).Canonical := by
  refine ⟨fun q => ?_, by simpa using h.pages, by simpa using h.buffers⟩
  rw [State.writeAt_slot]
  split
  · exact Slot.written_canonical (h.blocks r) ho v
  · exact h.blocks q

theorem State.Canonical.invalidateAll {s : State} (h : s.Canonical) (ps : List Nat) : (s.invalidateAll ps).Canonical :=
  ⟨fun r => by simpa using h.blocks r, State.invalidateAll_wf h.pages ps, by simpa using h.buffers⟩

/-- Copies that are all in range keep the state canonical. -/
theorem State.Canonical.afterCopies {s : State} (h : s.Canonical) {S D : Fin 16} {cs : List DmaStep}
    (hfit : ∀ c ∈ cs, DmaStep.fits (s.slot S).size (s.slot D).size c) : (s.afterCopies S D cs).Canonical := by
  have key := State.afterCopies_induct (P := fun u => u.Canonical ∧ (u.slot D).size = (s.slot D).size) (S := S) (D := D)
    (cs := cs) (s := s) ?_ ⟨h, rfl⟩
  · exact key.1
  · rintro c hc u ⟨hu, hsz⟩
    obtain ⟨h1, h2, h3, h4⟩ := hfit c hc
    refine ⟨(hu.readAt S _ _).writeAt (by rw [State.readAt_slot, hsz]; omega) _, ?_⟩
    simp [hsz]

/-! ### The slot layout -/

/-- A slot without its bytes. -/
def Slot.shape : Slot → Slot
  | .rw size _ => .rw size []
  | x => x

@[simp] theorem Slot.written_shape (x : Slot) (o : Nat) (n : Width) (v : Word) : (x.written o n v).shape = x.shape := by
  cases x <;> rfl

theorem Slot.isRw_shape (x : Slot) (size : Nat) : x.shape.isRw size = x.isRw size := by
  cases x <;> rfl

theorem State.isView_shape (s : State) (k : Nat) (x : Slot) : s.isView k x.shape = s.isView k x := by
  cases x <;> rfl

theorem Slot.shape_eq_unmapped {x : Slot} : x.shape = .unmapped ↔ x = .unmapped := by
  cases x <;> simp [Slot.shape]

theorem Slot.shape_eq_io {x : Slot} : x.shape = .io ↔ x = .io := by
  cases x <;> simp [Slot.shape]

/-- Slots of one shape are equal when they hold no bytes of their own. -/
theorem Slot.eq_of_shape {x y : Slot} (h : x.shape = y.shape) (hy : ∀ size m, y ≠ .rw size m) : x = y := by
  cases y with
  | rw size m => exact absurd rfl (hy size m)
  | unmapped => exact Slot.shape_eq_unmapped.1 h
  | io => exact Slot.shape_eq_io.1 h
  | ro b k size => cases x <;> simp_all [Slot.shape]

/-- A view reads its buffer's length from the buffer table alone. -/
theorem State.isView_congr {s t : State} (h : t.buffers = s.buffers) (k : Nat) (x : Slot) : t.isView k x = s.isView k x := by
  cases x <;> simp [State.isView, State.buffer_congr h]

/-- A slot that is unmapped or a view holds no bytes of its own. -/
theorem State.not_rw_of_view {s : State} {k : Nat} {x : Slot} (h : x = .unmapped ∨ s.isView k x = true) (size : Nat)
    (m : Memory) : x ≠ .rw size m := by
  rintro rfl
  rcases h with h | h
  · cases h
  · simp [State.isView] at h

/-- The layout depends on the slots' shapes and the buffers alone. -/
theorem State.Layout.of_shape {s t : State} (h : s.Layout) (hs : ∀ q, (t.slot q).shape = (s.slot q).shape)
    (hb : t.buffers = s.buffers) : t.Layout := by
  have hv : ∀ q k, t.isView k (t.slot q) = s.isView k (s.slot q) := fun q k => by
    rw [State.isView_congr hb, ← State.isView_shape, hs, State.isView_shape]
  have hr : ∀ q n, (t.slot q).isRw n = (s.slot q).isRw n := fun q n => by
    rw [← Slot.isRw_shape, hs, Slot.isRw_shape]
  have hu : ∀ q, t.slot q = .unmapped ↔ s.slot q = .unmapped := fun q => by
    rw [← Slot.shape_eq_unmapped, hs, Slot.shape_eq_unmapped]
  have e8 : t.slot 0x8 = s.slot 0x8 := Slot.eq_of_shape (hs _) (State.not_rw_of_view h.rom)
  have e9 : t.slot 0x9 = s.slot 0x9 := Slot.eq_of_shape (hs _) (State.not_rw_of_view h.romHigh)
  have eA : t.slot 0xA = s.slot 0xA := Slot.eq_of_shape (hs _) (by rw [h.alias1]; exact State.not_rw_of_view h.rom)
  have eB : t.slot 0xB = s.slot 0xB :=
    Slot.eq_of_shape (hs _) (by rw [h.alias1High]; exact State.not_rw_of_view h.romHigh)
  have eC : t.slot 0xC = s.slot 0xC := Slot.eq_of_shape (hs _) (by rw [h.alias2]; exact State.not_rw_of_view h.rom)
  have eD : t.slot 0xD = s.slot 0xD :=
    Slot.eq_of_shape (hs _) (by rw [h.alias2High]; exact State.not_rw_of_view h.romHigh)
  exact
    { bios := by rw [hu, hv]; exact h.bios
      none1 := by rw [hu]; exact h.none1
      workRam := by rw [hr]; exact h.workRam
      internalRam := by rw [hr]; exact h.internalRam
      io := by rw [← Slot.shape_eq_io, hs, Slot.shape_eq_io]; exact h.io
      paletteRam := by rw [hr]; exact h.paletteRam
      vram := by rw [hr]; exact h.vram
      oam := by rw [hr]; exact h.oam
      rom := by rw [hu, hv]; exact h.rom
      romHigh := by rw [hu, hv]; exact h.romHigh
      alias1 := by rw [eA, e8]; exact h.alias1
      alias1High := by rw [eB, e9]; exact h.alias1High
      alias2 := by rw [eC, e8]; exact h.alias2
      alias2High := by rw [eD, e9]; exact h.alias2High
      sram := by rw [hu, hu, hv, hr]; exact h.sram
      highNeedsLow := by rw [hu, hu]; exact h.highNeedsLow
      noneF := by rw [hu]; exact h.noneF }

theorem State.writeAt_shape (s : State) (r : Fin 16) (o : Nat) (n : Width) (v : Word) (q : Fin 16) :
    ((s.writeAt r o n v).slot q).shape = (s.slot q).shape := by
  rw [State.writeAt_slot]
  by_cases hq : q = r
  · subst hq; simp
  · simp [hq]

theorem State.afterCopies_shape (s : State) (S D : Fin 16) (cs : List DmaStep) (q : Fin 16) :
    ((s.afterCopies S D cs).slot q).shape = (s.slot q).shape := by
  refine State.afterCopies_induct (P := fun u => (u.slot q).shape = (s.slot q).shape) ?_ rfl
  intro c _ u hu
  rw [State.writeAt_shape, State.readAt_slot, hu]

end Sys2Proof.Machine
end

