-- ==== Sys2Proof/Laws/Lifecycle.lean ====
section
/-! SUPPORT. The parts of the lifecycle operations: what each slot holds after them, and that nothing else changes. -/

namespace Sys2Proof.Machine

/-- Every slot after the five RAM kinds are allocated (40_lifecycle.md R70). -/
theorem State.freshRam_slot (s : State) (q : Fin 16) :
    s.freshRam.slot q =
      if q = 0x2 then Slot.fresh 0x40000 else if q = 0x3 then Slot.fresh 0x8000 else if q = 0x5 then Slot.fresh 0x400
      else if q = 0x6 then Slot.fresh 0x18000 else if q = 0x7 then Slot.fresh 0x400 else s.slot q := by
  simp only [State.freshRam, State.setSlot_slot, slotWorkRam, slotInternalRam, slotPaletteRam, slotVram, slotOam]
  fin_cases q <;> rfl

theorem State.freshRam_state (s : State) : s.freshRam = { s with slots := s.freshRam.slots } := rfl

/-- Every slot after the low cartridge half is mapped (R72). -/
theorem State.mapLow_slot (s : State) (b : Handle) (q : Fin 16) :
    (s.mapLow b).slot q = if q = 0x8 ∨ q = 0xA ∨ q = 0xC then s.viewOf b 0 else s.slot q := by
  simp only [State.mapLow, State.setSlot_slot, slotCart0, slotCart1, slotCart2]
  fin_cases q <;> rfl

theorem State.mapLow_state (s : State) (b : Handle) : s.mapLow b = { s with slots := (s.mapLow b).slots } := rfl

/-- Every slot after the upper cartridge half is mapped, or left alone for an image of at most 0x01000000 bytes (R72). -/
theorem State.mapHigh_slot (s : State) (b : Handle) (q : Fin 16) :
    (s.mapHigh b).slot q =
      if 0x01000000 < (s.buffer b).len ∧ (q = 0x9 ∨ q = 0xB ∨ q = 0xD) then s.viewOf b 0x01000000 else s.slot q := by
  simp only [State.mapHigh, cartHalf]
  by_cases h : 0x01000000 < (s.buffer b).len
  · simp only [h, if_true, true_and, State.setSlot_slot, slotCart0Hi, slotCart1Hi, slotCart2Hi]
    fin_cases q <;> rfl
  · simp only [h, if_false, false_and]

theorem State.mapHigh_state (s : State) (b : Handle) : s.mapHigh b = { s with slots := (s.mapHigh b).slots } := by
  simp only [State.mapHigh]
  split <;> rfl

/-- A view depends on the buffers alone. -/
theorem State.viewOf_congr {s t : State} (h : t.buffers = s.buffers) (b : Handle) (k : Nat) :
    t.viewOf b k = s.viewOf b k := by
  simp [State.viewOf, State.buffer_congr h]

/-- The Cartridge Info field as a prefix of its bytes up to the first zero (R74, R75). -/
theorem Buffer.field_eq_takeWhile (b : Buffer) (base n : Nat) :
    b.field base n =
      ((List.range n).map (fun i => if base + i < b.len then b.byte (base + i) else 0)).takeWhile
        (fun x => decide (x ≠ 0)) := by
  induction n generalizing base with
  | zero => rfl
  | succ n ih =>
    rw [List.range_succ_eq_map, List.map_cons, List.map_map]
    simp only [Buffer.field]
    by_cases h : (if base < b.len then b.byte base else 0) = 0
    · rw [if_pos h, List.takeWhile_cons_of_neg]
      simpa using h
    · rw [if_neg h, List.takeWhile_cons_of_pos, ih]
      · simp [Function.comp_def, Nat.add_assoc, Nat.add_comm 1]
      · simpa using h

end Sys2Proof.Machine
end

