-- ==== Sys2Proof/Laws/PerInstr.lean ====
section
/-! SUPPORT. A family of facts stated of each instruction as syntax: its selector is one the table of 30_encoding.md R50
lists, and its encoding writes its own fields and no others. -/

namespace Sys2Proof.Laws.Selector

/-- The selector is none of the reserved ones (R61); the encoding puts it on the port; and encoding over a command that
already presents the instruction changes nothing. -/
def Statement (i : Instr) : Prop :=
  (i.selector ≠ 0x03 ∧ i.selector.toNat < 0x14) ∧
  ∀ c : Command, (i.encodeOver c).op = i.selector ∧ i.encodeOver (i.encodeOver c) = i.encodeOver c

/-- The statement holds of every instruction; the lemmas below name it for each constructor. -/
theorem holds (i : Instr) : Statement i := by
  cases i <;> exact ⟨⟨of_decide_eq_true rfl, of_decide_eq_true rfl⟩, fun _ => ⟨rfl, rfl⟩⟩

theorem reset : Statement .reset :=
  holds _

theorem mapBios (buf : Handle) : Statement (.mapBios buf) :=
  holds _

theorem mapRom (buf : Handle) (extract : Bool) : Statement (.mapRom buf extract) :=
  holds _

theorem load8 (addr : Word) : Statement (.load8 addr) :=
  holds _

theorem loadU8 (addr : Word) : Statement (.loadU8 addr) :=
  holds _

theorem load16 (addr : Word) : Statement (.load16 addr) :=
  holds _

theorem loadU16 (addr : Word) : Statement (.loadU16 addr) :=
  holds _

theorem load32 (addr : Word) : Statement (.load32 addr) :=
  holds _

theorem store8 (addr wdata : Word) : Statement (.store8 addr wdata) :=
  holds _

theorem store16 (addr wdata : Word) : Statement (.store16 addr wdata) :=
  holds _

theorem store32 (addr wdata : Word) : Statement (.store32 addr wdata) :=
  holds _

theorem waitN16 (addr : Word) : Statement (.waitN16 addr) :=
  holds _

theorem waitS16 (addr : Word) : Statement (.waitS16 addr) :=
  holds _

theorem waitN32 (addr : Word) : Statement (.waitN32 addr) :=
  holds _

theorem waitS32 (addr : Word) : Statement (.waitS32 addr) :=
  holds _

theorem adjTim (ctl : BitVec 16) : Statement (.adjTim ctl) :=
  holds _

theorem dmaXfer (chan : BitVec 2) (d : Descriptor) : Statement (.dmaXfer chan d) :=
  holds _

theorem icMark (page : BitVec 24) : Statement (.icMark page) :=
  holds _

theorem icQuery (page : BitVec 24) : Statement (.icQuery page) :=
  holds _

end Sys2Proof.Laws.Selector
end

