-- ==== Sys2Proof/Tests/Slice0.lean ====
section
/-! SUPPORT. Tests: words of the spec's encoding decoded, the WellFormed checks, one-step vectors of 95_test_vectors.md,
and for every statement with hypotheses a witness that meets them. -/

namespace Sys2Proof.Tests

open Sys2Proof Sys2Proof.Machine

/-! ### What a test looks at -/

/-- A fact about the state after an operation that completes. -/
def After (o : Host.Outcome State Fault Refusal) (p : State → Bool) : Bool :=
  match o with
  | .next t => p t
  | _ => false

/-- The load result. -/
def rdataIs (o : Host.Outcome State Fault Refusal) (v : Word) : Bool :=
  After o (fun t => decide (t.resp.rdata = some v))

/-- The amount charged, on the response and on the counter of a run that began at 0. -/
def chargedIs (o : Host.Outcome State Fault Refusal) (k : Nat) : Bool :=
  After o (fun t => decide (t.resp.cycAdd = k) && decide (t.cycles = k))

/-- The fault. -/
def faultIs (o : Host.Outcome State Fault Refusal) (f : Fault) : Bool :=
  match o with
  | .fault g => decide (g = f)
  | _ => false

/-- The refusal. -/
def refusedIs (o : Host.Outcome State Fault Refusal) (x : Refusal) : Bool :=
  match o with
  | .refused y => decide (y = x)
  | _ => false

/-- The bytes of a slot from an offset. -/
def bytesOf (s : State) (r : Fin 16) (o n : Nat) : List (Option Byte) :=
  (List.range n).map (fun i => s.byteIn r (o + i))

/-- The bytes of a slot from an offset are the given ones. -/
def bytesAre (s : State) (r : Fin 16) (o : Nat) (l : List Byte) : Bool :=
  decide (bytesOf s r o l.length = l.map some)

/-! ### A small state

After 95_test_vectors.md "base": power-on, a BIOS of four bytes, the image `ROM16` (`ROM16[i] = i` in its first 16 bytes
and its last two; length 0x200), the tables of `WS_REF` (10_state.md R19), whose cartridge entries are those of
`adjustCartridgeTiming 0x0000`. -/

/-- The BIOS of V-LC-12. -/
def bios : Buffer :=
  { len := 4, bytes := [(0, 0x11), (1, 0x22), (2, 0x33), (3, 0x44)] }

/-- `ROM16`, its first 16 and last two bytes. -/
def rom16 : Buffer :=
  { len := 0x200,
    bytes := [(1, 1), (2, 2), (3, 3), (4, 4), (5, 5), (6, 6), (7, 7), (8, 8), (9, 9), (10, 10), (11, 11), (12, 12),
      (13, 13), (14, 14), (15, 15), (0x1FE, 0xFE), (0x1FF, 0xFF)] }

/-- V-LC-6: title "POKEMON EMER", code "BPEE", maker "01". -/
def headerRom : Buffer :=
  { len := 0xC0,
    bytes := [(0xA0, 0x50), (0xA1, 0x4F), (0xA2, 0x4B), (0xA3, 0x45), (0xA4, 0x4D), (0xA5, 0x4F), (0xA6, 0x4E),
      (0xA7, 0x20), (0xA8, 0x45), (0xA9, 0x4D), (0xAA, 0x45), (0xAB, 0x52), (0xAC, 0x42), (0xAD, 0x50), (0xAE, 0x45),
      (0xAF, 0x45), (0xB0, 0x30), (0xB1, 0x31)] }

/-- V-LC-8: an image of 0xA4 bytes that ends inside the title. -/
def shortRom : Buffer :=
  { len := 0xA4, bytes := [(0xA0, 0x41), (0xA1, 0x42), (0xA2, 0x43), (0xA3, 0x44)] }

/-- V-LC-4: an image of exactly 16 MiB. -/
def rom16M : Buffer :=
  { len := 0x01000000, bytes := [(0x00FFFFFF, 0x5A)] }

/-- V-LC-5: an image of 16 MiB and one byte. -/
def rom16M1 : Buffer :=
  { len := 0x01000001, bytes := [(0x01000000, 0xA5)] }

/-- `WS_REF` (10_state.md R19). -/
def refTiming : Timing :=
  { n16 := #v[0, 0, 2, 0, 0, 0, 0, 0, 4, 4, 4, 4, 4, 4, 4, 0],
    s16 := #v[0, 0, 2, 0, 0, 0, 0, 0, 2, 2, 4, 4, 8, 8, 4, 0],
    n32 := #v[0, 0, 5, 0, 0, 1, 1, 0, 7, 7, 9, 9, 13, 13, 4, 0],
    s32 := #v[0, 0, 5, 0, 0, 1, 1, 0, 5, 5, 9, 9, 17, 17, 4, 0] }

/-- The work RAM of the load vectors: bytes 0x80, 0xFF, 0x34, 0x12; and bytes 0x0C to 0x13 as in the DMA vectors. -/
def workRam : Memory :=
  [(0, 0x80), (1, 0xFF), (2, 0x34), (3, 0x12), (0x0C, 0x0C), (0x0D, 0x0D), (0x0E, 0x0E), (0x0F, 0x0F), (0x10, 0x10),
    (0x11, 0x11), (0x12, 0x12), (0x13, 0x13)]

def base : State :=
  { State.reset with
    slots := #v[.ro 0 0 4, .unmapped, .rw 0x40000 workRam, .rw 0x8000 [], .io, .rw 0x400 [], .rw 0x18000 [], .rw 0x400 [],
      .ro 1 0 0x200, .unmapped, .ro 1 0 0x200, .unmapped, .ro 1 0 0x200, .unmapped, .rw 0x10000 [], .unmapped],
    timing := refTiming,
    buffers := [bios, rom16, headerRom, shortRom, rom16M, rom16M1] }

theorem base_canonical : base.Canonical :=
  ⟨by decide, by decide, by decide⟩

/-- A transfer with the descriptor notation of 95_test_vectors.md 2.5. -/
def descr (src dst : Word) (srcCtl dstCtl : AddrCtl) (w32 : Bool) (count : BitVec 17) (rep : Bool) : Descriptor :=
  { src := src, dst := dst, srcCtl := srcCtl, dstCtl := dstCtl, w32 := w32, count := count, rep := rep, enable := true }

/-! ### Decoding: the words of 30_encoding.md R50, the fields of R51, R56 and R57 -/

theorem test_decode_lifecycle :
    decodeTableWord 8 0b00000 = some .reset ∧
    decodeTableWord 8 0b00001 = some (.mapBios 0) ∧
    decodeTableWord 8 0b00010 = some (.mapRom 0 false) ∧
    decode { Command.ofSelector 0b00010 with buf := 7, extract := true } = .ok (.mapRom 7 true) := by decide

theorem test_decode_loads :
    decodeTableWord 8 0b00100 = some (.load8 0) ∧
    decodeTableWord 8 0b00101 = some (.loadU8 0) ∧
    decodeTableWord 8 0b00110 = some (.load16 0) ∧
    decodeTableWord 8 0b00111 = some (.loadU16 0) ∧
    decodeTableWord 8 0b01000 = some (.load32 0) ∧
    decode { Command.ofSelector 0b00111 with addr := 0x0C000010 } = .ok (.loadU16 0x0C000010) := by decide

theorem test_decode_stores :
    decodeTableWord 8 0b01001 = some (.store8 0 0) ∧
    decodeTableWord 8 0b01010 = some (.store16 0 0) ∧
    decodeTableWord 8 0b01011 = some (.store32 0 0) ∧
    decode { Command.ofSelector 0b01001 with addr := 0x0E000000, wdata := 0x5A } = .ok (.store8 0x0E000000 0x5A) := by
  decide

theorem test_decode_timing :
    decodeTableWord 8 0b01100 = some (.waitN16 0) ∧
    decodeTableWord 8 0b01101 = some (.waitS16 0) ∧
    decodeTableWord 8 0b01110 = some (.waitN32 0) ∧
    decodeTableWord 8 0b01111 = some (.waitS32 0) ∧
    decodeTableWord 8 0b10000 = some (.adjTim 0) ∧
    decode { Command.ofSelector 0b10000 with ctl := 0x4317 } = .ok (.adjTim 0x4317) := by decide

theorem test_decode_dma :
    decodeTableWord 8 0b10001 =
      some (.dmaXfer 0 { src := 0, dst := 0, srcCtl := .increment, dstCtl := .increment, w32 := false, count := 0,
                         rep := false, enable := false }) ∧
    decode { Command.ofSelector 0b10001 with
        chan := 1, src := 0x0A000002, dst := 0x0E000100, srcCtl := 2, dstCtl := 1, count := 5, rep := true,
        enable := true } =
      .ok (.dmaXfer 1 (descr 0x0A000002 0x0E000100 .fixed .decrement false 5 true)) := by decide

theorem test_decode_pages :
    decodeTableWord 8 0b10010 = some (.icMark 0) ∧
    decodeTableWord 8 0b10011 = some (.icQuery 0) ∧
    decode { Command.ofSelector 0b10010 with page := 0x018001 } = .ok (.icMark 0x018001) := by decide

/-- R61, R57: the reserved selectors 0x03 and 0x14 to 0x1F and the reserved mode 3 are rejected by name. -/
theorem test_decode_reserved :
    decodeTableWord 8 0b00011 = none ∧ decodeTableWord 8 0b10100 = none ∧ decodeTableWord 8 0b11111 = none ∧
    decode (Command.ofSelector 0b00011) = .error (.undefinedSelector 0b00011) ∧
    decode { Command.ofSelector 0b10001 with chan := 2, dstCtl := 3 } = .error (.reservedMode 2) := by decide

/-- The host's way in: the very next step runs the word's operation, first after reset. -/
theorem test_withFetchWord :
    chargedIs (step (base.withFetchWord 8 0b01100)) 1 = true ∧
    After (step (State.reset.withFetchWord 8 0b00000)) (fun t => decide (t.port = [])) = true ∧
    faultIs (step (State.reset.withFetchWord 8 0b01000)) (.fRegion 0) = true := by decide

/-! ### WellFormed: the count's legal range (30_encoding.md R56, 93_implementation_defined.md U5, U6) -/

theorem test_wellFormed_counts :
    (Instr.dmaXfer 0 (descr 0 0 .increment .increment true 0 false)).wellFormed = false ∧
    (Instr.dmaXfer 0 (descr 0 0 .increment .increment true 0x10001 false)).wellFormed = false ∧
    (Instr.dmaXfer 0 (descr 0 0 .increment .increment true 1 false)).wellFormed = true ∧
    (Instr.dmaXfer 0 (descr 0 0 .increment .increment true 0x10000 false)).wellFormed = true := by decide

/-! ### Lifecycle (95_test_vectors.md 2.1) -/

/-- V-LC-3: RAM zeroed, SRAM and ROM kept, the page array empty. -/
theorem test_reset :
    After (exec .reset { base.setSlot 0xE (.rw 0x10000 [(0, 0xBB)]) with icache := [0x010000] })
      (fun t => bytesAre t 0x2 0 [0] && bytesAre t 0xE 0 [0xBB] && bytesAre t 0x8 1 [1] &&
        !t.icache.has 0x010000 && decide (t.resp.cycAdd = 0)) = true := by decide

/-- V-LC-12: the view has the buffer's four bytes and no fifth. -/
theorem test_mapBios :
    After (exec (.mapBios 0) { State.reset with buffers := [bios] })
      (fun t => rdataIs (exec (.load32 0) t) 0x44332211 && faultIs (exec (.loadU16 3) t) (.fOffset 3)) = true := by decide

/-- V-LC-13: an empty buffer is refused. -/
theorem test_mapBios_empty :
    refusedIs (exec (.mapBios 0) State.reset) (.emptyBuffer 0) = true := by decide

/-- V-LC-4, V-LC-5: the boundary of the upper half. -/
theorem test_mapRom_halves :
    After (exec (.mapRom 4 false) { State.reset with buffers := base.buffers })
      (fun t => rdataIs (exec (.loadU8 0x08FFFFFF) t) 0x5A && faultIs (exec (.loadU8 0x09000000) t) (.fRegion 0x09000000))
        = true ∧
    After (exec (.mapRom 5 false) { State.reset with buffers := base.buffers })
      (fun t => rdataIs (exec (.loadU8 0x09000000) t) 0xA5 && rdataIs (exec (.loadU8 0x0D000000) t) 0xA5 &&
        faultIs (exec (.loadU8 0x09000001) t) (.fOffset 0x09000001)) = true := by decide

/-- V-LC-6, V-LC-8: the Cartridge Info. -/
theorem test_mapRom_info :
    After (exec (.mapRom 2 true) base) (fun t => decide (t.resp.info =
      some { title := some [0x50, 0x4F, 0x4B, 0x45, 0x4D, 0x4F, 0x4E, 0x20, 0x45, 0x4D, 0x45, 0x52],
             code := some [0x42, 0x50, 0x45, 0x45], maker := some [0x30, 0x31] })) = true ∧
    After (exec (.mapRom 3 true) base) (fun t => decide (t.resp.info =
      some { title := some [0x41, 0x42, 0x43, 0x44], code := some [], maker := some [] })) = true := by decide

/-! ### Loads and stores (95_test_vectors.md 2.2) -/

/-- V-LS-1, V-LS-2. -/
theorem test_load8 :
    rdataIs (exec (.load8 0x02000000) base) 0xFFFFFF80 = true ∧ rdataIs (exec (.load8 0x02000002) base) 0x34 = true := by
  decide

/-- V-LS-1. -/
theorem test_loadU8 : rdataIs (exec (.loadU8 0x02000000) base) 0x80 = true := by decide

/-- V-LS-3, V-LS-4: an odd address is not aligned down. -/
theorem test_load16 :
    rdataIs (exec (.load16 0x02000000) base) 0xFFFFFF80 = true ∧ rdataIs (exec (.load16 0x02000001) base) 0x34FF = true := by
  decide

/-- V-LS-9: the second byte lies beyond the internal RAM. -/
theorem test_load16_end : faultIs (exec (.load16 0x03007FFF) base) (.fOffset 0x03007FFF) = true := by decide

/-- V-LS-3, V-LC-10. -/
theorem test_loadU16 :
    rdataIs (exec (.loadU16 0x02000000) base) 0xFF80 = true ∧ rdataIs (exec (.loadU16 0x0A0001FE) base) 0xFFFE = true := by
  decide

/-- V-LS-6, V-LS-7. -/
theorem test_load32 :
    rdataIs (exec (.load32 0x02000000) base) 0x1234FF80 = true ∧
    rdataIs (exec (.load32 0x02000001) base) 0x001234FF = true := by decide

/-- V-LS-8, V-LS-10, V-EX-1: the last word, one past it, and the region check before the range check. -/
theorem test_load32_end :
    rdataIs (exec (.load32 0x0203FFFC) base) 0 = true ∧
    faultIs (exec (.load32 0x0203FFFD) base) (.fOffset 0x0203FFFD) = true ∧
    faultIs (exec (.load32 0x08FFFFFF) State.reset) (.fRegion 0x08FFFFFF) = true := by decide

/-- V-LS-11, V-IC-1: truncated to 8 bits; the page of the address removed. -/
theorem test_store8 :
    After (exec (.store8 0x02000201 0x1FF) { base with icache := [0x010001] })
      (fun t => bytesAre t 0x2 0x200 [0, 0xFF, 0] && !t.icache.has 0x010001) = true := by decide

/-- V-LS-14, V-LS-16, V-LS-20: the faults of a store, a read-only view's included. -/
theorem test_store8_faults :
    faultIs (exec (.store8 0x10000000 1) base) (.fRegion 0x10000000) = true ∧
    faultIs (exec (.store8 0x05000400 1) base) (.fOffset 0x05000400) = true ∧
    faultIs (exec (.store8 0x08000200 1) base) (.fOffset 0x08000200) = true := by decide

/-- V-LS-12, V-IC-2: aligned down, truncated to 16 bits; one page only. -/
theorem test_store16 :
    After (exec (.store16 0x03000001 0xDEADBEEF) { base with icache := [0x018000, 0x018001] })
      (fun t => bytesAre t 0x3 0 [0xEF, 0xBE, 0] && !t.icache.has 0x018000 && t.icache.has 0x018001) = true := by decide

/-- V-LS-19, V-LS-16: a read-only view discards the write; the last halfword of OAM. -/
theorem test_store16_views :
    After (exec (.store16 0x08000000 0xFFFF) base) (fun t => bytesAre t 0x8 0 [0, 1]) = true ∧
    After (exec (.store16 0x070003FF 0xABCD) base) (fun t => bytesAre t 0x7 0x3FE [0xCD, 0xAB]) = true := by decide

/-- V-LS-13, V-IC-3: the aligned word, both pages. -/
theorem test_store32 :
    After (exec (.store32 0x02000012 0xCAFEBABE) { base with icache := [0x010000, 0x010001, 0x010002] })
      (fun t => bytesAre t 0x2 0x10 [0xBE, 0xBA, 0xFE, 0xCA] && decide (t.icache = [0x010002])) = true := by decide

/-- V-LS-17: a store to the I/O slot is an event. -/
theorem test_store32_io :
    After (exec (.store32 0x04000208 1) base)
      (fun t => decide (t.resp.events = [.ioWrite 0x208 4 1]) && decide (t.slots = base.slots)) = true := by decide

/-! ### The decode-cache array (95_test_vectors.md 2.3) -/

/-- R91: a page is added once. -/
theorem test_icMark :
    After (exec (.icMark 0x040000) { base with icache := [0x010000, 0x040001] })
      (fun t => decide (t.icache = [0x010000, 0x040000, 0x040001])) = true ∧
    After (exec (.icMark 0x010000) { base with icache := [0x010000] }) (fun t => decide (t.icache = [0x010000])) = true := by
  decide

/-- V-IC-6. -/
theorem test_icQuery :
    rdataIs (exec (.icQuery 0x040000) { base with icache := [0x040000] }) 1 = true ∧
    rdataIs (exec (.icQuery 0x050000) { base with icache := [0x040000] }) 0 = true := by decide

/-! ### Timing (95_test_vectors.md 2.4) -/

/-- V-TM-8, V-TM-19: 5 cycles, and no wrap at 32 bits. -/
theorem test_waitN16 :
    chargedIs (exec (.waitN16 0x08000123) base) 5 = true ∧
    After (exec (.waitN16 0x08000000) { base with cycles := 0xFFFFFFFE }) (fun t => decide (t.cycles = 0x100000003))
      = true := by decide

/-- V-TM-9. -/
theorem test_waitS16 :
    chargedIs (exec (.waitS16 0x08000000) base) 3 = true ∧ chargedIs (exec (.waitS16 0x0C000000) base) 9 = true := by decide

/-- V-TM-10, V-TM-15, V-TM-17. -/
theorem test_waitN32 :
    chargedIs (exec (.waitN32 0x0A000000) base) 10 = true ∧ chargedIs (exec (.waitN32 0x02000000) base) 6 = true ∧
    faultIs (exec (.waitN32 0x10000000) base) (.fRegion 0x10000000) = true := by decide

/-- V-TM-11, V-TM-14: an unmapped slot is charged like any other. -/
theorem test_waitS32 :
    chargedIs (exec (.waitS32 0x0C000000) base) 18 = true ∧ chargedIs (exec (.waitS32 0x01000000) base) 1 = true := by decide

/-- One row of the table of 95_test_vectors.md 2.4: `N16`, `S16`, `N32`, `S32` of a slot. -/
def row (t : State) (r : Fin 16) : List Nat :=
  [t.timing.entry .n16 r, t.timing.entry .s16 r, t.timing.entry .n32 r, t.timing.entry .s32 r]

/-- V-TM-7, and the upper halves untouched (R157). -/
theorem test_adjTim :
    After (exec (.adjTim 0x0155) base) (fun t =>
      decide (row t 0xE = [3, 3, 3, 3]) && decide (row t 0x8 = [3, 1, 5, 3]) && decide (row t 0xA = [2, 4, 7, 9]) &&
      decide (row t 0xC = [3, 8, 12, 17]) && decide (row t 0x9 = [4, 2, 7, 5])) = true := by decide

/-- V-TM-2: bit 14 ignored; the largest derived entries. -/
theorem test_adjTim_largest :
    After (exec (.adjTim 0x4317) base) (fun t =>
      decide (row t 0xE = [8, 8, 8, 8]) && decide (row t 0x8 = [3, 1, 5, 3]) && decide (row t 0xA = [4, 4, 9, 9]) &&
      decide (row t 0xC = [8, 8, 17, 17])) = true := by decide

/-! ### DMA (95_test_vectors.md 2.5) -/

/-- V-DMA-2: one single element, then two pairs; the cost; the completion. -/
theorem test_dmaXfer_16 :
    After (exec (.dmaXfer 0 (descr 0x08000002 0x0E000000 .increment .increment false 5 false))
        { base with dmacnt := #v[0x8000, 0, 0, 0] })
      (fun t => bytesAre t 0xE 0 [2, 3, 4, 5, 6, 7, 8, 9, 10, 11, 0] && decide (t.cycles = 34) &&
        decide (t.dmacntOf 0 = 0) && !t.desc.enable) = true := by decide

/-- V-DMA-6: decrementing pairs. -/
theorem test_dmaXfer_pairs_down :
    After (exec (.dmaXfer 0 (descr 0x02000010 0x03000020 .decrement .decrement false 4 false)) base)
      (fun t => bytesAre t 0x3 0x1C [0x0C, 0x0D, 0x0E, 0x0F, 0x10, 0x11, 0x12, 0x13]) = true := by decide

/-! ### Witnesses: for every statement with hypotheses, a state and operands that meet them together, one per clause -/

/-- A command on the port that loads a byte of work RAM. -/
def loadCommand : Command :=
  { Command.ofSelector 0b00101 with addr := 0x02000003 }

/-- The small state with that command presented. -/
def ready : State :=
  { base with port := [loadCommand] }

theorem ready_layout : ready.Layout := by
  constructor <;> decide

/-- `StepRunsTheDecodedCommand`: its three clauses. -/
theorem witness_StepRunsTheDecodedCommand :
    ready.port = loadCommand :: [] ∧
    decode loadCommand = .ok (.loadU8 0x02000003) ∧
    decode (Command.ofSelector 0x1F) = .error (.undefinedSelector 0x1F) ∧ base.port = [] := by decide

/-- `StepTakesOneCommandInOrder`, `StepKeepsTheSlotLayout` and `StepKeepsTheStateCanonical`: a step that goes on, from a
state that has the layout and the canonical form. -/
theorem witness_step :
    ∃ s t : State, s.Layout ∧ s.Canonical ∧ step s = .next t :=
  ⟨ready, _, ready_layout, ⟨base_canonical.blocks, base_canonical.pages, base_canonical.buffers⟩, rfl⟩

/-- `ReservedEncodingsTreatedAsSpecified`: its clauses, the selectors at the ends of their ranges. -/
theorem witness_ReservedEncodingsTreatedAsSpecified :
    (Command.ofSelector 0x03).op = 0x03 ∧ 0x14 ≤ (Command.ofSelector 0x14).op.toNat ∧
    0x14 ≤ (Command.ofSelector 0x1F).op.toNat ∧
    ({ Command.ofSelector 0x11 with srcCtl := 3 } : Command).srcCtl = 3 ∧
    ({ Command.ofSelector 0x11 with dstCtl := 3 } : Command).dstCtl = 3 ∧
    (descr 0 0 .fixed .fixed true 0 false).count = 0 ∧ (base.buffer 6).len = 0 ∧
    0x00800000 < (0x00800001 : BitVec 24).toNat := by decide

/-- `PowerOnStateOfTheBlock`: the slots from 8 on. -/
theorem witness_PowerOnStateOfTheBlock : 8 ≤ (0x8 : Fin 16).val ∧ 8 ≤ (0xF : Fin 16).val := by decide

/-- `ResetRestoresRamTablesAndPages`: offsets at the ends of the five blocks, and a slot that is none of them. -/
theorem witness_ResetRestoresRamTablesAndPages :
    (0x3FFFF < 0x40000 ∧ 0x7FFF < 0x8000 ∧ 0x3FF < 0x400 ∧ 0x17FFF < 0x18000) ∧
    ((0xE : Fin 16) ≠ 0x2 ∧ (0xE : Fin 16) ≠ 0x3 ∧ (0xE : Fin 16) ≠ 0x5 ∧ (0xE : Fin 16) ≠ 0x6 ∧ (0xE : Fin 16) ≠ 0x7) := by
  decide

/-- `MapBiosInstallsTheView`, `MapRomInstallsViewsAndSram`, `CartridgeInfoIsExtractedAsSpecified`: an empty buffer, a
buffer of four bytes, one of exactly 0x01000000 bytes and one of a byte more. -/
theorem witness_buffers :
    (base.buffer 6).len = 0 ∧ 1 ≤ (base.buffer 0).len ∧ (base.buffer 4).len ≤ 0x01000000 ∧
    0x01000000 < (base.buffer 5).len := by decide

/-- `CartridgeAliasesReadTheImage`: a mapping that completes, of an image longer than 16 MiB. -/
theorem witness_CartridgeAliasesReadTheImage :
    (∃ t, exec (.mapRom 5 true) base = .next t) ∧ 0x01000000 < (base.buffer 5).len :=
  ⟨⟨_, rfl⟩, by decide⟩

/-- `ByteLoadsWidenTheByte`: the last byte of work RAM. -/
theorem witness_ByteLoadsWidenTheByte : base.byteAt 0x0203FFFF = some 0 := by decide

/-- `HalfwordLoadsWidenTheBytes`: an odd address. -/
theorem witness_HalfwordLoadsWidenTheBytes :
    (0x02000001 : Word).toNat % 0x1000000 + 2 ≤ 0x1000000 ∧ base.byteAt 0x02000001 = some 0xFF ∧
    base.byteAt (0x02000001 + 1) = some 0x34 := by decide

/-- `WordLoadAnswersTheBytes`: the last word of the image. -/
theorem witness_WordLoadAnswersTheBytes :
    (0x080001FC : Word).toNat % 0x1000000 + 4 ≤ 0x1000000 ∧ base.byteAt 0x080001FC = some 0 ∧
    base.byteAt (0x080001FC + 1) = some 0 ∧ base.byteAt (0x080001FC + 2) = some 0xFE ∧
    base.byteAt (0x080001FC + 3) = some 0xFF := by decide

/-- `LoadsFromIoAnswerAnArbitraryValue`: the last halfword and the last word of the I/O slot. -/
theorem witness_LoadsFromIoAnswerAnArbitraryValue :
    (regionOf 0x04FFFFFE = (0x4 : Fin 16) ∧ offsetOf 0x04FFFFFE + 2 ≤ 0x1000000) ∧
    (regionOf 0x04FFFFFC = (0x4 : Fin 16) ∧ offsetOf 0x04FFFFFC + 4 ≤ 0x1000000) ∧ base.slot 0x4 = .io := by decide

/-- `LoadsFaultExactlyOutsideTheViews` and `StoresFaultExactlyOutsideTheViews`: an unmapped slot, an address past the
slots, and accesses that end at the end of internal RAM and one byte later. -/
theorem witness_faults :
    (∀ r : Fin 16, regionOf 0x01000000 = r → base.slot r = .unmapped) ∧
    (∀ r : Fin 16, regionOf 0x10000000 = r → base.slot r = .unmapped) ∧
    regionOf 0x03007FFC = (0x3 : Fin 16) ∧ base.slot 0x3 ≠ .unmapped ∧
    offsetOf 0x03007FFC + 4 ≤ (base.slot 0x3).size ∧ (base.slot 0x3).size < offsetOf 0x03007FFD + 4 ∧
    offsetOf (alignDown .b4 0x03007FFF) + 4 ≤ (base.slot 0x3).size ∧
    (base.slot 0x3).size < offsetOf (alignDown .b4 0x03008000) + 4 := by decide

/-- `LoadsChangeNoState`: loads that complete, from a slot that is not the I/O slot. -/
theorem witness_LoadsChangeNoState :
    (∃ t, exec (.load32 0x02000000) base = .next t) ∧ regionOf 0x02000000 = (0x2 : Fin 16) ∧ base.slot 0x2 ≠ .io :=
  ⟨⟨_, rfl⟩, by decide⟩

/-- `ByteStoreWritesOneByte`, `HalfwordStoreWritesTwoBytes`, `WordStoreWritesFourBytes` and
`StoreThenLoadReturnsTheValue`: the last byte, halfword and word of internal RAM. -/
theorem witness_stores :
    base.Canonical ∧
    (regionOf 0x03007FFF = (0x3 : Fin 16) ∧ base.slot 0x3 = .rw 0x8000 [] ∧ offsetOf 0x03007FFF < 0x8000 ∧
      offsetOf (alignDown .b2 0x03007FFF) + 2 ≤ 0x8000 ∧ offsetOf (alignDown .b4 0x03007FFF) + 4 ≤ 0x8000 ∧
      0x8000 ≤ 0x1000000) ∧
    ((0x03007FFC : Word).toNat % 4 = 0 ∧ offsetOf 0x03007FFC + 4 ≤ 0x8000) :=
  ⟨base_canonical, by decide, by decide⟩

/-- `StoresToReadOnlyAndIoChangeNoByte`: the last word of the image, and of the I/O slot. -/
theorem witness_StoresToReadOnlyAndIoChangeNoByte :
    (regionOf 0x080001FF = (0x8 : Fin 16) ∧ offsetOf (alignDown .b4 0x080001FF) + 4 ≤ (base.slot 0x8).size ∧
      base.slot 0x8 = .ro 1 0 0x200) ∧
    (regionOf 0x04FFFFFF = (0x4 : Fin 16) ∧ offsetOf (alignDown .b4 0x04FFFFFF) + 4 ≤ (base.slot 0x4).size ∧
      base.slot 0x4 = .io) := by decide

/-- `StoredPagesAreAbsent`: stores and a transfer that complete. -/
theorem witness_StoredPagesAreAbsent :
    (∃ t, exec (.store8 0x02000201 0) base = .next t) ∧ (∃ t, exec (.store32 0x080001FC 0) base = .next t) ∧
    (∃ t, exec (.dmaXfer 0 (descr 0x08000000 0x0E000000 .increment .increment true 4 false)) base = .next t) :=
  ⟨⟨_, rfl⟩, ⟨_, rfl⟩, ⟨_, rfl⟩⟩

/-- `InvalidateRemovesExactlyOnePage`, `IcMarkAddsExactlyOnePage`, `IcQueryReportsPresence`: a page absent, a page present,
the highest page a store names, and a reset followed by a query. -/
theorem witness_pages :
    base.icache.has 0x010000 = false ∧ base.Canonical ∧
    ({ base with icache := [0x010000] } : State).icache.has (0x010000 : BitVec 24).toNat = true ∧
    0x00800000 ∈ storePages .b4 0xFFFFFFFC ∧
    (∃ t u, exec .reset base = .next t ∧ exec (.icQuery 0x010000) t = .next u) :=
  ⟨by decide, base_canonical, by decide, by decide, ⟨_, _, rfl, rfl⟩⟩

/-- `WaitsChargeOnePlusTheEntry`: the last address that has an entry and the first that has none. -/
theorem witness_WaitsChargeOnePlusTheEntry :
    (0x0FFFFFFF : Word).toNat / 0x1000000 = (0xF : Fin 16) ∧ 0x10000000 ≤ (0x10000000 : Word).toNat := by decide

/-- `AdjustTimingWritesTheCartridgeEntries`: a slot whose entries stay. -/
theorem witness_AdjustTimingWritesTheCartridgeEntries :
    (0x9 : Fin 16) ≠ 0x8 ∧ (0x9 : Fin 16) ≠ 0xA ∧ (0x9 : Fin 16) ≠ 0xC ∧ (0x9 : Fin 16) ≠ 0xE := by decide

/-- `AdjustTimingIsIdempotent`: two control words that differ in bits 15 to 11 alone. -/
theorem witness_AdjustTimingIsIdempotent :
    (0xF800 : BitVec 16).toNat % 2048 = (0 : BitVec 16).toNat % 2048 ∧
    (∃ t, exec (.adjTim 0xF800) base = .next t) ∧ ∃ w, exec (.adjTim 0) State.reset = .next w :=
  ⟨by decide, ⟨_, rfl⟩, ⟨_, rfl⟩⟩

/-- The statements about every operation that completes (`OnlyWaitsAndDmaCharge`, `OnlyResetAndAdjustWriteTiming`,
`ReadOnlyBytesAreNeverWritten`, `PageArrayWriters`, `DmaRegisterWriters`, `ResponseFieldsByOperation`): each family
completes in one state. -/
theorem witness_operations_complete :
    (∃ t, exec .reset base = .next t) ∧ (∃ t, exec (.mapBios 0) base = .next t) ∧
    (∃ t, exec (.mapRom 1 true) base = .next t) ∧ (∃ t, exec (.load8 0x08000001) base = .next t) ∧
    (∃ t, exec (.store16 0x08000000 0xFFFF) base = .next t) ∧ (∃ t, exec (.waitS32 0x01000000) base = .next t) ∧
    (∃ t, exec (.adjTim 3) base = .next t) ∧ (∃ t, exec (.icMark 1) base = .next t) ∧
    (∃ t, exec (.icQuery 1) base = .next t) ∧ base.slot 0x8 = .ro 1 0 0x200 :=
  ⟨⟨_, rfl⟩, ⟨_, rfl⟩, ⟨_, rfl⟩, ⟨_, rfl⟩, ⟨_, rfl⟩, ⟨_, rfl⟩, ⟨_, rfl⟩, ⟨_, rfl⟩, ⟨_, rfl⟩, by decide⟩

/-- `FaultsByOperation`: an operation that goes on, and one fault of each kind, a source that goes below its view among them (V-DMA-11). -/
theorem witness_FaultsByOperation :
    (∃ t, exec (.load8 0x02000000) base = .next t) ∧
    faultIs (exec (.load8 0x01000000) base) (.fRegion 0x01000000) = true ∧
    faultIs (exec (.store8 0x02040000 0) base) (.fOffset 0x02040000) = true ∧
    faultIs (exec (.waitN16 0x10000000) base) (.fRegion 0x10000000) = true ∧
    faultIs (exec (.dmaXfer 0 (descr 0x02000004 0x03000000 .decrement .increment true 3 false)) base)
      (.fOffsetDma 0 .source) = true :=
  ⟨⟨_, rfl⟩, by decide⟩

/-- `DmaRefusesIllegalCounts`: the counts on both sides of the legal range, and its ends. -/
theorem witness_DmaRefusesIllegalCounts :
    (descr 0 0 .fixed .fixed true 0 false).count.toNat = 0 ∧
    0x10000 < (descr 0 0 .fixed .fixed true 0x10001 false).count.toNat ∧
    (descr 0 0 .fixed .fixed true 1 false).wellFormed = true ∧
    (descr 0 0 .fixed .fixed true 0x10000 false).wellFormed = true := by decide

/-- `InvalidDmaIsReportedAndSkipped`: V-DMA-8 and V-DMA-9. -/
theorem witness_InvalidDmaIsReportedAndSkipped :
    (descr 0x01000000 0x03000000 .increment .increment true 4 false).wellFormed = true ∧
    (∀ r : Fin 16, regionOf 0x01000000 = r → base.slot r = .unmapped) ∧
    (∀ r : Fin 16, regionOf 0x12000000 = r → base.slot r = .unmapped) := by decide

/-- `DmaPerformsItsSchedule`: V-DMA-6, whose copies fit, and V-DMA-11, one of whose copies does not. -/
theorem witness_DmaPerformsItsSchedule :
    let d := descr 0x02000010 0x03000020 .decrement .decrement false 4 false
    let e := descr 0x02000004 0x03000000 .decrement .increment true 3 false
    d.wellFormed = true ∧ regionOf d.src = (0x2 : Fin 16) ∧ base.slot 0x2 ≠ .unmapped ∧
    regionOf d.dst = (0x3 : Fin 16) ∧ base.slot 0x3 ≠ .unmapped ∧
    dmaSchedule d = [⟨.b4, 0x10, 0x20⟩, ⟨.b4, 0x0C, 0x1C⟩] ∧
    (∀ c ∈ dmaSchedule d, 0 ≤ c.src ∧ c.src + c.n.bytes ≤ (base.slot 0x2).size ∧ 0 ≤ c.dst ∧
      c.dst + c.n.bytes ≤ (base.slot 0x3).size) ∧
    e.wellFormed = true ∧ dmaSchedule e = [⟨.b4, 4, 0⟩, ⟨.b4, 0, 4⟩, ⟨.b4, -4, 8⟩] := by decide

/-- `DmaChecksTheSourceSideFirst`: V-DMA-11, whose third copy has its source below the view, and a transfer whose second
copy has its destination past the view, with the copies before them in range. -/
theorem witness_DmaChecksTheSourceSideFirst_later :
    let d := descr 0x02000004 0x03000000 .decrement .increment true 3 false
    let e := descr 0x02000000 0x03007FFC .fixed .increment true 3 false
    (d.wellFormed = true ∧ dmaSchedule d = [⟨.b4, 4, 0⟩, ⟨.b4, 0, 4⟩] ++ ⟨.b4, -4, 8⟩ :: [] ∧
      firstUnfit (base.slot 0x2).size (base.slot 0x3).size (dmaSchedule d) = some .source ∧
      ∀ x ∈ [(⟨.b4, 4, 0⟩ : DmaStep), ⟨.b4, 0, 4⟩], 0 ≤ x.src ∧ x.src + x.n.bytes ≤ (base.slot 0x2).size ∧
        0 ≤ x.dst ∧ x.dst + x.n.bytes ≤ (base.slot 0x3).size) ∧
    (e.wellFormed = true ∧ dmaSchedule e = [⟨.b4, 0, 0x7FFC⟩] ++ ⟨.b4, 0, 0x8000⟩ :: [⟨.b4, 0, 0x8004⟩] ∧
      firstUnfit (base.slot 0x2).size (base.slot 0x3).size (dmaSchedule e) = some .destination ∧
      (0x7FFC : Int) + 4 ≤ (base.slot 0x3).size ∧ (base.slot 0x3).size < (0x8000 : Int) + 4) := by decide

/-- `DmaChecksTheSourceSideFirst`: a source that ends past its view (with a destination that does too), and a
destination alone. -/
theorem witness_DmaChecksTheSourceSideFirst :
    let d := descr 0x0203FFFE 0x03007FFE .increment .increment true 1 false
    let e := descr 0x0203FFFC 0x03007FFE .increment .increment true 1 false
    (d.wellFormed = true ∧ regionOf d.src = (0x2 : Fin 16) ∧ regionOf d.dst = (0x3 : Fin 16) ∧
      (base.slot 0x2).size < offsetOf d.src + 4) ∧
    (e.wellFormed = true ∧ regionOf e.src = (0x2 : Fin 16) ∧ regionOf e.dst = (0x3 : Fin 16) ∧
      offsetOf e.src + 4 ≤ (base.slot 0x2).size ∧ (base.slot 0x3).size < offsetOf e.dst + 4) ∧
    base.slot 0x2 ≠ .unmapped ∧ base.slot 0x3 ≠ .unmapped := by decide

/-- `WordDmaMovesTheBlock`: V-DMA-1; and a move inside one region whose ends touch. -/
theorem witness_WordDmaMovesTheBlock :
    let d := descr 0x08000000 0x0E000000 .increment .increment true 4 false
    let e := descr 0x03000000 0x03000010 .increment .increment true 4 false
    base.Canonical ∧
    (d.wellFormed = true ∧ d.w32 = true ∧ d.srcCtl = .increment ∧ d.dstCtl = .increment ∧
      regionOf d.src = (0x8 : Fin 16) ∧ (base.slot 0x8).hasBytes = true ∧ regionOf d.dst = (0xE : Fin 16) ∧
      base.slot 0xE = .rw 0x10000 [] ∧ offsetOf d.src + 4 * d.count.toNat ≤ (base.slot 0x8).size ∧
      offsetOf d.dst + 4 * d.count.toNat ≤ 0x10000 ∧ (0x8 : Fin 16) ≠ 0xE) ∧
    (regionOf e.src = (0x3 : Fin 16) ∧ regionOf e.dst = (0x3 : Fin 16) ∧
      offsetOf e.src + 4 * e.count.toNat ≤ offsetOf e.dst) :=
  ⟨base_canonical, by decide, by decide⟩

/-- `HalfwordDmaMovesTheBlock`: V-DMA-2, whose source offset has bit 1 set. -/
theorem witness_HalfwordDmaMovesTheBlock :
    let d := descr 0x08000002 0x0E000000 .increment .increment false 5 false
    base.Canonical ∧
    (d.wellFormed = true ∧ d.w32 = false ∧ d.srcCtl = .increment ∧ d.dstCtl = .increment ∧
      regionOf d.src = (0x8 : Fin 16) ∧ (base.slot 0x8).hasBytes = true ∧ regionOf d.dst = (0xE : Fin 16) ∧
      base.slot 0xE = .rw 0x10000 [] ∧ offsetOf d.src + 2 * d.count.toNat ≤ (base.slot 0x8).size ∧
      offsetOf d.dst + 2 * d.count.toNat ≤ 0x10000 ∧ (0x8 : Fin 16) ≠ 0xE) :=
  ⟨base_canonical, by decide⟩

/-- `HalfwordPairMovesFourBytes`: V-DMA-5, a fixed source. -/
theorem witness_HalfwordPairMovesFourBytes :
    let d := descr 0x02000010 0x03000000 .fixed .increment false 2 false
    base.Canonical ∧
    (d.count.toNat = 2 ∧ d.w32 = false ∧ offsetOf d.src / 2 % 2 = 0 ∧ regionOf d.src = (0x2 : Fin 16) ∧
      (base.slot 0x2).hasBytes = true ∧ regionOf d.dst = (0x3 : Fin 16) ∧ base.slot 0x3 = .rw 0x8000 [] ∧
      offsetOf d.src + 4 ≤ (base.slot 0x2).size ∧ offsetOf d.dst + 4 ≤ 0x8000) :=
  ⟨base_canonical, by decide⟩

/-- `DmaChargesTheClosedFormCost`, `DmaCompletionClearsTheEnables`, `DmaDoesNotReadEnable`, `DmaFrame`: transfers that
complete with both regions mapped, `repeat` unset and set, and one that faults and one that is refused. -/
theorem witness_dma_completes :
    (∃ t, exec (.dmaXfer 3 (descr 0x08000000 0x0E000000 .increment .increment true 4 false)) base = .next t) ∧
    (∃ t, exec (.dmaXfer 3 (descr 0x08000000 0x0E000000 .increment .increment true 4 true)) base = .next t) ∧
    regionOf 0x08000000 = (0x8 : Fin 16) ∧ base.slot 0x8 ≠ .unmapped ∧ regionOf 0x0E000000 = (0xE : Fin 16) ∧
    base.slot 0xE ≠ .unmapped ∧ base.slot 0x8 ≠ .io ∧ base.slot 0xE ≠ .io ∧
    faultIs (exec (.dmaXfer 0 (descr 0x0203FFFE 0x03000000 .increment .increment true 1 false)) base)
      (.fOffsetDma 0 .source) = true ∧
    refusedIs (exec (.dmaXfer 0 (descr 0x02000000 0x03000000 .increment .increment true 0 false)) base)
      (.countZero 0) = true :=
  ⟨⟨_, rfl⟩, ⟨_, rfl⟩, by decide, by decide, by decide, by decide, by decide, by decide, by decide, by decide⟩

/-- `LoadsAreIdempotentAndStoresRemoveTheirPages`: loads from work RAM, the ROM view and the I/O slot, and stores to work
RAM, the ROM view and the I/O slot, that complete. -/
theorem witness_LoadsAreIdempotentAndStoresRemoveTheirPages :
    (∃ t, exec (.load32 0x02000000) base = .next t) ∧ (base.slot 0x2).hasBytes = true ∧
    (∃ t, exec (.load16 0x08000001) base = .next t) ∧ (base.slot 0x8).hasBytes = true ∧
    (∃ t, exec (.load8 0x04000000) base = .next t) ∧
    (∃ t, exec (.store8 0x02000201 0xFF) base = .next t) ∧ (∃ t, exec (.store16 0x04000000 1) base = .next t) ∧
    (∃ t, exec (.store32 0x08000000 1) base = .next t) :=
  ⟨⟨_, rfl⟩, by decide, ⟨_, rfl⟩, by decide, ⟨_, rfl⟩, ⟨_, rfl⟩, ⟨_, rfl⟩, ⟨_, rfl⟩⟩

/-- `ReadOnlyDestinationsDiscardSilently`: the ROM view, a store into it and a transfer from work RAM onto it. -/
theorem witness_ReadOnlyDestinationsDiscardSilently :
    let d := descr 0x02000000 0x08000000 .increment .increment true 2 false
    (∃ b k n, base.slot 0x8 = .ro b k n) ∧ regionOf 0x08000003 = (0x8 : Fin 16) ∧
    offsetOf (alignDown .b4 0x08000003) + 4 ≤ (base.slot 0x8).size ∧
    d.wellFormed = true ∧ regionOf d.src = (0x2 : Fin 16) ∧ base.slot 0x2 ≠ .unmapped ∧ regionOf d.dst = (0x8 : Fin 16) ∧
    ∀ c ∈ dmaSchedule d, 0 ≤ c.src ∧ c.src + c.n.bytes ≤ (base.slot 0x2).size ∧ 0 ≤ c.dst ∧
      c.dst + c.n.bytes ≤ (base.slot 0x8).size :=
  ⟨⟨_, _, _, rfl⟩, by decide, by decide, by decide, by decide, by decide, by decide, by decide⟩

/-- `WaitsAndAccessesAreSeparate`: a load and a store that complete, the last region, and two states with the same tables
and different slots. -/
theorem witness_WaitsAndAccessesAreSeparate :
    (∃ t, exec (.load8 0x02000000) base = .next t) ∧ (∃ t, exec (.store8 0x02000000 1) base = .next t) ∧
    regionOf 0x0FFFFFFF = (0xF : Fin 16) ∧ base.slot 0xF = .unmapped ∧
    base.timing = (base.setSlot 0x8 .unmapped).timing ∧ base.slot 0x8 ≠ (base.setSlot 0x8 .unmapped).slot 0x8 :=
  ⟨⟨_, rfl⟩, ⟨_, rfl⟩, by decide, by decide, rfl, by decide⟩

/-- `MemWriteChecksThenWrites`: an unmapped region, an offset at the end of a block, and one inside it; and the store at
an odd address, whose `MemWrite` raises with the aligned address and which records the address presented (R47, R130). -/
theorem witness_MemWriteChecksThenWrites :
    (∀ r : Fin 16, regionOf 0x01000000 = r → base.slot r = .unmapped) ∧
    (regionOf 0x02040000 = (0x2 : Fin 16) ∧ base.slot 0x2 ≠ .unmapped ∧
      (base.viewWrite 0x2 (offsetOf 0x02040000) .b2 0).isNone = true) ∧
    (base.viewWrite 0x2 (offsetOf 0x0203FFFE) .b2 0).isSome = true ∧
    (∃ t, base.memWrite 0x0203FFFE .b2 0 = .ok t) ∧
    base.memWrite (alignDown .b2 0x02040001) .b2 0 = .error (.fOffset 0x02040000) ∧
    faultIs (exec (.store16 0x02040001 0) base) (.fOffset 0x02040001) = true :=
  ⟨by decide, by decide, by decide, ⟨_, rfl⟩, rfl, by decide⟩

end Sys2Proof.Tests
end

section
/-! PROOFS. What each shape of operation leaves unchanged, the two invariants of the state, and who writes the timing
tables, the page set and the read-only views (10_state.md). -/

namespace Sys2Proof.Machine

/-! ### What each shape of operation leaves unchanged -/

/-- States are equal when their fields are. -/
theorem State.eq_iff_fields {s t : State} :
    s = t ↔ s.slots = t.slots ∧ s.timing = t.timing ∧ s.icache = t.icache ∧ s.cycles = t.cycles ∧
      s.dmacnt = t.dmacnt ∧ s.desc = t.desc ∧ s.buffers = t.buffers ∧ s.port = t.port ∧ s.resp = t.resp ∧
      s.ioDraws = t.ioDraws := by
  cases s; cases t; exact iff_of_eq (State.mk.injEq ..)

/-- A load changes the response and the count of oracle draws alone (41_load_store.md R80). -/
theorem loadWith_frame {n : Width} {w : Word → Word} {a : Word} {s t : State} (h : loadWith n w a s = .next t) :
    t = { s with resp := t.resp, ioDraws := t.ioDraws } := by
  obtain ⟨r, -, -, rfl⟩ := loadWith_eq_next.1 h
  simp [State.eq_iff_fields]

/-- A store changes the slot table, the page set and the response alone (R80). -/
theorem storeWith_frame {n : Width} {a v : Word} {s t : State} (h : storeWith n a v s = .next t) :
    t = { s with slots := t.slots, icache := t.icache, resp := t.resp } := by
  obtain ⟨r, -, -, rfl⟩ := storeWith_eq_next.1 h
  simp [State.eq_iff_fields]

/-- A wait changes the cycle counter and the response alone (43_timing.md R101). -/
theorem waitWith_frame {k : TableKind} {a : Word} {s t : State} (h : waitWith k a s = .next t) :
    t = { s with cycles := t.cycles, resp := t.resp } := by
  obtain ⟨r, -, rfl⟩ := waitWith_eq_next.1 h
  rfl

/-- A transfer leaves the timing tables, the page set, the buffers and the port (44_dma.md R110). -/
theorem execDmaXfer_frame {chan : BitVec 2} {d : Descriptor} {s t : State} (h : execDmaXfer chan d s = .next t) :
    t = { s with slots := t.slots, cycles := t.cycles, dmacnt := t.dmacnt, desc := t.desc, resp := t.resp,
                 ioDraws := t.ioDraws } := by
  obtain ⟨-, ⟨-, rfl⟩ | ⟨S, D, -, -, -, rfl⟩⟩ := execDmaXfer_eq_next.1 h
  · rfl
  · simp [State.eq_iff_fields]

/-- `RESET` completes in every state (40_lifecycle.md R70). -/
theorem execReset_eq_next {s t : State} :
    execReset s = .next t ↔ t = (s.begin.freshRam.putTiming Timing.atReset).clearPages := by
  simp only [execReset, Host.Outcome.next.injEq, eq_comm]

/-- `MAPBIOS` completes exactly for a buffer with bytes (R71). -/
theorem execMapBios_eq_next {b : Handle} {s t : State} :
    execMapBios b s = .next t ↔ (s.buffer b).len ≠ 0 ∧ t = s.begin.setSlot 0x0 (s.viewOf b 0) := by
  by_cases hb : (s.buffer b).len = 0
  · simp [execMapBios, hb]
  · simp [execMapBios, hb, slotBios, eq_comm]

/-- The slot table of `MAPROM`: the low half, the upper half of a long image, and a fresh SRAM (R72, R73). -/
def State.mapCartridge (s : State) (b : Handle) : State :=
  ((s.mapLow b).mapHigh b).setSlot 0xE (Slot.fresh 0x10000)

/-- `MAPROM` completes exactly for a buffer with bytes (R72). -/
theorem execMapRom_eq_next {b : Handle} {e : Bool} {s t : State} :
    execMapRom b e s = .next t ↔
      (s.buffer b).len ≠ 0 ∧
        t = (s.begin.mapCartridge b).putInfo (if e then (s.buffer b).cartInfo else CartInfo.unset) := by
  by_cases hb : (s.buffer b).len = 0
  · simp [execMapRom, hb]
  · simp [execMapRom, hb, State.mapCartridge, slotCartSram, sizeCartSram, eq_comm]

/-- Mapping an image changes the slot table alone. -/
theorem State.mapCartridge_state (s : State) (b : Handle) :
    s.mapCartridge b = { s with slots := (s.mapCartridge b).slots } := by
  rw [State.mapCartridge, State.mapHigh_state]; rfl

/-- Every slot after a cartridge image is mapped (R72, R73). -/
theorem State.mapCartridge_slot (s : State) (b : Handle) (q : Fin 16) :
    (s.mapCartridge b).slot q =
      if q = 0xE then Slot.fresh 0x10000
      else if 0x01000000 < (s.buffer b).len ∧ (q = 0x9 ∨ q = 0xB ∨ q = 0xD) then s.viewOf b 0x01000000
      else if q = 0x8 ∨ q = 0xA ∨ q = 0xC then s.viewOf b 0 else s.slot q := by
  simp only [State.mapCartridge, State.setSlot_slot, State.mapHigh_slot, State.mapLow_slot]
  rfl

/-- `MAPBIOS` changes the slot table and the response alone (R71). -/
theorem execMapBios_frame {b : Handle} {s t : State} (h : execMapBios b s = .next t) :
    t = { s with slots := t.slots, resp := t.resp } := by
  obtain ⟨-, rfl⟩ := execMapBios_eq_next.1 h
  rfl

/-- `MAPROM` changes the slot table and the response alone (R72). -/
theorem execMapRom_frame {b : Handle} {e : Bool} {s t : State} (h : execMapRom b e s = .next t) :
    t = { s with slots := t.slots, resp := t.resp } := by
  obtain ⟨-, rfl⟩ := execMapRom_eq_next.1 h
  rw [State.mapCartridge_state]; rfl

/-- `RESET` leaves everything owned outside the block (R70). -/
theorem execReset_frame {s t : State} (h : execReset s = .next t) :
    t = { s with slots := t.slots, timing := t.timing, icache := t.icache, resp := t.resp } := by
  rw [execReset_eq_next.1 h]; rfl

/-- `ADJTIM` completes in every state (43_timing.md R105). -/
theorem execAdjTim_eq_next {ctl : BitVec 16} {s t : State} :
    execAdjTim ctl s = .next t ↔ t = s.begin.putTiming (s.timing.adjust ctl) := by
  simp only [execAdjTim, Host.Outcome.next.injEq, eq_comm]

/-- `ICMARK` completes in every state (42_decode_cache.md R91). -/
theorem execIcMark_eq_next {page : BitVec 24} {s t : State} :
    execIcMark page s = .next t ↔ t = s.begin.markPage page.toNat := by
  simp only [execIcMark, Host.Outcome.next.injEq, eq_comm]

/-- `ICQUERY` completes in every state (R92). -/
theorem execIcQuery_eq_next {page : BitVec 24} {s t : State} :
    execIcQuery page s = .next t ↔ t = s.begin.putRdata (if s.icache.has page.toNat then 1 else 0) := by
  simp only [execIcQuery, Host.Outcome.next.injEq, eq_comm]

/-! ### What every operation keeps -/

/-- No operation writes a buffer (10_state.md R14, R26). -/
theorem exec_buffers {i : Instr} {s t : State} (h : exec i s = .next t) : t.buffers = s.buffers := by
  cases i with
  | reset => exact (congrArg State.buffers (execReset_frame h) :)
  | mapBios => exact (congrArg State.buffers (execMapBios_frame h) :)
  | mapRom => exact (congrArg State.buffers (execMapRom_frame h) :)
  | load8 | loadU8 | load16 | loadU16 | load32 => exact (congrArg State.buffers (loadWith_frame h) :)
  | store8 | store16 | store32 => exact (congrArg State.buffers (storeWith_frame h) :)
  | waitN16 | waitS16 | waitN32 | waitS32 => exact (congrArg State.buffers (waitWith_frame h) :)
  | adjTim => exact (congrArg State.buffers (execAdjTim_eq_next.1 h) :)
  | dmaXfer => exact (congrArg State.buffers (execDmaXfer_frame h) :)
  | icMark => exact (congrArg State.buffers (execIcMark_eq_next.1 h) :)
  | icQuery => exact (congrArg State.buffers (execIcQuery_eq_next.1 h) :)

/-- A store changes the bytes of a block at most. -/
theorem storeWith_shape {n : Width} {a v : Word} {s t : State} (h : storeWith n a v s = .next t) (q : Fin 16) :
    (t.slot q).shape = (s.slot q).shape := by
  obtain ⟨r, -, -, rfl⟩ := storeWith_eq_next.1 h
  rw [State.invalidateAll_slot, State.writeAt_shape, State.begin_slot]

/-- A transfer changes the bytes of a block at most. -/
theorem execDmaXfer_shape {chan : BitVec 2} {d : Descriptor} {s t : State} (h : execDmaXfer chan d s = .next t)
    (q : Fin 16) : (t.slot q).shape = (s.slot q).shape := by
  obtain ⟨-, ⟨-, rfl⟩ | ⟨S, D, -, -, -, rfl⟩⟩ := execDmaXfer_eq_next.1 h
  · rfl
  · rw [State.dmaComplete_slot, State.charge_slot, State.afterCopies_shape]; rfl

/-- The operations of 40_lifecycle.md, the only ones that install a slot. -/
def isLifecycle : Instr → Bool
  | .reset | .mapBios _ | .mapRom _ _ => true
  | _ => false

/-- Every other operation changes the bytes of a read-write block at most: variants, sizes and views stay. -/
theorem exec_shape {i : Instr} {s t : State} (hi : isLifecycle i = false) (h : exec i s = .next t) (q : Fin 16) :
    (t.slot q).shape = (s.slot q).shape := by
  have of_slots : t.slots = s.slots → (t.slot q).shape = (s.slot q).shape := fun e => by rw [State.slot_congr e]
  cases i with
  | reset | mapBios | mapRom => cases hi
  | load8 | loadU8 | load16 | loadU16 | load32 => exact of_slots (congrArg State.slots (loadWith_frame h) :)
  | store8 | store16 | store32 => exact storeWith_shape h q
  | waitN16 | waitS16 | waitN32 | waitS32 => exact of_slots (congrArg State.slots (waitWith_frame h) :)
  | adjTim => exact of_slots (congrArg State.slots (execAdjTim_eq_next.1 h) :)
  | dmaXfer => exact execDmaXfer_shape h q
  | icMark => exact of_slots (congrArg State.slots (execIcMark_eq_next.1 h) :)
  | icQuery => exact of_slots (congrArg State.slots (execIcQuery_eq_next.1 h) :)

/-- A read-only slot and every byte it shows stay through every operation but those of 40_lifecycle.md (R36, R134). -/
theorem exec_readOnly {i : Instr} {s t : State} (hi : isLifecycle i = false) (h : exec i s = .next t) {r : Fin 16}
    {b : Handle} {k n : Nat} (hr : s.slot r = .ro b k n) :
    t.slot r = s.slot r ∧ ∀ o, t.byteIn r o = s.byteIn r o := by
  have hslot : t.slot r = s.slot r := Slot.eq_of_shape (exec_shape hi h r) (by simp [hr])
  exact ⟨hslot, State.byteIn_congr hslot (exec_buffers h)⟩

/-! ### A step is the operation of one command -/

/-- A step that goes on has run the operation of a command on the state with the rest of the port. -/
theorem step_eq_next {s t : State} (h : step s = .next t) :
    ∃ (rest : List Command) (i : Instr), exec i { s with port := rest } = .next t := by
  cases hp : s.port with
  | nil => simp [step, State.fetch, hp] at h
  | cons c rest =>
    simp only [step, State.fetch, hp] at h
    cases hd : decode c with
    | error e => simp [hd] at h
    | ok i => exact ⟨rest, i, by simpa [hd] using h⟩

/-- What does not depend on the port, and every operation keeps, every step keeps. -/
theorem step_keeps {P : State → Prop} (hport : ∀ s rest, P s → P { s with port := rest })
    (hexec : ∀ i s t, P s → exec i s = .next t → P t) {s t : State} (hs : P s) (h : step s = .next t) : P t := by
  obtain ⟨rest, i, hi⟩ := step_eq_next h
  exact hexec i _ t (hport s rest hs) hi

/-! ### The slot layout -/

/-- The layout depends on the slots and the buffers alone. -/
theorem State.Layout.congr {s t : State} (h : s.Layout) (hs : t.slots = s.slots) (hb : t.buffers = s.buffers) :
    t.Layout :=
  h.of_shape (fun q => by rw [State.slot_congr hs]) hb

/-- A view of a buffer that reaches past its byte offset is a view as R14 gives it. -/
theorem State.isView_viewOf {s : State} {b : Handle} {k : Nat} (h : k < (s.buffer b).len) :
    s.isView k (s.viewOf b k) = true := by
  simp [State.isView, State.viewOf, h]

/-- A read-write block has the shape of a fresh one of its size. -/
theorem Slot.shape_of_isRw {x : Slot} {size : Nat} (h : x.isRw size = true) : x.shape = Slot.fresh size := by
  cases x <;> simp_all [Slot.isRw, Slot.shape, Slot.fresh]

/-- Where the layout holds, fresh RAM blocks have the sizes of the blocks they replace (40_lifecycle.md R70). -/
theorem State.Layout.freshRam_shape {s : State} (h : s.Layout) (q : Fin 16) :
    (s.freshRam.slot q).shape = (s.slot q).shape := by
  rw [State.freshRam_slot]
  split_ifs with h2 h3 h5 h6 h7
  · rw [h2, Slot.shape_of_isRw h.workRam]; rfl
  · rw [h3, Slot.shape_of_isRw h.internalRam]; rfl
  · rw [h5, Slot.shape_of_isRw h.paletteRam]; rfl
  · rw [h6, Slot.shape_of_isRw h.vram]; rfl
  · rw [h7, Slot.shape_of_isRw h.oam]; rfl
  · rfl

/-- A view of a buffer with bytes at the BIOS slot keeps the layout (R71). -/
theorem State.Layout.mapBios {s : State} (h : s.Layout) {b : Handle} (hb : (s.buffer b).len ≠ 0) :
    (s.setSlot 0x0 (s.viewOf b 0)).Layout := by
  have hv := State.isView_congr (s := s) (t := s.setSlot 0x0 (s.viewOf b 0)) rfl
  obtain ⟨⟩ := h
  constructor <;> simp only [State.setSlot_slot, hv, Fin.reduceEq, if_true, if_false]
  case bios => exact .inr (State.isView_viewOf (Nat.pos_of_ne_zero hb))
  all_goals assumption

/-- A cartridge image with bytes keeps the layout: the aliases change alike, the SRAM comes with the ROM, and the upper
half stays only beside a new low half (R72, R73, decision D23). -/
theorem State.Layout.mapCartridge {s : State} (h : s.Layout) {b : Handle} (hb : (s.buffer b).len ≠ 0) :
    (s.mapCartridge b).Layout := by
  have hv := State.isView_congr (s := s) (t := s.mapCartridge b) (by rw [State.mapCartridge_state])
  have hlow : s.isView 0 (s.viewOf b 0) = true := State.isView_viewOf (Nat.pos_of_ne_zero hb)
  obtain ⟨⟩ := h
  constructor <;> simp only [State.mapCartridge_slot, hv, Fin.reduceEq, or_true, or_false, and_true, and_false, if_true,
    if_false]
  case rom => exact .inr hlow
  case romHigh =>
    split_ifs with hlong
    · exact .inr (State.isView_viewOf hlong)
    · assumption
  case alias1High | alias2High => split_ifs <;> [rfl; assumption]
  case sram => exact .inr ⟨hlow, rfl⟩
  case highNeedsLow => exact nofun
  all_goals assumption

/-- Every operation keeps the slot layout. -/
theorem State.Layout.exec {i : Instr} {s t : State} (h : s.Layout) (hx : exec i s = .next t) : t.Layout := by
  cases i with
  | reset => exact h.of_shape (fun q => by rw [execReset_eq_next.1 hx]; exact h.freshRam_shape q) (exec_buffers hx)
  | mapBios b =>
    obtain ⟨hb, rfl⟩ := execMapBios_eq_next.1 hx
    exact (h.mapBios hb).congr rfl rfl
  | mapRom b e =>
    obtain ⟨hb, rfl⟩ := execMapRom_eq_next.1 hx
    exact ((h.congr (t := s.begin) rfl rfl).mapCartridge hb).congr rfl rfl
  | _ => exact h.of_shape (exec_shape rfl hx) (exec_buffers hx)

/-- Settles O44: the three lifecycle operations install slots of the layout, every other operation keeps the slots'
shapes. -/
theorem stepKeepsTheSlotLayout : Obligations.StepKeepsTheSlotLayout := fun _ _ =>
  step_keeps (fun _ _ h => h.congr rfl rfl) (fun _ _ _ h => h.exec)

/-- Settles O45: each clause reads a slot of a fixed table. -/
theorem powerOnHasTheSlotLayout : Obligations.PowerOnHasTheSlotLayout := by
  constructor <;> decide

/-! ### The canonical form -/

/-- Fresh RAM blocks list no byte. -/
theorem State.Canonical.freshRam {s : State} (h : s.Canonical) : s.freshRam.Canonical :=
  ((((h.setSlot _ (Slot.fresh_canonical _)).setSlot _ (Slot.fresh_canonical _)).setSlot _
    (Slot.fresh_canonical _)).setSlot _ (Slot.fresh_canonical _)).setSlot _ (Slot.fresh_canonical _)

/-- A cartridge image adds views and a fresh SRAM, which list no byte. -/
theorem State.Canonical.mapCartridge {s : State} (h : s.Canonical) (b : Handle) : (s.mapCartridge b).Canonical := by
  refine ⟨fun q => ?_, ?_, ?_⟩
  · rw [State.mapCartridge_slot]
    split_ifs
    · exact Slot.fresh_canonical _
    · rfl
    · rfl
    · exact h.blocks q
  · rw [State.mapCartridge_state]; exact h.pages
  · rw [State.mapCartridge_state]; exact h.buffers

/-- A load writes no byte. -/
theorem State.Canonical.loadWith {n : Width} {w : Word → Word} {a : Word} {s t : State} (h : s.Canonical)
    (hx : loadWith n w a s = .next t) : t.Canonical := by
  rw [loadWith_frame hx]; exact h.congr rfl rfl rfl

/-- A store writes inside its block and removes pages. -/
theorem State.Canonical.storeWith {n : Width} {a v : Word} {s t : State} (h : s.Canonical)
    (hx : storeWith n a v s = .next t) : t.Canonical := by
  obtain ⟨r, -, hr, rfl⟩ := storeWith_eq_next.1 hx
  exact (State.Canonical.writeAt (s := s.begin) (h.congr rfl rfl rfl) hr v).invalidateAll _

/-- A transfer that completes has written inside its block. -/
theorem State.Canonical.execDmaXfer {chan : BitVec 2} {d : Descriptor} {s t : State} (h : s.Canonical)
    (hx : execDmaXfer chan d s = .next t) : t.Canonical := by
  obtain ⟨-, ⟨-, rfl⟩ | ⟨S, D, -, -, hfit, rfl⟩⟩ := execDmaXfer_eq_next.1 hx
  · exact h.congr rfl rfl rfl
  · have hcopies := State.Canonical.afterCopies (s := s.begin.putDesc d) (h.congr rfl rfl rfl) hfit
    exact hcopies.congr (by simp) (by simp) (by simp)

/-- Every operation keeps the state canonical. -/
theorem State.Canonical.exec {i : Instr} {s t : State} (h : s.Canonical) (hx : exec i s = .next t) : t.Canonical := by
  cases i with
  | reset =>
    rw [execReset_eq_next.1 hx]
    exact ⟨(h.congr (t := s.begin) rfl rfl rfl).freshRam.blocks, rfl, h.buffers⟩
  | mapBios b =>
    obtain ⟨-, rfl⟩ := execMapBios_eq_next.1 hx
    exact (h.congr (t := s.begin) rfl rfl rfl).setSlot _ rfl
  | mapRom b e =>
    obtain ⟨-, rfl⟩ := execMapRom_eq_next.1 hx
    exact ((h.congr (t := s.begin) rfl rfl rfl).mapCartridge b).congr rfl rfl rfl
  | load8 | loadU8 | load16 | loadU16 | load32 => exact State.Canonical.loadWith h hx
  | store8 | store16 | store32 => exact State.Canonical.storeWith h hx
  | waitN16 | waitS16 | waitN32 | waitS32 => rw [waitWith_frame hx]; exact h.congr rfl rfl rfl
  | adjTim => rw [execAdjTim_eq_next.1 hx]; exact h.congr rfl rfl rfl
  | dmaXfer => exact State.Canonical.execDmaXfer h hx
  | icMark => rw [execIcMark_eq_next.1 hx]; exact ⟨h.blocks, PageSet.insert_wf h.pages _, h.buffers⟩
  | icQuery => rw [execIcQuery_eq_next.1 hx]; exact h.congr rfl rfl rfl

/-- Settles O46: in-range writes keep a block's bytes canonical, and the page set is changed by insertion and removal
alone. -/
theorem stepKeepsTheStateCanonical : Obligations.StepKeepsTheStateCanonical := fun _ _ =>
  step_keeps (fun _ _ h => h.congr rfl rfl rfl) (fun _ _ _ h => h.exec)

/-- Settles O47: fresh blocks list no byte, and the page set and the buffers are empty. -/
theorem powerOnIsCanonical : Obligations.PowerOnIsCanonical :=
  ⟨State.reset_blocks_canonical, rfl, rfl⟩

/-! ### The timing tables, the page array and the read-only views -/

/-- Every entry of the reset tables is `WS_RESET` (10_state.md R19). -/
theorem Timing.atReset_entry (k : TableKind) (r : Fin 16) : Timing.atReset.entry k r = (Config.wsReset k r).toNat := by
  have htable : Timing.atReset.table k = Timing.resetTable k := by cases k <;> rfl
  have hentry : (Timing.resetTable k)[r] = Config.wsReset k r := by fin_cases r <;> rfl
  rw [Timing.entry, htable, hentry]

/-- `ADJTIM` writes entries of the slots 0x8, 0xA, 0xC and 0xE alone (43_timing.md R105, decision D4). -/
theorem Timing.adjust_entry_other (t : Timing) (ctl : BitVec 16) (k : TableKind) {r : Fin 16} (h8 : r ≠ 0x8)
    (hA : r ≠ 0xA) (hC : r ≠ 0xC) (hE : r ≠ 0xE) : (t.adjust ctl).entry k r = t.entry k r := by
  simp only [Timing.adjust, Timing.adjustRom, Timing.adjustSram, Timing.entry_set, slotCart0, slotCart1, slotCart2,
    slotCartSram, h8, hA, hC, hE, and_false, if_false]

/-- Settles O32: the frame of every other operation leaves the tables. -/
theorem onlyResetAndAdjustWriteTiming : Obligations.OnlyResetAndAdjustWriteTiming := by
  intro i s t h
  cases i with
  | reset => rw [execReset_eq_next.1 h]; exact Timing.atReset_entry
  | adjTim ctl =>
    rw [execAdjTim_eq_next.1 h]
    exact fun k r h8 hA hC hE => Timing.adjust_entry_other s.timing ctl k h8 hA hC hE
  | mapBios => exact (congrArg State.timing (execMapBios_frame h) :)
  | mapRom => exact (congrArg State.timing (execMapRom_frame h) :)
  | load8 | loadU8 | load16 | loadU16 | load32 => exact (congrArg State.timing (loadWith_frame h) :)
  | store8 | store16 | store32 => exact (congrArg State.timing (storeWith_frame h) :)
  | waitN16 | waitS16 | waitN32 | waitS32 => exact (congrArg State.timing (waitWith_frame h) :)
  | dmaXfer => exact (congrArg State.timing (execDmaXfer_frame h) :)
  | icMark => exact (congrArg State.timing (execIcMark_eq_next.1 h) :)
  | icQuery => exact (congrArg State.timing (execIcQuery_eq_next.1 h) :)

/-- A store adds no page (42_decode_cache.md R90). -/
theorem storeWith_has_of_has {n : Width} {a v : Word} {s t : State} (h : storeWith n a v s = .next t) (p : Nat)
    (hp : t.icache.has p = true) : s.icache.has p = true := by
  obtain ⟨r, -, -, rfl⟩ := storeWith_eq_next.1 h
  rw [State.has_invalidateAll, State.writeAt_icache, Bool.and_eq_true] at hp
  exact hp.1

/-- Settles O51: the frame of every other operation leaves the page set. -/
theorem pageArrayWriters : Obligations.PageArrayWriters := by
  intro i s t h
  cases i with
  | reset => rw [execReset_eq_next.1 h]; rfl
  | store8 | store16 | store32 => exact storeWith_has_of_has h
  | icMark page =>
    intro p
    rw [execIcMark_eq_next.1 h, State.markPage_icache, State.begin_icache, PageSet.has_insert, Bool.or_eq_true,
      decide_eq_true_eq, eq_comm]
  | mapBios => exact (congrArg State.icache (execMapBios_frame h) :)
  | mapRom => exact (congrArg State.icache (execMapRom_frame h) :)
  | load8 | loadU8 | load16 | loadU16 | load32 => exact (congrArg State.icache (loadWith_frame h) :)
  | waitN16 | waitS16 | waitN32 | waitS32 => exact (congrArg State.icache (waitWith_frame h) :)
  | adjTim => exact (congrArg State.icache (execAdjTim_eq_next.1 h) :)
  | dmaXfer => exact (congrArg State.icache (execDmaXfer_frame h) :)
  | icQuery => exact (congrArg State.icache (execIcQuery_eq_next.1 h) :)

/-- Settles O48: `RESET` replaces the five RAM kinds alone, and a slot of the shape of a read-only view is that view. -/
theorem readOnlyBytesAreNeverWritten : Obligations.ReadOnlyBytesAreNeverWritten := by
  intro i s t h
  refine ⟨exec_buffers h, ?_⟩
  cases i with
  | reset =>
    rw [execReset_eq_next.1 h]
    intro r hr
    simp only [List.mem_cons, List.not_mem_nil, or_false] at hr
    rw [State.clearPages_slot, State.putTiming_slot, State.freshRam_slot]
    obtain rfl | rfl | rfl | rfl | rfl | rfl | rfl := hr <;> rfl
  | mapBios | mapRom => trivial
  | _ => exact fun r b k n hr => exec_readOnly rfl h hr

/-- Settles O6: the slot table is a fixed one, the timing tables are `Timing.atReset`. -/
theorem powerOnStateOfTheBlock : Obligations.PowerOnStateOfTheBlock :=
  ⟨rfl, rfl, rfl, rfl, rfl, rfl, rfl, rfl, by decide, Timing.atReset_entry, rfl, rfl⟩

end Sys2Proof.Machine
end

section
/-! PROOFS. The command port, the cartridge aliases, and the loads and stores of every slot variant
(20_memory.md). -/

namespace Sys2Proof.Machine

/-! ### The command port -/

/-- No operation reads or writes the port: the next command waits there unchanged (20_memory.md R45). -/
theorem exec_port {i : Instr} {s t : State} (h : exec i s = .next t) : t.port = s.port := by
  cases i with
  | reset => exact (congrArg State.port (execReset_frame h) :)
  | mapBios => exact (congrArg State.port (execMapBios_frame h) :)
  | mapRom => exact (congrArg State.port (execMapRom_frame h) :)
  | load8 | loadU8 | load16 | loadU16 | load32 => exact (congrArg State.port (loadWith_frame h) :)
  | store8 | store16 | store32 => exact (congrArg State.port (storeWith_frame h) :)
  | waitN16 | waitS16 | waitN32 | waitS32 => exact (congrArg State.port (waitWith_frame h) :)
  | adjTim => exact (congrArg State.port (execAdjTim_eq_next.1 h) :)
  | dmaXfer => exact (congrArg State.port (execDmaXfer_frame h) :)
  | icMark => exact (congrArg State.port (execIcMark_eq_next.1 h) :)
  | icQuery => exact (congrArg State.port (execIcQuery_eq_next.1 h) :)

/-- A step that goes on found a command the decoder accepts and ran it on the state with the rest of the port. -/
theorem step_eq_next_iff {s t : State} :
    step s = .next t ↔
      ∃ c rest i, s.port = c :: rest ∧ decode c = .ok i ∧ exec i { s with port := rest } = .next t := by
  cases hp : s.port with
  | nil => simp [step, State.fetch, hp]
  | cons c rest => cases hd : decode c <;> simp [step, State.fetch, hp, hd]

/-- Settles O2: no operation touches the port, so what is left there is the rest behind the command taken. -/
theorem stepTakesOneCommandInOrder : Obligations.StepTakesOneCommandInOrder := by
  intro s t h
  obtain ⟨c, rest, i, hp, -, hx⟩ := step_eq_next_iff.1 h
  exact ⟨c, by rw [hp, exec_port hx]⟩

/-! ### The cartridge aliases -/

/-- A view of a buffer shows the buffer's bytes from its byte offset on, 16 MiB of them at most (10_state.md R14). -/
theorem State.byteIn_of_view {s t : State} {r : Fin 16} {b : Handle} {k : Nat} (hr : t.slot r = s.viewOf b k)
    (hb : t.buffers = s.buffers) (o : Nat) :
    t.byteIn r o =
      if o < min ((s.buffer b).len - k) 0x01000000 then some ((s.buffer b).byte (k + o)) else none := by
  simp only [State.byteIn, hr, State.viewOf, cartHalf, State.buffer_congr hb]

/-- After a cartridge image the low half stands at the slots 0x8, 0xA and 0xC (40_lifecycle.md R72). -/
theorem execMapRom_slot_low {b : Handle} {e : Bool} {s t : State} (h : execMapRom b e s = .next t) {r : Fin 16}
    (hr : r ∈ [(0x8 : Fin 16), 0xA, 0xC]) : t.slot r = s.viewOf b 0 := by
  obtain ⟨-, rfl⟩ := execMapRom_eq_next.1 h
  rw [State.putInfo_slot, State.mapCartridge_slot]
  simp only [List.mem_cons, List.not_mem_nil, or_false] at hr
  obtain rfl | rfl | rfl := hr <;> simp [State.viewOf]

/-- After an image longer than 16 MiB the upper half stands at the slots 0x9, 0xB and 0xD (R72). -/
theorem execMapRom_slot_high {b : Handle} {e : Bool} {s t : State} (h : execMapRom b e s = .next t)
    (hlong : 0x01000000 < (s.buffer b).len) {r : Fin 16} (hr : r ∈ [(0x9 : Fin 16), 0xB, 0xD]) :
    t.slot r = s.viewOf b 0x01000000 := by
  obtain ⟨-, rfl⟩ := execMapRom_eq_next.1 h
  rw [State.putInfo_slot, State.mapCartridge_slot]
  simp only [List.mem_cons, List.not_mem_nil, or_false] at hr
  obtain rfl | rfl | rfl := hr <;> simp [State.viewOf, hlong]

/-- Settles O11: the three slots of a half hold one and the same view of the image. -/
theorem cartridgeAliasesReadTheImage : Obligations.CartridgeAliasesReadTheImage := by
  intro s t b e h o
  refine ⟨fun r hr => ?_, fun hlong r hr => State.byteIn_of_view (execMapRom_slot_high h hlong hr) (exec_buffers h) o⟩
  simpa using State.byteIn_of_view (execMapRom_slot_low h hr) (exec_buffers h) o

/-! ### Loads -/

/-- Each of the five loads is the common load at some width and widening (41_load_store.md R80). -/
theorem exec_load_eq_loadWith {a : Word} {i : Instr}
    (hi : i ∈ [Instr.load8 a, Instr.loadU8 a, Instr.load16 a, Instr.loadU16 a, Instr.load32 a]) :
    ∃ n w, ∀ s, exec i s = loadWith n w a s := by
  simp only [List.mem_cons, List.not_mem_nil, or_false] at hi
  obtain rfl | rfl | rfl | rfl | rfl := hi <;> exact ⟨_, _, fun _ => rfl⟩

/-- A slot has bytes exactly when it is mapped and not the I/O block. -/
theorem Slot.hasBytes_iff {x : Slot} : x.hasBytes = true ↔ x ≠ .unmapped ∧ x ≠ .io := by
  cases x <;> simp [Slot.hasBytes]

/-- A load completes only on an address whose region names a mapped slot the access fits in. -/
theorem loadWith_next_fits {n : Width} {w : Word → Word} {a : Word} {s t : State} (h : loadWith n w a s = .next t)
    {r : Fin 16} (hr : regionOf a = r) : s.slot r ≠ .unmapped ∧ offsetOf a + n.bytes ≤ (s.slot r).size := by
  obtain ⟨q, hq, ho, -⟩ := loadWith_eq_next.1 h
  obtain ⟨hi, hm⟩ := State.mappedSlot_eq_some.1 hq
  obtain rfl : r = q := Option.some.inj ((slotIndex_eq_some.2 hr).symm.trans hi)
  exact ⟨hm, ho⟩

/-- A load charges nothing and reports nothing. -/
theorem loadWith_resp {n : Width} {w : Word → Word} {a : Word} {s t : State} (h : loadWith n w a s = .next t) :
    ∃ v, t.resp = { Response.blank with rdata := some v } := by
  obtain ⟨r, -, -, rfl⟩ := loadWith_eq_next.1 h
  exact ⟨_, by rw [State.putRdata_resp, State.readAt_resp, State.begin_resp]⟩

/-- A load from a slot with bytes changes the response alone (R41). -/
theorem loadWith_frame_of_hasBytes {n : Width} {w : Word → Word} {a : Word} {s t : State}
    (h : loadWith n w a s = .next t) {r : Fin 16} (hr : regionOf a = r) (hb : (s.slot r).hasBytes = true) :
    t = { s with resp := t.resp } := by
  have hload := loadWith_bytes (w := w) (slotIndex_eq_some.2 hr) hb (loadWith_next_fits h hr).2
  obtain rfl := Host.Outcome.next.inj (h.symm.trans hload)
  rfl

/-- A load starts from a blank response, so the response of the operation before it makes no difference. -/
theorem loadWith_resp_irrelevant (n : Width) (w : Word → Word) (a : Word) (s : State) (p : Response) :
    loadWith n w a { s with resp := p } = loadWith n w a s := rfl

/-- A load from the I/O slot answers with the next draw of the oracle, truncated and widened (R37). -/
theorem loadWith_io {n : Width} {w : Word → Word} {a : Word} {s : State} {r : Fin 16} (hr : regionOf a = r)
    (hs : s.slot r = .io) (ho : offsetOf a + n.bytes ≤ 0x1000000) :
    loadWith n w a s =
      .next { s with
        resp := { Response.blank with rdata := some (w (truncTo n (Config.ioValue s.ioDraws))) },
        ioDraws := s.ioDraws + 1 } := by
  have hm : s.mappedSlot a = some r := State.mappedSlot_eq_some.2 ⟨slotIndex_eq_some.2 hr, by simp [hs]⟩
  refine loadWith_eq_next.2 ⟨r, hm, by rw [hs]; exact ho, ?_⟩
  rw [State.readAt_io (s := s.begin) hs]
  rfl

/-- Settles O17: the common frame of the loads; a slot that is not the I/O block draws nothing from the oracle. -/
theorem loadsChangeNoState : Obligations.LoadsChangeNoState := by
  intro s t a i hi h
  obtain ⟨n, w, hexec⟩ := exec_load_eq_loadWith hi
  rw [hexec] at h
  have hframe := loadWith_frame h
  obtain ⟨v, hresp⟩ := loadWith_resp h
  refine ⟨hframe, by rw [hresp]; rfl, by rw [hresp]; rfl, fun b => ?_, fun r hr hio => ?_⟩
  · rw [hframe]; exact State.byteAt_congr rfl rfl b
  · have hb : (s.slot r).hasBytes = true := Slot.hasBytes_iff.2 ⟨(loadWith_next_fits h hr).1, hio⟩
    rw [loadWith_frame_of_hasBytes h hr hb]

/-- Widening reads the low bits alone, which truncation keeps. -/
theorem sext8_truncTo (v : Word) : sext8 (truncTo .b1 v) = (v.setWidth 8).signExtend 32 := by
  simp [sext8, truncTo]

theorem zext8_truncTo (v : Word) : zext8 (truncTo .b1 v) = (v.setWidth 8).setWidth 32 := by
  simp [zext8, truncTo]

theorem sext16_truncTo (v : Word) : sext16 (truncTo .b2 v) = (v.setWidth 16).signExtend 32 := by
  simp [sext16, truncTo]

theorem zext16_truncTo (v : Word) : zext16 (truncTo .b2 v) = (v.setWidth 16).setWidth 32 := by
  simp [zext16, truncTo]

/-- Settles O15: the load from the I/O slot at each width, with the widening of the truncated draw. A byte is in range
at every offset. -/
theorem loadsFromIoAnswerAnArbitraryValue : Obligations.LoadsFromIoAnswerAnArbitraryValue := by
  intro s a r hr hs v answer
  have hbyte : offsetOf a + Width.b1.bytes ≤ 0x1000000 := offsetOf_lt a
  refine ⟨?_, ?_, fun h2 => ⟨?_, ?_⟩, fun h4 => loadWith_io hr hs h4⟩
  · rw [← sext8_truncTo]; exact loadWith_io hr hs hbyte
  · rw [← zext8_truncTo]; exact loadWith_io hr hs hbyte
  · rw [← sext16_truncTo]; exact loadWith_io hr hs h2
  · rw [← zext16_truncTo]; exact loadWith_io hr hs h2

/-! ### Stores -/

/-- Truncation to a byte and to a halfword as masks, and to a word as nothing (20_memory.md R35). -/
theorem truncTo_b1 (v : Word) : truncTo .b1 v = v &&& 0xFF := by
  ext i hi
  interval_cases i <;> simp [truncTo]

theorem truncTo_b2 (v : Word) : truncTo .b2 v = v &&& 0xFFFF := by
  ext i hi
  interval_cases i <;> simp [truncTo]

/-- Removing pages changes the page set alone (42_decode_cache.md R90). -/
theorem State.invalidateAll_state (s : State) (ps : List Nat) :
    s.invalidateAll ps = { s with icache := (s.invalidateAll ps).icache } := by
  simp [State.eq_iff_fields]

/-- A store to a mapped region whose aligned access is in range completes (41_load_store.md R80). -/
theorem storeWith_completes {n : Width} {a v : Word} {s : State} {r : Fin 16} (hr : regionOf a = r)
    (hm : s.slot r ≠ .unmapped) (ho : offsetOf (alignDown n a) + n.bytes ≤ (s.slot r).size) :
    storeWith n a v s =
      .next ((s.begin.writeAt r (offsetOf (alignDown n a)) n v).invalidateAll (storePages n a)) :=
  storeWith_eq_next.2 ⟨r, State.mappedSlot_eq_some.2 ⟨slotIndex_eq_some.2 hr, hm⟩, ho, rfl⟩

/-- A store that completes removes exactly the pages `storePages` names, whatever the slot (R86 to R88). -/
theorem storeWith_has {n : Width} {a v : Word} {s t : State} (h : storeWith n a v s = .next t) (p : Nat) :
    t.icache.has p = (s.icache.has p && !(storePages n a).contains p) := by
  obtain ⟨r, -, -, rfl⟩ := storeWith_eq_next.1 h
  rw [State.has_invalidateAll, State.writeAt_icache, State.begin_icache]

/-- An in-range store to a read-only view removes its pages and does nothing else (20_memory.md R36). -/
theorem storeWith_ro {n : Width} {a v : Word} {s : State} {r : Fin 16} (hr : regionOf a = r)
    (hs : ∃ b k size, s.slot r = .ro b k size) (ho : offsetOf (alignDown n a) + n.bytes ≤ (s.slot r).size) :
    storeWith n a v s = .next (s.begin.invalidateAll (storePages n a)) := by
  obtain ⟨b, k, size, hro⟩ := hs
  rw [storeWith_completes hr (by simp [hro]) ho, State.writeAt_ro (s := s.begin) hro]

/-- An in-range store to the I/O slot is passed on as an event and removes its pages (R37). -/
theorem storeWith_io {n : Width} {a v : Word} {s : State} {r : Fin 16} (hr : regionOf a = r) (hs : s.slot r = .io)
    (ho : offsetOf (alignDown n a) + n.bytes ≤ (s.slot r).size) :
    storeWith n a v s =
      .next ((s.begin.emit (.ioWrite (offsetOf (alignDown n a)) n.bytes (truncTo n v))).invalidateAll
        (storePages n a)) := by
  rw [storeWith_completes hr (by simp [hs]) ho, State.writeAt_io (s := s.begin) hs]

/-- Each of the three stores is the common store at its width, with the value its width truncates to (R86 to R88). -/
theorem exec_store_eq_storeWith {a v : Word} {x : Instr × Width × Word}
    (hx : x ∈ [(Instr.store8 a v, Width.b1, v &&& 0xFF), (Instr.store16 a v, Width.b2, v &&& 0xFFFF),
      (Instr.store32 a v, Width.b4, v)]) :
    (∀ s, exec x.1 s = storeWith x.2.1 a v s) ∧ truncTo x.2.1 v = x.2.2 := by
  simp only [List.mem_cons, List.not_mem_nil, or_false] at hx
  obtain rfl | rfl | rfl := hx
  · exact ⟨fun _ => rfl, truncTo_b1 v⟩
  · exact ⟨fun _ => rfl, truncTo_b2 v⟩
  · exact ⟨fun _ => rfl, rfl⟩

/-- Settles O21: a store to either variant leaves the slot table, and removes its pages like any store. -/
theorem storesToReadOnlyAndIoChangeNoByte : Obligations.StoresToReadOnlyAndIoChangeNoByte := by
  intro s a v r hr x hx ho
  obtain ⟨hexec, htrunc⟩ := exec_store_eq_storeWith hx
  rw [hexec, ← htrunc]
  refine ⟨fun hs => ?_, fun hs => ?_⟩
  · have h := storeWith_ro (v := v) hr hs ho
    exact ⟨_, h, State.invalidateAll_state _ _, storeWith_has h⟩
  · have h := storeWith_io (v := v) hr hs ho
    exact ⟨_, h, State.invalidateAll_state _ _, storeWith_has h⟩

/-- Settles O54: a load from a slot with bytes leaves a state that differs in the response alone, from which the load
goes to the same state; the pages of a store are those `storePages` lists. -/
theorem loadsAreIdempotentAndStoresRemoveTheirPages : Obligations.LoadsAreIdempotentAndStoresRemoveTheirPages := by
  refine ⟨fun s t a i hi h => ?_, fun s t a v => ⟨fun i hi h p => ?_, fun h p => ?_⟩⟩
  · obtain ⟨n, w, hexec⟩ := exec_load_eq_loadWith hi
    rw [hexec] at h
    have hframe := loadWith_frame h
    refine ⟨by rw [hframe], by rw [hframe], by rw [hframe], by rw [hframe], fun r hr hb => ?_⟩
    have hresp := loadWith_frame_of_hasBytes h hr hb
    have hagain : loadWith n w a t = loadWith n w a s := by
      rw [hresp]; exact loadWith_resp_irrelevant n w a s t.resp
    exact ⟨hresp, by rw [hexec, hagain, h]⟩
  · simp only [List.mem_cons, List.not_mem_nil, or_false] at hi
    obtain rfl | rfl := hi <;> simp [storeWith_has h p, storePages, pageOf, pageShift]
  · simp [storeWith_has h p, storePages, pageOf, pageShift, Bool.and_assoc]

/-! ### `MemWrite` -/

/-- Settles O57: the two checks of `MemWrite` in their order, then the write, which leaves the page set; and what
aligning does to an address. -/
theorem memWriteChecksThenWrites : Obligations.MemWriteChecksThenWrites := by
  intro s a v n
  refine ⟨fun hunmapped => ?_, fun r hr hm => ?_, fun t h => ?_, alignDown_region n a, ?_⟩
  · exact State.memWrite_eq_error.2
      (.inl ⟨State.mappedSlot_eq_none.2 fun r hr => hunmapped r (slotIndex_eq_some.1 hr), rfl⟩)
  · have hslot : s.mappedSlot a = some r := State.mappedSlot_eq_some.2 ⟨slotIndex_eq_some.2 hr, hm⟩
    exact ⟨fun h => by simp only [State.memWrite, hslot, h], fun t h => by simp only [State.memWrite, hslot, h]⟩
  · obtain ⟨r, -, -, rfl⟩ := State.memWrite_eq_ok.1 h
    exact State.writeAt_icache ..
  · rw [alignDown_offset]
    have := Nat.div_add_mod' (offsetOf a) n.bytes
    omega

end Sys2Proof.Machine
end

section
/-! PROOFS. The decoder and the encoder, the reserved encodings, and what the response carries (30_encoding.md). -/

namespace Sys2Proof.Machine

/-! ### Decoding and encoding -/

/-- The mode codes of R57: a code decodes to a mode exactly when it is that mode's own. -/
theorem decodeAddrCtl_eq_some {c : BitVec 2} {m : AddrCtl} : decodeAddrCtl c = some m ↔ encodeAddrCtl m = c := by
  revert c
  cases m <;> decide

/-- The one reserved mode code is 3 (R57). -/
theorem decodeAddrCtl_eq_none {c : BitVec 2} : decodeAddrCtl c = none ↔ c = 3#2 := by
  revert c
  decide

theorem decodeAddrCtl_encodeAddrCtl (m : AddrCtl) : decodeAddrCtl (encodeAddrCtl m) = some m :=
  decodeAddrCtl_eq_some.2 rfl

/-- A command with the selector and the listed fields of an operation is left by its encoding. -/
theorem encodeOver_eq_self {i : Instr} {c : Command} (hop : c.op.toNat = i.selector.toNat)
    (hput : i.putOperands c = c) : i.encodeOver c = c := by
  rw [Instr.encodeOver, ← BitVec.eq_of_toNat_eq hop]
  exact hput

/-- A format D command decodes to a transfer whose fields are the command's (R51, R56). -/
theorem putOperands_of_decodeDma {c : Command} {i : Instr} (h : decodeDma c = .ok i) :
    i.selector = 0x11 ∧ i.putOperands c = c := by
  simp only [decodeDma] at h
  split at h
  next sc dc hsrc hdst =>
    cases h
    simp [Instr.selector, Instr.putOperands, decodeAddrCtl_eq_some.1 hsrc, decodeAddrCtl_eq_some.1 hdst]
  next => cases h

/-- A format D command is refused exactly for a reserved mode code (R57, R61). -/
theorem decodeDma_eq_error {c : Command} {e : DecodeError} :
    decodeDma c = .error e ↔ (c.srcCtl = 3#2 ∨ c.dstCtl = 3#2) ∧ e = .reservedMode c.chan := by
  rw [← decodeAddrCtl_eq_none, ← decodeAddrCtl_eq_none, decodeDma]
  cases decodeAddrCtl c.srcCtl <;> cases decodeAddrCtl c.dstCtl <;> simp [eq_comm]

/-- The command that presents an operation decodes to it, whatever stands on the fields its format does not list
(R51). -/
theorem decode_encodeOver (i : Instr) (c : Command) : decode (i.encodeOver c) = .ok i := by
  cases i with
  | dmaXfer chan d =>
    change decodeDma _ = _
    simp only [decodeDma, Instr.encodeOver, Instr.putOperands, decodeAddrCtl_encodeAddrCtl]
  | _ => rfl

/-- A command that decodes to an operation has that operation's selector and listed fields already (R50, R51). Of the
decoder's arms the 17th is `DMAXFER` and the 20th the rejection. -/
theorem encodeOver_of_decode {i : Instr} {c : Command} (h : decode c = .ok i) : i.encodeOver c = c := by
  simp only [decode] at h
  split at h
  case h_17 hop =>
    obtain ⟨hsel, hput⟩ := putOperands_of_decodeDma h
    exact encodeOver_eq_self (by rw [hsel]; exact hop) hput
  case h_20 => cases h
  all_goals
    cases h
    exact encodeOver_eq_self ‹_› rfl

/-- Settles O4: encoding over a command and decoding gives back the operation, and a command that decodes to an
operation is left by its encoding. -/
theorem decodeAndEncodeAgree : Obligations.DecodeAndEncodeAgree := fun i c =>
  ⟨⟨encodeOver_of_decode, fun h => h ▸ decode_encodeOver i c⟩, decode_encodeOver i c, decode_encodeOver i _⟩

/-- Settles O3: nine fixed commands, each read off by the decoder. -/
theorem specCommandsDecode : Obligations.SpecCommandsDecode := by
  unfold Obligations.SpecCommandsDecode
  decide

/-- The selectors R50 does not list are rejected by name (R61). -/
theorem decode_of_reserved {c : Command} (h : c.op = 0x03#5 ∨ 0x14 ≤ c.op.toNat) :
    decode c = .error (.undefinedSelector c.op) := by
  simp only [decode]
  split
  case h_20 => rfl
  all_goals
    exfalso
    bv_omega

theorem decode_of_dmaXfer {c : Command} (h : c.op = 0x11#5) : decode c = decodeDma c := by
  simp only [decode, h]
  rfl

/-- Every listed selector but that of `DMAXFER` is accepted with any operands (R50, R51). -/
theorem decode_of_listed {c : Command} (hres : ¬ (c.op = 0x03#5 ∨ 0x14 ≤ c.op.toNat)) (hdma : c.op ≠ 0x11#5) :
    ∃ i, decode c = .ok i := by
  have h3 : c.op.toNat ≠ 3 := fun h => hres (.inl (BitVec.eq_of_toNat_eq h))
  simp only [decode]
  split
  case h_17 => bv_omega
  case h_20 =>
    simp only [imp_false] at *
    omega
  all_goals exact ⟨_, rfl⟩

/-- What the decoder rejects, and by which name: the selectors R50 does not list, and a reserved mode code (R61). -/
theorem decode_eq_error {c : Command} {e : DecodeError} :
    decode c = .error e ↔
      ((c.op = 0x03#5 ∨ 0x14 ≤ c.op.toNat) ∧ e = .undefinedSelector c.op) ∨
      (c.op = 0x11#5 ∧ (c.srcCtl = 3#2 ∨ c.dstCtl = 3#2) ∧ e = .reservedMode c.chan) := by
  by_cases hres : c.op = 0x03#5 ∨ 0x14 ≤ c.op.toNat
  · have hdma : c.op ≠ 0x11#5 := by bv_omega
    simp [decode_of_reserved hres, hres, hdma, eq_comm]
  by_cases hdma : c.op = 0x11#5
  · simp [decode_of_dmaXfer hdma, decodeDma_eq_error, hdma]
  · obtain ⟨i, hi⟩ := decode_of_listed hres hdma
    simp [hi, hres, hdma]

/-! ### One step -/

/-- A step runs the operation of the oldest command on the state with the rest of the port (20_memory.md R45). -/
theorem step_of_decode {s : State} {c : Command} {rest : List Command} {i : Instr} (hp : s.port = c :: rest)
    (hd : decode c = .ok i) : step s = exec i { s with port := rest } := by
  simp [step, State.fetch, hp, hd]

/-- A step refuses a command the decoder rejects (R61). -/
theorem step_of_decode_error {s : State} {c : Command} {rest : List Command} {e : DecodeError} (hp : s.port = c :: rest)
    (hd : decode c = .error e) : step s = .refused (refusalOf e) := by
  simp [step, State.fetch, hp, hd]

theorem step_of_port_nil {s : State} (hp : s.port = []) : step s = .refused .noOperation := by
  simp [step, State.fetch, hp]

/-- Settles O1: what is on the port and what the decoder answers decide the step. -/
theorem stepRunsTheDecodedCommand : Obligations.StepRunsTheDecodedCommand :=
  ⟨fun _ _ _ _ => step_of_decode, fun _ _ _ _ => step_of_decode_error, fun _ => step_of_port_nil⟩

/-! ### Reserved operand values -/

theorem execDmaXfer_countZero {d : Descriptor} (h : d.count = 0) (chan : BitVec 2) (s : State) :
    execDmaXfer chan d s = .refused (.countZero chan) := by
  simp [execDmaXfer, h]

theorem execMapBios_emptyBuffer {b : Handle} {s : State} (h : (s.buffer b).len = 0) :
    execMapBios b s = .refused (.emptyBuffer b) := by
  simp [execMapBios, h]

theorem execMapRom_emptyBuffer {b : Handle} {s : State} (h : (s.buffer b).len = 0) (e : Bool) :
    execMapRom b e s = .refused (.emptyBuffer b) := by
  simp [execMapRom, h]

/-- A field inside bits 10 to 0 does not see bits 15 to 11 (R54). -/
theorem extractLsb'_and_low (v : BitVec 16) {k n : Nat} (h : k + n ≤ 11) :
    (v &&& 0x07FF).extractLsb' k n = v.extractLsb' k n := by
  have hmask : ∀ j, j < 11 → (0x07FF#16).getLsbD j = true := by decide
  ext j hj
  simp [hmask (k + j) (by omega)]

/-- `ADJTIM` reads bits 10 to 0 of the control word alone (R54, R60). -/
theorem Timing.adjust_and_low (t : Timing) (ctl : BitVec 16) : t.adjust (ctl &&& 0x07FF) = t.adjust ctl := by
  simp only [Timing.adjust, ctlSram, ctlWs0n, ctlWs0s, ctlWs1n, ctlWs1s, ctlWs2n, ctlWs2s, extractLsb'_and_low ctl,
    Nat.reduceAdd, Nat.reduceLeDiff]

/-- Settles O5: the decoder's rejections, the two refusals of an operation's own, and the operands that are ignored or
accepted. -/
theorem reservedEncodingsTreatedAsSpecified : Obligations.ReservedEncodingsTreatedAsSpecified := by
  refine ⟨fun c => ?_, fun s c rest hp hop => ?_, fun s c rest hp hop hmode => ?_, fun s chan d h => ?_,
    fun s b e h => ⟨?_, ?_⟩, fun s ctl => ?_, fun s page _ => ⟨⟨_, rfl⟩, ⟨_, rfl⟩⟩⟩
  · simp [decode_eq_error]
  · exact step_of_decode_error hp (decode_of_reserved hop)
  · exact step_of_decode_error hp (decode_eq_error.2 (.inr ⟨hop, hmode, rfl⟩))
  · exact execDmaXfer_countZero h chan s
  · exact execMapRom_emptyBuffer h e
  · exact execMapBios_emptyBuffer h
  · change execAdjTim _ s = execAdjTim _ s
    rw [execAdjTim, execAdjTim, Timing.adjust_and_low]

/-! ### What the response carries -/

@[simp] theorem State.freshRam_resp (s : State) : s.freshRam.resp = s.resp := rfl

/-- A store answers with no value and no Cartridge Info (R59). -/
theorem storeWith_resp {n : Width} {a v : Word} {s t : State} (h : storeWith n a v s = .next t) :
    t.resp.rdata = none ∧ t.resp.info = none := by
  obtain ⟨r, -, -, rfl⟩ := storeWith_eq_next.1 h
  simp [Response.blank]

/-- A wait answers with its charge alone (R59). -/
theorem waitWith_resp {k : TableKind} {a : Word} {s t : State} (h : waitWith k a s = .next t) :
    ∃ n, t.resp = { Response.blank with cycAdd := n } := by
  obtain ⟨r, -, rfl⟩ := waitWith_eq_next.1 h
  exact ⟨_, rfl⟩

/-- A transfer answers with no value and no Cartridge Info (R59). -/
theorem execDmaXfer_resp {chan : BitVec 2} {d : Descriptor} {s t : State} (h : execDmaXfer chan d s = .next t) :
    t.resp.rdata = none ∧ t.resp.info = none := by
  obtain ⟨-, ⟨-, rfl⟩ | ⟨S, D, -, -, -, rfl⟩⟩ := execDmaXfer_eq_next.1 h <;> simp [Response.blank]

/-- `MAPROM` answers with the Cartridge Info alone (R59). -/
theorem execMapRom_resp {b : Handle} {e : Bool} {s t : State} (h : execMapRom b e s = .next t) :
    ∃ c, t.resp = { Response.blank with info := some c } := by
  obtain ⟨-, rfl⟩ := execMapRom_eq_next.1 h
  exact ⟨_, by rw [State.putInfo_resp, State.mapCartridge_state]; rfl⟩

/-- Settles O53: the response of each shape of operation. -/
theorem responseFieldsByOperation : Obligations.ResponseFieldsByOperation := by
  intro i s t h
  refine ⟨exec_port h, ?_⟩
  cases i with
  | reset => simp [execReset_eq_next.1 h, Response.blank]
  | mapBios =>
    obtain ⟨-, rfl⟩ := execMapBios_eq_next.1 h
    simp [Response.blank]
  | mapRom =>
    obtain ⟨c, hresp⟩ := execMapRom_resp h
    simp [hresp, Response.blank]
  | load8 | loadU8 | load16 | loadU16 | load32 =>
    obtain ⟨v, hresp⟩ := loadWith_resp h
    simp [hresp, Response.blank]
  | store8 | store16 | store32 =>
    obtain ⟨hrdata, hinfo⟩ := storeWith_resp h
    simp [hrdata, hinfo]
  | waitN16 | waitS16 | waitN32 | waitS32 =>
    obtain ⟨n, hresp⟩ := waitWith_resp h
    simp [hresp, Response.blank]
  | adjTim => simp [execAdjTim_eq_next.1 h, Response.blank]
  | dmaXfer =>
    obtain ⟨hrdata, hinfo⟩ := execDmaXfer_resp h
    simp [hrdata, hinfo]
  | icMark => simp [execIcMark_eq_next.1 h, Response.blank]
  | icQuery => simp [execIcQuery_eq_next.1 h, Response.blank]

end Sys2Proof.Machine
end

section
/-! PROOFS. The three lifecycle operations and the Cartridge Info (40_lifecycle.md). -/

namespace Sys2Proof.Machine

/-- Every byte of a freshly allocated block is 0 (10_state.md R13). -/
theorem State.byteIn_of_fresh {s : State} {r : Fin 16} {size : Nat} (h : s.slot r = Slot.fresh size) {o : Nat}
    (ho : o < size) : s.byteIn r o = some 0 := by
  simp only [State.byteIn, h, Slot.fresh, ho, if_true]
  rfl

/-! ### `RESET` -/

/-- Two slot tables are equal when every slot is. -/
theorem State.slots_eq_of_slot {s t : State} (h : ∀ q, s.slot q = t.slot q) : s.slots = t.slots :=
  Vector.ext fun i hi => h ⟨i, hi⟩

/-- `RESET` writes the five RAM kinds, the tables, the page set and the response (40_lifecycle.md R70). -/
theorem execReset_eq (s : State) :
    execReset s = .next { s with slots := s.freshRam.slots, timing := Timing.atReset, icache := [],
                                 resp := Response.blank } := rfl

/-- Every slot after `RESET`: the five RAM kinds fresh, every other as before (R70). -/
theorem execReset_slot {s t : State} (h : execReset s = .next t) (q : Fin 16) : t.slot q = s.freshRam.slot q := by
  rw [execReset_eq_next.1 h]
  rfl

/-- `RESET` twice in a row equals `RESET` once (R70). -/
theorem execReset_idempotent {s t : State} (h : execReset s = .next t) : execReset t = .next t := by
  have hslots : t.freshRam.slots = t.slots := State.slots_eq_of_slot fun q => by
    rw [State.freshRam_slot, execReset_slot h, State.freshRam_slot]
    split_ifs <;> rfl
  rw [execReset_eq, hslots]
  cases h
  rfl

/-- Settles O7: the five slots `freshRam` writes are fresh blocks, the frame of `RESET` keeps the rest, and fresh blocks
stay as they are under a second `RESET`. -/
theorem resetRestoresRamTablesAndPages : Obligations.ResetRestoresRamTablesAndPages := by
  intro s
  obtain ⟨t, h⟩ : ∃ t, execReset s = .next t := ⟨_, rfl⟩
  have hslot (q : Fin 16) := (execReset_slot h q).trans (s.freshRam_slot q)
  have h2 := hslot 0x2
  have h3 := hslot 0x3
  have h5 := hslot 0x5
  have h6 := hslot 0x6
  have h7 := hslot 0x7
  refine ⟨t, h, h2, h3, h5, h6, h7, fun _ => State.byteIn_of_fresh h2, fun _ => State.byteIn_of_fresh h3,
    fun _ => State.byteIn_of_fresh h5, fun _ => State.byteIn_of_fresh h6, fun _ => State.byteIn_of_fresh h7, ?_, ?_, ?_,
    ?_, execReset_idempotent h⟩
  · intro r n2 n3 n5 n6 n7
    simp only [hslot, n2, n3, n5, n6, n7, if_false]
  · rw [execReset_eq_next.1 h]; exact Timing.atReset_entry
  · rw [execReset_eq_next.1 h]; exact fun _ => rfl
  · rw [execReset_eq_next.1 h]; rfl

/-! ### `MAPBIOS` -/

/-- Settles O8: `MAPBIOS` writes slot 0x0 alone, with the view from byte 0. -/
theorem mapBiosInstallsTheView : Obligations.MapBiosInstallsTheView := by
  refine fun s b => ⟨execMapBios_emptyBuffer, fun hb => ?_⟩
  exact ⟨_, execMapBios_eq_next.2 ⟨Nat.one_le_iff_ne_zero.1 hb, rfl⟩, State.setSlot_slot_same ..,
    fun r => State.setSlot_slot_other s.begin _, rfl⟩

/-! ### `MAPROM` -/

/-- `MAPROM` of a buffer with bytes completes and answers with the Cartridge Info, all unset without `extract`
(R72, R74, R76). -/
theorem execMapRom_completes {s : State} {b : Handle} (hb : 1 ≤ (s.buffer b).len) (e : Bool) :
    ∃ t, execMapRom b e s = .next t ∧
      t.resp = { Response.blank with info := some (if e then (s.buffer b).cartInfo else CartInfo.unset) } :=
  ⟨_, execMapRom_eq_next.2 ⟨Nat.one_le_iff_ne_zero.1 hb, rfl⟩, by
    rw [State.putInfo_resp, State.mapCartridge_state]; rfl⟩

/-- Every slot after `MAPROM` (R72, R73). -/
theorem execMapRom_slot {b : Handle} {e : Bool} {s t : State} (h : execMapRom b e s = .next t) (q : Fin 16) :
    t.slot q = (s.mapCartridge b).slot q := by
  rw [(execMapRom_eq_next.1 h).2, State.putInfo_slot, State.mapCartridge_slot, State.mapCartridge_slot]
  rfl

/-- `MAPROM` leaves the slots below 0x8 and slot 0xF (R72). -/
theorem execMapRom_slot_other {b : Handle} {e : Bool} {s t : State} (h : execMapRom b e s = .next t) {r : Fin 16}
    (hr : r.val < 8 ∨ r = 0xF) : t.slot r = s.slot r := by
  rw [execMapRom_slot h, State.mapCartridge_slot]
  have hE : r ≠ 0xE := by omega
  have hhigh : ¬ (r = 0x9 ∨ r = 0xB ∨ r = 0xD) := by omega
  have hlow : ¬ (r = 0x8 ∨ r = 0xA ∨ r = 0xC) := by omega
  simp only [hE, hhigh, hlow, and_false, if_false]

/-- `MAPROM` of an image of at most 16 MiB leaves the slots 0x9, 0xB and 0xD (R72, decision D23). -/
theorem execMapRom_slot_high_short {b : Handle} {e : Bool} {s t : State} (h : execMapRom b e s = .next t)
    (hshort : (s.buffer b).len ≤ 0x01000000) {r : Fin 16} (hr : r ∈ [(0x9 : Fin 16), 0xB, 0xD]) :
    t.slot r = s.slot r := by
  have hlong : ¬ 0x01000000 < (s.buffer b).len := Nat.not_lt.2 hshort
  simp only [execMapRom_slot h, State.mapCartridge_slot, hlong, false_and, if_false]
  simp only [List.mem_cons, List.not_mem_nil, or_false] at hr
  obtain rfl | rfl | rfl := hr <;> rfl

/-- Settles O9: the slots of `MAPROM` one group at a time, and its frame with the Cartridge Info on the response. -/
theorem mapRomInstallsViewsAndSram : Obligations.MapRomInstallsViewsAndSram := by
  refine fun s b e => ⟨fun hb => execMapRom_emptyBuffer hb e, fun hb => ?_⟩
  obtain ⟨t, h, hresp⟩ := execMapRom_completes hb e
  have hlow {r : Fin 16} := execMapRom_slot_low h (r := r)
  have h8 := hlow (r := 0x8) (by decide)
  have hsram : t.slot 0xE = Slot.fresh 0x10000 := (execMapRom_slot h 0xE).trans (s.mapCartridge_slot b 0xE)
  refine ⟨t, h, h8, (hlow (by decide)).trans h8.symm, (hlow (by decide)).trans h8.symm, fun hlong => ?_,
    fun hshort => ?_, hsram, fun _ => State.byteIn_of_fresh hsram, fun _ => execMapRom_slot_other h, ?_⟩
  · have hhigh {r : Fin 16} := execMapRom_slot_high h hlong (r := r)
    have h9 := hhigh (r := 0x9) (by decide)
    exact ⟨h9, (hhigh (by decide)).trans h9.symm, (hhigh (by decide)).trans h9.symm⟩
  · have hkeep {r : Fin 16} := execMapRom_slot_high_short h hshort (r := r)
    exact ⟨hkeep (by decide), hkeep (by decide), hkeep (by decide)⟩
  · rw [← hresp]
    exact execMapRom_frame h

/-! ### The Cartridge Info -/

/-- Settles O10: `MAPROM` answers with `Buffer.cartInfo`, whose fields are prefixes up to the first zero byte. -/
theorem cartridgeInfoIsExtractedAsSpecified : Obligations.CartridgeInfoIsExtractedAsSpecified := by
  intro s b hb field
  obtain ⟨t, ht, htresp⟩ := execMapRom_completes hb true
  obtain ⟨u, hu, huresp⟩ := execMapRom_completes hb false
  have hfield (base n : Nat) : (s.buffer b).field base n = field base n := Buffer.field_eq_takeWhile ..
  refine ⟨⟨t, ht, ?_⟩, u, hu, ?_⟩
  · simp only [htresp, if_true, Buffer.cartInfo, metaTitle, metaCode, metaMaker, hfield]
  · rw [huresp]
    rfl

end Sys2Proof.Machine
end

section
/-! PROOFS. The values the loads answer, the bytes the stores write in a read-write block, and the faults of both
(41_load_store.md). -/

namespace Sys2Proof.Machine

/-! ### Addresses of one region -/

/-- The byte `k` past an address in the same region is the byte `k` past its offset in the same slot. -/
theorem State.byteAt_add {a : Word} {r : Fin 16} {k : Nat} (hr : regionOf a = r) (hk : offsetOf a + k < 0x1000000)
    (s : State) : s.byteAt (a + BitVec.ofNat 32 k) = s.byteIn r (offsetOf a + k) := by
  obtain ⟨hregion, hoffset⟩ := region_offset_add hk
  rw [State.byteAt_of_slotIndex (slotIndex_eq_some.2 (hregion.trans hr)), hoffset]

/-- A slot that holds a byte at an offset has bytes, and its view reaches the offset. -/
theorem State.byteIn_eq_some_view {s : State} {r : Fin 16} {o : Nat} {b : Byte} (h : s.byteIn r o = some b) :
    (s.slot r).hasBytes = true ∧ o < (s.slot r).size := by
  cases hs : s.slot r with
  | unmapped | io => simp [State.byteIn, hs] at h
  | rw | ro =>
    simp only [State.byteIn, hs, Option.ite_none_right_eq_some] at h
    exact ⟨rfl, h.1⟩

/-- An address whose region names no slot, or an unmapped one, is not mapped (20_memory.md R32). -/
theorem State.mappedSlot_of_unmapped {s : State} {a : Word}
    (h : ∀ r : Fin 16, regionOf a = r → s.slot r = .unmapped) : s.mappedSlot a = none :=
  State.mappedSlot_eq_none.2 fun r hr => h r (slotIndex_eq_some.1 hr)

/-- An address whose region names a mapped slot is mapped to it (R32). -/
theorem State.mappedSlot_of_region {s : State} {a : Word} {r : Fin 16} (hr : regionOf a = r)
    (hm : s.slot r ≠ .unmapped) : s.mappedSlot a = some r :=
  State.mappedSlot_eq_some.2 ⟨slotIndex_eq_some.2 hr, hm⟩

/-! ### What the loads answer -/

/-- A load of bytes of one region that the stores hold answers with their little-endian value, widened, at any address
(R80, decision D6). -/
theorem loadWith_of_byteAt {n : Width} {w : Word → Word} {a : Word} {s : State} {bs : List Byte}
    (hlen : bs.length = n.bytes) (hfit : offsetOf a + n.bytes ≤ 0x1000000)
    (hbs : ∀ (i : Nat) (hi : i < bs.length), s.byteAt (a + BitVec.ofNat 32 i) = some bs[i]) :
    loadWith n w a s =
      .next { s with resp := { Response.blank with rdata := some (w (BitVec.ofNat 32 (valueOfBytes bs))) } } := by
  have hpos : 0 < n.bytes := by cases n <;> decide
  obtain ⟨r, hslot, hb, -, -⟩ := State.byteAt_eq_some.1 (hbs 0 (by omega))
  rw [BitVec.add_zero] at hslot
  have hbyte (i : Nat) (hi : i < bs.length) : s.byteIn r (offsetOf a + i) = some bs[i] := by
    rw [← State.byteAt_add (slotIndex_eq_some.1 hslot) (by omega), hbs i hi]
  obtain ⟨-, hlast⟩ := State.byteIn_eq_some_view (hbyte (n.bytes - 1) (by omega))
  have hlist : (List.range n.bytes).map (fun i => (s.byteIn r (offsetOf a + i)).getD 0) = bs :=
    List.ext_getElem (by simp [hlen]) fun i _ hi => by simp [hbyte i hi]
  rw [loadWith_bytes hslot hb (by omega), hlist]

/-- A byte above a shorter value, as a number. -/
theorem append_byte_toNat {k : Nat} (hi : BitVec k) (lo : Byte) : (hi ++ lo).toNat = lo.toNat + 256 * hi.toNat := by
  rw [BitVec.toNat_append, ← Nat.shiftLeft_add_eq_or_of_lt lo.isLt, Nat.shiftLeft_eq, Nat.add_comm,
    Nat.mul_comm]

/-- The little-endian value of one, two and four bytes as one word (20_memory.md R33). -/
theorem ofNat_valueOfBytes_one (b : Byte) : BitVec.ofNat 32 (valueOfBytes [b]) = b.setWidth 32 := by
  simp [valueOfBytes]

theorem ofNat_valueOfBytes_two (b0 b1 : Byte) :
    BitVec.ofNat 32 (valueOfBytes [b0, b1]) = (b1 ++ b0).setWidth 32 := by
  rw [← BitVec.ofNat_toNat, append_byte_toNat]; rfl

theorem ofNat_valueOfBytes_four (b0 b1 b2 b3 : Byte) :
    BitVec.ofNat 32 (valueOfBytes [b0, b1, b2, b3]) = (b3 ++ b2 ++ b1 ++ b0).setWidth 32 := by
  rw [← BitVec.ofNat_toNat, append_byte_toNat, append_byte_toNat, append_byte_toNat]
  rfl

/-- Settles O12: the load of one byte, with each widening of it. -/
theorem byteLoadsWidenTheByte : Obligations.ByteLoadsWidenTheByte := by
  intro s a b hb
  have hload (w : Word → Word) := loadWith_of_byteAt (n := .b1) (w := w) (bs := [b]) rfl (offsetOf_lt a) (s := s)
    (by simpa using hb)
  simp only [ofNat_valueOfBytes_one] at hload
  refine ⟨(hload sext8).trans ?_, (hload zext8).trans ?_⟩
  · simp [sext8]
  · simp [zext8]

/-- Settles O13: the load of two bytes, with each widening of the halfword. -/
theorem halfwordLoadsWidenTheBytes : Obligations.HalfwordLoadsWidenTheBytes := by
  intro s a b0 b1 hfit hb0 hb1
  have hload (w : Word → Word) := loadWith_of_byteAt (n := .b2) (w := w) (bs := [b0, b1]) rfl hfit (s := s)
    fun | 0, _ => by simpa using hb0 | 1, _ => hb1
  simp only [ofNat_valueOfBytes_two] at hload
  refine ⟨(hload sext16).trans ?_, (hload zext16).trans ?_⟩
  · simp [sext16]
  · simp [zext16]

/-- Settles O14: the load of four bytes, which nothing widens. -/
theorem wordLoadAnswersTheBytes : Obligations.WordLoadAnswersTheBytes := by
  intro s a b0 b1 b2 b3 hfit hb0 hb1 hb2 hb3
  rw [← ofNat_valueOfBytes_four]
  exact loadWith_of_byteAt (n := .b4) (w := id) (bs := [b0, b1, b2, b3]) rfl hfit
    fun | 0, _ => by simpa using hb0 | 1, _ => hb1 | 2, _ => hb2 | 3, _ => hb3

/-! ### What a store writes in a read-write block -/

/-- Byte `i` of a value is its bits `8i+7:8i` (20_memory.md R33). -/
theorem ofNat_div_eq_extractLsb' (v : Word) (i : Nat) :
    BitVec.ofNat 8 (v.toNat / 256 ^ i) = v.extractLsb' (8 * i) 8 := by
  rw [BitVec.extractLsb', Nat.shiftRight_eq_div_pow, Nat.pow_mul]

/-- A write to a read-write block sets its slot and does nothing else (R35). -/
theorem State.writeAt_rw {s : State} {r : Fin 16} {size : Nat} {m : Memory} (hs : s.slot r = .rw size m) (o : Nat)
    (n : Width) (v : Word) :
    s.writeAt r o n v = s.setSlot r (.rw size (m.writeBytes o (bytesOfValue n.bytes v.toNat))) := by
  simp only [State.writeAt, hs]

/-- The bytes of a read-write block of a canonical state are in canonical form. -/
theorem State.Canonical.memory_wf {s : State} (hc : s.Canonical) {r : Fin 16} {size : Nat} {m : Memory}
    (hs : s.slot r = .rw size m) : m.wf = true := by
  have hblock := hc.blocks r
  rw [hs, Slot.canonical, Bool.and_eq_true] at hblock
  exact hblock.1

/-- A store that completes is the write at the aligned offset of its region's slot, and the removal of its pages. -/
theorem storeWith_next_at {n : Width} {a v : Word} {s t : State} (h : storeWith n a v s = .next t) {r : Fin 16}
    (hr : regionOf a = r) :
    offsetOf (alignDown n a) + n.bytes ≤ (s.slot r).size ∧
      t = (s.begin.writeAt r (offsetOf (alignDown n a)) n v).invalidateAll (storePages n a) := by
  obtain ⟨q, hq, ho, ht⟩ := storeWith_eq_next.1 h
  obtain rfl : r = q :=
    Option.some.inj ((slotIndex_eq_some.2 hr).symm.trans (State.mappedSlot_eq_some.1 hq).1)
  exact ⟨ho, ht⟩

section ReadWriteBlock

variable {n : Width} {a v : Word} {s t : State} {r : Fin 16} {size : Nat} {m : Memory}
  (h : storeWith n a v s = .next t) (hr : regionOf a = r) (hs : s.slot r = .rw size m)
include h hr hs

/-- A store to a read-write block leaves the other slots and the block's size, and blanks the response (R86 to R88). -/
theorem storeWith_rw_frame :
    (∀ q, q ≠ r → t.slot q = s.slot q) ∧ (∃ m', t.slot r = .rw size m') ∧
      t = { s with slots := t.slots, icache := t.icache, resp := Response.blank } := by
  have ht := (storeWith_next_at h hr).2
  rw [State.writeAt_rw (s := s.begin) hs] at ht
  subst ht
  refine ⟨fun q hq => by simp [hq], ⟨_, by rw [State.invalidateAll_slot, State.setSlot_slot_same]⟩, ?_⟩
  simp [State.eq_iff_fields]

/-- The byte of a slot after a store to a read-write block: the value's byte inside the access, else the old one. -/
theorem storeWith_rw_byteIn (hc : s.Canonical) (q : Fin 16) (x : Nat) :
    t.byteIn q x =
      if q = r ∧ offsetOf (alignDown n a) ≤ x ∧ x < offsetOf (alignDown n a) + n.bytes
      then some (v.extractLsb' (8 * (x - offsetOf (alignDown n a))) 8) else s.byteIn q x := by
  obtain ⟨ho, rfl⟩ := storeWith_next_at h hr
  rw [hs, Slot.size] at ho
  rw [State.byteIn_congr (State.invalidateAll_slot ..) (State.invalidateAll_buffers ..),
    State.byteIn_writeAt_rw (s := s.begin) hs (hc.memory_wf hs) ho]
  split_ifs with hx
  · rw [bytesOfValue_getD _ (by omega), ofNat_div_eq_extractLsb']
  · rfl

/-- Byte `i` of the access reads the value's byte `i` (R86 to R88). -/
theorem storeWith_rw_byteAt (hc : s.Canonical) (hsize : size ≤ 0x1000000) {i : Nat} (hi : i < n.bytes) :
    t.byteAt (alignDown n a + BitVec.ofNat 32 i) = some (v.extractLsb' (8 * i) 8) := by
  have ho := (storeWith_next_at h hr).1
  rw [hs, Slot.size] at ho
  rw [State.byteAt_add ((alignDown_region n a).trans hr) (by omega), storeWith_rw_byteIn h hr hs hc,
    if_pos (by omega), Nat.add_sub_cancel_left]

/-- An address outside the access reads as before (R86 to R88). -/
theorem storeWith_rw_byteAt_other (hc : s.Canonical) (hsize : size ≤ 0x1000000) {x : Word}
    (hx : ∀ i, i < n.bytes → x ≠ alignDown n a + BitVec.ofNat 32 i) : t.byteAt x = s.byteAt x := by
  have ho := (storeWith_next_at h hr).1
  rw [hs, Slot.size] at ho
  cases hslot : slotIndex x with
  | none => simp only [State.byteAt, hslot]
  | some q =>
    rw [State.byteAt_of_slotIndex hslot, State.byteAt_of_slotIndex hslot, storeWith_rw_byteIn h hr hs hc, if_neg]
    rintro ⟨rfl, hlow, hhigh⟩
    have hadd := region_offset_add (a := alignDown n a) (k := offsetOf x - offsetOf (alignDown n a)) (by omega)
    refine hx (offsetOf x - offsetOf (alignDown n a)) (by omega) (eq_of_region_offset ?_ ?_)
    · rw [hadd.1, alignDown_region, hr, slotIndex_eq_some.1 hslot]
    · omega

end ReadWriteBlock

/-- Settles O18: the one byte of the access, and every other. -/
theorem byteStoreWritesOneByte : Obligations.ByteStoreWritesOneByte := by
  intro s a v r size m hc hr hs ho hsize
  have h := storeWith_completes (n := .b1) (v := v) (s := s) hr (by simp [hs]) (by rw [hs]; exact ho)
  refine ⟨_, h, fun x => ?_, fun p => ?_, storeWith_rw_frame h hr hs⟩
  · have hbyte {i : Nat} := storeWith_rw_byteAt h hr hs hc hsize (i := i)
    split_ifs with h0
    · rw [h0]; simpa [alignDown, BitVec.setWidth_eq_extractLsb'] using hbyte (i := 0) (by decide)
    · exact storeWith_rw_byteAt_other h hr hs hc hsize fun
        | 0, _ => by simpa [alignDown] using h0
  · rw [storeWith_has h]; simp [storePages, pageOf, pageShift]

/-- Settles O19: the two bytes of the access in turn, and every other. -/
theorem halfwordStoreWritesTwoBytes : Obligations.HalfwordStoreWritesTwoBytes := by
  intro s a v r size m hc hr hs ho hsize
  have h := storeWith_completes (n := .b2) (v := v) (s := s) hr (by simp [hs]) (by rw [hs]; exact ho)
  refine ⟨_, h, fun x => ?_, fun p => ?_, storeWith_rw_frame h hr hs⟩
  · have hbyte {i : Nat} := storeWith_rw_byteAt h hr hs hc hsize (i := i)
    split_ifs with h0 h1
    · rw [h0]; simpa using hbyte (i := 0) (by decide)
    · rw [h1]; exact hbyte (i := 1) (by decide)
    · exact storeWith_rw_byteAt_other h hr hs hc hsize fun
        | 0, _ => by simpa using h0
        | 1, _ => h1
  · rw [storeWith_has h]; simp [storePages, pageOf, pageShift]

/-- Settles O20: the four bytes of the access in turn, and every other. -/
theorem wordStoreWritesFourBytes : Obligations.WordStoreWritesFourBytes := by
  intro s a v r size m hc hr hs ho hsize
  have h := storeWith_completes (n := .b4) (v := v) (s := s) hr (by simp [hs]) (by rw [hs]; exact ho)
  refine ⟨_, h, fun x => ?_, fun p => ?_, storeWith_rw_frame h hr hs⟩
  · have hbyte {i : Nat} := storeWith_rw_byteAt h hr hs hc hsize (i := i)
    split_ifs with h0 h1 h2 h3
    · rw [h0]; simpa using hbyte (i := 0) (by decide)
    · rw [h1]; exact hbyte (i := 1) (by decide)
    · rw [h2]; exact hbyte (i := 2) (by decide)
    · rw [h3]; exact hbyte (i := 3) (by decide)
    · exact storeWith_rw_byteAt_other h hr hs hc hsize fun
        | 0, _ => by simpa using h0
        | 1, _ => h1
        | 2, _ => h2
        | 3, _ => h3
  · rw [storeWith_has h]; simp [storePages, pageOf, pageShift, Bool.and_assoc]

/-! ### When loads and stores fault -/

/-- Each of the five loads is the common load at the width its bytes name (41_load_store.md R80 to R85). -/
theorem exec_load_eq_loadWith_width {a : Word} {x : Instr × Nat}
    (hx : x ∈ [(Instr.load8 a, 1), (Instr.loadU8 a, 1), (Instr.load16 a, 2), (Instr.loadU16 a, 2),
      (Instr.load32 a, 4)]) :
    ∃ n w, n.bytes = x.2 ∧ ∀ s, exec x.1 s = loadWith n w a s := by
  simp only [List.mem_cons, List.not_mem_nil, or_false] at hx
  obtain rfl | rfl | rfl | rfl | rfl := hx
  · exact ⟨.b1, sext8, rfl, fun _ => rfl⟩
  · exact ⟨.b1, zext8, rfl, fun _ => rfl⟩
  · exact ⟨.b2, sext16, rfl, fun _ => rfl⟩
  · exact ⟨.b2, zext16, rfl, fun _ => rfl⟩
  · exact ⟨.b4, id, rfl, fun _ => rfl⟩

/-- Each of the three stores is the common store at its width (R86 to R88). -/
theorem exec_store_eq_storeWith_width {a v : Word} {x : Instr × Width}
    (hx : x ∈ [(Instr.store8 a v, Width.b1), (Instr.store16 a v, Width.b2), (Instr.store32 a v, Width.b4)])
    (s : State) : exec x.1 s = storeWith x.2 a v s := by
  simp only [List.mem_cons, List.not_mem_nil, or_false] at hx
  obtain rfl | rfl | rfl := hx <;> rfl

/-- Settles O16: the common load, on an unmapped region, past the view and inside it. -/
theorem loadsFaultExactlyOutsideTheViews : Obligations.LoadsFaultExactlyOutsideTheViews := by
  refine fun s a => ⟨fun hunmapped x hx => ?_, fun r hr hm x hx => ?_⟩
  · obtain ⟨n, w, -, hexec⟩ := exec_load_eq_loadWith_width hx
    rw [hexec]
    exact loadWith_eq_fault.2 (.inl ⟨State.mappedSlot_of_unmapped hunmapped, rfl⟩)
  · obtain ⟨n, w, hn, hexec⟩ := exec_load_eq_loadWith_width hx
    have hslot := State.mappedSlot_of_region hr hm
    rw [hexec, ← hn]
    exact ⟨fun hpast => loadWith_eq_fault.2 (.inr ⟨r, hslot, hpast, rfl⟩),
      fun hfit => ⟨_, loadWith_eq_next.2 ⟨r, hslot, hfit, rfl⟩⟩⟩

/-- Settles O22: the common store, on an unmapped region, past the view and inside it. -/
theorem storesFaultExactlyOutsideTheViews : Obligations.StoresFaultExactlyOutsideTheViews := by
  refine fun s a v => ⟨fun hunmapped x hx => ?_, fun r hr hm x hx => ?_⟩
  · rw [exec_store_eq_storeWith_width hx]
    exact storeWith_eq_fault.2 (.inl ⟨State.mappedSlot_of_unmapped hunmapped, rfl⟩)
  · rw [exec_store_eq_storeWith_width hx]
    exact ⟨fun hpast => storeWith_eq_fault.2 (.inr ⟨r, State.mappedSlot_of_region hr hm, hpast, rfl⟩),
      fun hfit => ⟨_, storeWith_completes hr hm hfit⟩⟩

end Sys2Proof.Machine
end

section
/-! PROOFS. The decode-cache array: what stores and transfers remove, `Invalidate`, `ICMARK` and `ICQUERY`
(42_decode_cache.md). -/

namespace Sys2Proof.Machine

/-! ### The page set -/

/-- Removing an absent page changes nothing (42_decode_cache.md R90). -/
theorem PageSet.remove_of_not_has {s : PageSet} {p : Nat} (h : s.has p = false) : s.remove p = s := by
  induction s with
  | nil => rfl
  | cons q rest ih =>
    simp only [PageSet.has, Bool.or_eq_false_iff, decide_eq_false_iff_not] at h
    obtain ⟨hq, hrest⟩ := h
    rw [PageSet.remove, if_neg hq, ih hrest]

/-- Every page of a rising list is above the bound of the list. -/
theorem PageSet.lt_of_wfAbove {s : PageSet} {lo p : Nat} (hwf : PageSet.wfAbove (some lo) s = true)
    (h : s.has p = true) : lo < p := by
  induction s generalizing lo with
  | nil => cases h
  | cons q rest ih =>
    simp only [PageSet.wfAbove, Bool.and_eq_true, decide_eq_true_eq] at hwf
    obtain ⟨hlo, hrest⟩ := hwf
    simp only [PageSet.has, Bool.or_eq_true, decide_eq_true_eq] at h
    obtain rfl | h := h
    · exact hlo
    · exact hlo.trans (ih hrest h)

/-- Inserting a page that a rising list holds changes nothing: the search reaches the page before any larger one. -/
theorem PageSet.insert_of_has {s : PageSet} {lo : Option Nat} {p : Nat} (hwf : PageSet.wfAbove lo s = true)
    (h : s.has p = true) : s.insert p = s := by
  induction s generalizing lo with
  | nil => cases h
  | cons q rest ih =>
    simp only [PageSet.wfAbove, Bool.and_eq_true] at hwf
    obtain ⟨-, hrest⟩ := hwf
    simp only [PageSet.has, Bool.or_eq_true, decide_eq_true_eq] at h
    obtain rfl | h := h
    · simp [PageSet.insert]
    · have hqp : q < p := PageSet.lt_of_wfAbove hrest h
      rw [PageSet.insert, if_neg hqp.asymm, if_neg hqp.ne', ih hrest h]

/-! ### The pages of an address -/

/-- The page of an address stands among the pages a store to it removes, whatever the width (R86 to R88). -/
theorem pageOf_mem_storePages (n : Width) (a : Word) : pageOf a ∈ storePages n a := by
  cases n <;> simp [storePages]

/-- The page index of a 32-bit address (30_encoding.md R53). -/
theorem pageOf_lt (a : Word) : pageOf a < 0x00800000 := by
  have := a.isLt
  simp only [pageOf, pageShift]
  omega

/-- No store names a page above 0x00800000: the page after the last one is the largest (R53, decision D10). -/
theorem storePages_le {n : Width} {a : Word} {p : Nat} (h : p ∈ storePages n a) : p ≤ 0x00800000 := by
  have hpage := pageOf_lt a
  cases n with
  | b1 | b2 =>
    rw [storePages, List.mem_singleton] at h
    omega
  | b4 =>
    simp only [storePages, List.mem_cons, List.not_mem_nil, or_false] at h
    omega

/-! ### The obligations -/

/-- A page that `storePages` names is absent after a store that completes (42_decode_cache.md R93). -/
theorem storeWith_absent {n : Width} {a v : Word} {s t : State} {p : Nat} (h : storeWith n a v s = .next t)
    (hp : p ∈ storePages n a) : t.icache.has p = false := by
  rw [storeWith_has h, List.contains_iff_mem.2 hp, Bool.not_true, Bool.and_false]

/-- Settles O23: both pages stand in `storePages`, and the frame of a transfer keeps the page set. -/
theorem storedPagesAreAbsent : Obligations.StoredPagesAreAbsent := by
  refine ⟨fun s t a v i hi h => ?_, fun s t a v h => ?_, fun s t chan d h => ?_⟩
  · have habsent {n : Width} (h : storeWith n a v s = .next t) : t.icache.has (pageOf a) = false :=
      storeWith_absent h (pageOf_mem_storePages n a)
    simp only [List.mem_cons, List.not_mem_nil, or_false] at hi
    obtain rfl | rfl | rfl := hi <;> exact habsent h
  · exact storeWith_absent (n := .b4) (p := pageOf a + 1) h (by simp [storePages])
  · exact (congrArg State.icache (execDmaXfer_frame h) :)

/-- Settles O26: insertion adds one page, a rising list that holds the page is its own insertion, and the pages of a
store are bounded by the width of an address. -/
theorem icMarkAddsExactlyOnePage : Obligations.IcMarkAddsExactlyOnePage := by
  refine ⟨fun s page => ⟨_, execIcMark_eq_next.2 rfl, fun q => ?_, fun hc hp => ?_, rfl⟩, fun n a p => storePages_le⟩
  · rw [State.markPage_icache, State.begin_icache, PageSet.has_insert, Bool.or_comm]
    simp only [eq_comm]
  · exact PageSet.insert_of_has hc.pages hp

/-- Settles O25: removal of a page from the page set, alone in the state. -/
theorem invalidateRemovesExactlyOnePage : Obligations.InvalidateRemovesExactlyOnePage := by
  refine fun s p => ⟨fun q => ?_, fun habsent => ?_, rfl⟩
  · rw [State.invalidate_icache, PageSet.has_remove, decide_not]
  · rw [State.invalidate, PageSet.remove_of_not_has habsent]

/-- Settles O27: the answer is the membership test, and `RESET` leaves an empty page set. -/
theorem icQueryReportsPresence : Obligations.IcQueryReportsPresence := by
  refine fun s page => ⟨rfl, fun t u hreset hquery => ?_⟩
  have hempty : t.icache = [] := by rw [execReset_eq_next.1 hreset]; rfl
  rw [execIcQuery_eq_next.1 hquery, hempty]
  rfl

end Sys2Proof.Machine
end

section
/-! PROOFS. The four waits, `ADJTIM`, and which operations charge (43_timing.md). -/

namespace Sys2Proof.Machine

/-! ### The waits -/

/-- Each of the four waits is the common wait with its own table (43_timing.md R101 to R104). -/
theorem exec_wait_eq_waitWith {a : Word} {x : Instr × TableKind}
    (hx : x ∈ [(Instr.waitN16 a, TableKind.n16), (Instr.waitS16 a, TableKind.s16),
      (Instr.waitN32 a, TableKind.n32), (Instr.waitS32 a, TableKind.s32)]) (s : State) :
    exec x.1 s = waitWith x.2 a s := by
  simp only [List.mem_cons, List.not_mem_nil, or_false] at hx
  obtain rfl | rfl | rfl | rfl := hx <;> rfl

/-- A charge at the beginning of an operation is the whole of its response (R100). -/
theorem State.begin_charge (s : State) (n : Nat) :
    s.begin.charge n = { s with cycles := s.cycles + n, resp := { Response.blank with cycAdd := n } } := by
  simp [State.eq_iff_fields, Response.blank]

/-- Settles O28: a wait looks up the region's entry, and an address past region 15 has none. -/
theorem waitsChargeOnePlusTheEntry : Obligations.WaitsChargeOnePlusTheEntry := by
  refine fun s addr => ⟨fun r hr x hx => ?_, fun hregion x hx => ?_⟩
  · rw [exec_wait_eq_waitWith hx, ← State.begin_charge]
    exact waitWith_eq_next.2 ⟨r, slotIndex_eq_some.2 hr, rfl⟩
  · have hnone : 16 ≤ regionOf addr := by
      simp only [regionOf, regionShift]; omega
    rw [exec_wait_eq_waitWith hx]
    exact waitWith_eq_fault.2 ⟨slotIndex_eq_none.2 hnone, rfl⟩

/-! ### `ADJTIM` -/

/-- The entry of a ROM region in each table, from its non-sequential and its sequential 16-bit time (R105). -/
def romEntry (n q : Nat) : TableKind → Nat
  | .n16 => n
  | .s16 => q
  | .n32 => n + 1 + q
  | .s32 => 2 * q + 1

/-- Every entry of a ROM region fits its 5 bits (R107). -/
theorem romEntry_lt {n q : Nat} (hn : n ≤ 8) (hq : q ≤ 8) (k : TableKind) : romEntry n q k < 32 := by
  cases k <;> simp only [romEntry] <;> omega

theorem Timing.entry_adjustSram (t : Timing) {w : Nat} (hw : w ≤ 8) (k : TableKind) (r : Fin 16) :
    (t.adjustSram w).entry k r = if r = 0xE then w else t.entry k r := by
  have hfit : w % 32 = w := Nat.mod_eq_of_lt (by omega)
  cases k <;> simp [Timing.adjustSram, slotCartSram, hfit]

theorem Timing.entry_adjustRom (t : Timing) (x : Fin 16) {n q : Nat} (hn : n ≤ 8) (hq : q ≤ 8) (k : TableKind)
    (r : Fin 16) : (t.adjustRom x n q).entry k r = if r = x then romEntry n q k else t.entry k r := by
  rw [← Nat.mod_eq_of_lt (romEntry_lt hn hq k)]
  cases k <;> simp [Timing.adjustRom, romEntry]

/-- A field of the control word as a number (30_encoding.md R54). -/
theorem toNat_ctlField (ctl : BitVec 16) (k n : Nat) :
    (ctl.extractLsb' k n).toNat = ctl.toNat / 2 ^ k % 2 ^ n := by
  rw [BitVec.extractLsb'_toNat, Nat.shiftRight_eq_div_pow]

theorem lutN_eq_getD : ∀ i, lutN i = [4, 3, 2, 8].getD i.toNat 0 := by decide

theorem lutS0_eq_getD : ∀ i, lutS0 i = [2, 1].getD i.toNat 0 := by decide

theorem lutS1_eq_getD : ∀ i, lutS1 i = [4, 1].getD i.toNat 0 := by decide

theorem lutS2_eq_getD : ∀ i, lutS2 i = [8, 1].getD i.toNat 0 := by decide

/-- Every entry of the tables after `ADJTIM`, from the bits of its control word (R105, R54, R55). -/
theorem Timing.entry_adjust (t : Timing) (ctl : BitVec 16) (k : TableKind) (r : Fin 16) :
    (t.adjust ctl).entry k r =
      if r = 0xC then romEntry ([4, 3, 2, 8].getD (ctl.toNat / 256 % 4) 0) ([8, 1].getD (ctl.toNat / 1024 % 2) 0) k
      else if r = 0xA then romEntry ([4, 3, 2, 8].getD (ctl.toNat / 32 % 4) 0) ([4, 1].getD (ctl.toNat / 128 % 2) 0) k
      else if r = 0x8 then romEntry ([4, 3, 2, 8].getD (ctl.toNat / 4 % 4) 0) ([2, 1].getD (ctl.toNat / 16 % 2) 0) k
      else if r = 0xE then [4, 3, 2, 8].getD (ctl.toNat % 4) 0 else t.entry k r := by
  rw [Timing.adjust, Timing.entry_adjustRom _ _ (lutN_le _) (lutS2_le _),
    Timing.entry_adjustRom _ _ (lutN_le _) (lutS1_le _), Timing.entry_adjustRom _ _ (lutN_le _) (lutS0_le _),
    Timing.entry_adjustSram _ (lutN_le _)]
  simp only [lutN_eq_getD, lutS0_eq_getD, lutS1_eq_getD, lutS2_eq_getD, ctlSram, ctlWs0n, ctlWs0s, ctlWs1n, ctlWs1s,
    ctlWs2n, ctlWs2s, toNat_ctlField, slotCart0, slotCart1, slotCart2, Nat.reducePow, Nat.div_one]

/-- Settles O29: the row of each ROM region and the SRAM entry are read off the equation for an entry. -/
theorem adjustTimingWritesTheCartridgeEntries : Obligations.AdjustTimingWritesTheCartridgeEntries := by
  intro s ctl c lut rows
  have hentry := s.timing.entry_adjust ctl
  refine ⟨_, execAdjTim_eq_next.2 rfl, fun k => hentry k 0xE, fun x hx => ?_,
    fun k r => s.timing.adjust_entry_other ctl k, rfl⟩
  simp only [rows, List.mem_cons, List.not_mem_nil, or_false] at hx
  obtain rfl | rfl | rfl := hx <;> exact ⟨hentry .n16 _, hentry .s16 _, hentry .n32 _, hentry .s32 _⟩

/-- Two sets of tables are equal when every entry is. -/
theorem Timing.eq_of_entry {t u : Timing} (h : ∀ k r, t.entry k r = u.entry k r) : t = u := by
  have htable (k : TableKind) : t.table k = u.table k :=
    Vector.ext fun i hi => BitVec.eq_of_toNat_eq (h k ⟨i, hi⟩)
  cases t; cases u
  exact (Timing.mk.injEq ..).mpr ⟨htable .n16, htable .s16, htable .n32, htable .s32⟩

/-- A second `ADJTIM` with the same control word finds every entry it writes (R106). -/
theorem Timing.adjust_adjust (t : Timing) (ctl : BitVec 16) : (t.adjust ctl).adjust ctl = t.adjust ctl := by
  refine Timing.eq_of_entry fun k r => ?_
  rw [Timing.entry_adjust (t.adjust ctl), Timing.entry_adjust t]
  split_ifs <;> rfl

/-- The entries `ADJTIM` writes do not depend on the tables it finds (R106). -/
theorem Timing.adjust_entry_cartridge (t u : Timing) (ctl : BitVec 16) (k : TableKind) {r : Fin 16}
    (hr : r ∈ [(0x8 : Fin 16), 0xA, 0xC, 0xE]) : (t.adjust ctl).entry k r = (u.adjust ctl).entry k r := by
  simp only [List.mem_cons, List.not_mem_nil, or_false] at hr
  rw [Timing.entry_adjust, Timing.entry_adjust]
  obtain rfl | rfl | rfl | rfl := hr <;> rfl

/-- Control words that agree in bits 10 to 0 adjust alike (R54, R106). -/
theorem Timing.adjust_congr (t : Timing) {c e : BitVec 16} (h : c.toNat % 2048 = e.toNat % 2048) :
    t.adjust c = t.adjust e := by
  have hlow : c &&& 0x07FF = e &&& 0x07FF :=
    BitVec.eq_of_toNat_eq (by simpa [Nat.and_two_pow_sub_one_eq_mod _ 11] using h)
  rw [← Timing.adjust_and_low t c, hlow, Timing.adjust_and_low]

/-- Settles O30: a second adjustment writes the entries it finds, and `RESET` replaces the tables. -/
theorem adjustTimingIsIdempotent : Obligations.AdjustTimingIsIdempotent := by
  refine ⟨fun s t ctl h => ?_, fun s u t w c e hce ht hw k r hr => ?_⟩
  · obtain rfl := execAdjTim_eq_next.1 h
    refine ⟨execAdjTim_eq_next.2 ?_, rfl, rfl, rfl, rfl, rfl⟩
    rw [State.putTiming_timing, Timing.adjust_adjust]
    rfl
  · rw [execAdjTim_eq_next.1 ht, execAdjTim_eq_next.1 hw, State.putTiming_timing, State.putTiming_timing,
      Timing.adjust_congr _ hce]
    exact Timing.adjust_entry_cartridge _ _ e k hr

/-! ### Which operations charge -/

/-- A wait charges the counter and the response alike (R100). -/
theorem waitWith_cycles {k : TableKind} {a : Word} {s t : State} (h : waitWith k a s = .next t) :
    t.cycles = s.cycles + t.resp.cycAdd := by
  obtain ⟨r, -, rfl⟩ := waitWith_eq_next.1 h
  rw [State.begin_charge]

/-- A transfer charges the counter and the response alike (R100). -/
theorem execDmaXfer_cycles {chan : BitVec 2} {d : Descriptor} {s t : State} (h : execDmaXfer chan d s = .next t) :
    t.cycles = s.cycles + t.resp.cycAdd := by
  obtain ⟨-, ⟨-, rfl⟩ | ⟨S, D, -, -, -, rfl⟩⟩ := execDmaXfer_eq_next.1 h <;> simp [Response.blank]

/-- A store charges nothing (R100). -/
theorem storeWith_cycAdd {n : Width} {a v : Word} {s t : State} (h : storeWith n a v s = .next t) :
    t.resp.cycAdd = 0 := by
  obtain ⟨r, -, -, rfl⟩ := storeWith_eq_next.1 h
  simp [Response.blank]

/-- The two clauses of R100 for an operation that charges nothing, from its frame and its response. -/
theorem cycles_cycAdd_of_uncharged {s t : State} (hcycles : t.cycles = s.cycles) (hadd : t.resp.cycAdd = 0) :
    t.cycles = s.cycles + t.resp.cycAdd ∧ t.resp.cycAdd = 0 :=
  ⟨by rw [hcycles, hadd, Nat.add_zero], hadd⟩

/-- Settles O31: the frame of every operation but the waits and the transfer keeps the counter. -/
theorem onlyWaitsAndDmaCharge : Obligations.OnlyWaitsAndDmaCharge := by
  intro i s t h
  cases i with
  | waitN16 | waitS16 | waitN32 | waitS32 => exact ⟨waitWith_cycles h, trivial⟩
  | dmaXfer => exact ⟨execDmaXfer_cycles h, trivial⟩
  | reset => rw [execReset_eq_next.1 h]; exact cycles_cycAdd_of_uncharged rfl rfl
  | mapBios =>
    obtain ⟨-, rfl⟩ := execMapBios_eq_next.1 h
    exact cycles_cycAdd_of_uncharged rfl rfl
  | mapRom =>
    obtain ⟨c, hresp⟩ := execMapRom_resp h
    exact cycles_cycAdd_of_uncharged (congrArg State.cycles (execMapRom_frame h) :) (by rw [hresp]; rfl)
  | load8 | loadU8 | load16 | loadU16 | load32 =>
    obtain ⟨v, hresp⟩ := loadWith_resp h
    exact cycles_cycAdd_of_uncharged (congrArg State.cycles (loadWith_frame h) :) (by rw [hresp]; rfl)
  | store8 | store16 | store32 =>
    exact cycles_cycAdd_of_uncharged (congrArg State.cycles (storeWith_frame h) :) (storeWith_cycAdd h)
  | adjTim => rw [execAdjTim_eq_next.1 h]; exact cycles_cycAdd_of_uncharged rfl rfl
  | icMark => rw [execIcMark_eq_next.1 h]; exact cycles_cycAdd_of_uncharged rfl rfl
  | icQuery => rw [execIcQuery_eq_next.1 h]; exact cycles_cycAdd_of_uncharged rfl rfl

end Sys2Proof.Machine
end

section
/-! PROOFS. What a transfer is as a whole: its refusals, its two ways to go on, its faults, and the state it leaves
(44_dma.md). -/

namespace Sys2Proof.Machine

/-! ### When a transfer is refused -/

theorem Descriptor.wellFormed_iff {d : Descriptor} :
    d.wellFormed = true ↔ 1 ≤ d.count.toNat ∧ d.count.toNat ≤ 0x10000 := by
  simp [Descriptor.wellFormed]

/-- A transfer is refused exactly for an illegal count, before any other check (44_dma.md R111). -/
theorem execDmaXfer_eq_refused {chan : BitVec 2} {d : Descriptor} {s : State} {x : Refusal} :
    execDmaXfer chan d s = .refused x ↔
      (d.count.toNat = 0 ∧ x = .countZero chan) ∨ (0x10000 < d.count.toNat ∧ x = .countTooLarge chan) := by
  by_cases hzero : d.count.toNat = 0
  · simp [execDmaXfer, hzero, eq_comm]
  by_cases hlarge : 0x10000 < d.count.toNat
  · simp [execDmaXfer, dmaCountMax, hzero, hlarge, eq_comm]
  · simp only [execDmaXfer, dmaCountMax, hzero, hlarge, if_false, false_and, or_self, iff_false]
    split
    · split <;> exact nofun
    · exact nofun

/-- Settles O33: the two refusals, and none for a legal count. -/
theorem dmaRefusesIllegalCounts : Obligations.DmaRefusesIllegalCounts := by
  refine fun s chan d => ⟨fun hzero => execDmaXfer_eq_refused.2 (.inl ⟨hzero, rfl⟩),
    fun hlarge => execDmaXfer_eq_refused.2 (.inr ⟨hlarge, rfl⟩), fun hlegal x hx => ?_⟩
  have hcount := Descriptor.wellFormed_iff.1 hlegal
  rcases execDmaXfer_eq_refused.1 hx with ⟨h, -⟩ | ⟨h, -⟩ <;> omega

/-! ### The state a completed transfer leaves -/

/-- The descriptor takes no part in a copy. -/
theorem State.writeAt_putDesc (s : State) (d : Descriptor) (r : Fin 16) (o : Nat) (n : Width) (v : Word) :
    (s.putDesc d).writeAt r o n v = (s.writeAt r o n v).putDesc d := by
  simp only [State.writeAt, State.putDesc_slot]
  cases s.slot r <;> rfl

theorem State.readAt_putDesc (s : State) (d : Descriptor) (r : Fin 16) (o : Nat) (n : Width) :
    (s.putDesc d).readAt r o n = ((s.readAt r o n).1, (s.readAt r o n).2.putDesc d) := by
  simp only [State.readAt, State.putDesc_slot]
  cases s.slot r <;> rfl

theorem State.afterCopies_putDesc (s : State) (d : Descriptor) (S D : Fin 16) (cs : List DmaStep) :
    (s.putDesc d).afterCopies S D cs = (s.afterCopies S D cs).putDesc d := by
  induction cs generalizing s with
  | nil => rfl
  | cons c cs ih =>
    rw [State.afterCopies_cons, State.afterCopies_cons, State.readAt_putDesc, State.writeAt_putDesc, ih]

/-- The state after a transfer between two mapped slots: the copies of its schedule, one charge, the completion step
(R110). -/
def State.afterTransfer (s : State) (chan : BitVec 2) (d : Descriptor) (S D : Fin 16) : State :=
  ((((s.begin.afterCopies S D (dmaSchedule d)).putDesc d).charge
    (dmaCost s.timing d.w32 S D d.count.toNat)).dmaComplete chan d)

/-- What a transfer can do when it goes on: report an unmapped side, or perform its schedule in full. -/
theorem execDmaXfer_next_cases {chan : BitVec 2} {d : Descriptor} {s t : State} :
    execDmaXfer chan d s = .next t ↔
      (1 ≤ d.count.toNat ∧ d.count.toNat ≤ 0x10000) ∧
      (((s.mappedSlot d.src = none ∨ s.mappedSlot d.dst = none) ∧
          t = (s.begin.putDesc d).emit (.dmaInvalid chan)) ∨
        (∃ S D, s.mappedSlot d.src = some S ∧ s.mappedSlot d.dst = some D ∧
          (∀ x ∈ dmaSchedule d, DmaStep.fits (s.slot S).size (s.slot D).size x) ∧
          t = s.afterTransfer chan d S D)) := by
  simp only [execDmaXfer_eq_next, State.afterCopies_putDesc, State.afterTransfer]

section AfterTransfer

variable (s : State) (chan : BitVec 2) (d : Descriptor) (S D : Fin 16)

@[simp] theorem State.afterTransfer_slots :
    (s.afterTransfer chan d S D).slots = (s.begin.afterCopies S D (dmaSchedule d)).slots := by
  simp [State.afterTransfer]

@[simp] theorem State.afterTransfer_slot (q : Fin 16) :
    (s.afterTransfer chan d S D).slot q = (s.begin.afterCopies S D (dmaSchedule d)).slot q :=
  State.slot_congr (State.afterTransfer_slots ..) q

@[simp] theorem State.afterTransfer_buffers : (s.afterTransfer chan d S D).buffers = s.buffers := by
  simp [State.afterTransfer]

@[simp] theorem State.afterTransfer_ioDraws :
    (s.afterTransfer chan d S D).ioDraws = (s.begin.afterCopies S D (dmaSchedule d)).ioDraws := by
  simp [State.afterTransfer]

@[simp] theorem State.afterTransfer_events :
    (s.afterTransfer chan d S D).resp.events = (s.begin.afterCopies S D (dmaSchedule d)).resp.events := by
  simp [State.afterTransfer]

@[simp] theorem State.afterTransfer_cycles :
    (s.afterTransfer chan d S D).cycles = s.cycles + dmaCost s.timing d.w32 S D d.count.toNat := by
  simp [State.afterTransfer]

@[simp] theorem State.afterTransfer_cycAdd :
    (s.afterTransfer chan d S D).resp.cycAdd = dmaCost s.timing d.w32 S D d.count.toNat := by
  simp [State.afterTransfer, Response.blank]

@[simp] theorem State.afterTransfer_desc : (s.afterTransfer chan d S D).desc = descAfterCompletion d := by
  simp [State.afterTransfer]

/-- The control registers after a transfer: the channel's own masked with the literal of 30_encoding.md R58 when
`repeat` is unset, every other as before (R118, R119). -/
theorem State.afterTransfer_dmacntOf (c : BitVec 2) :
    (s.afterTransfer chan d S D).dmacntOf c =
      if d.rep = false ∧ c = chan then s.dmacntOf chan &&& 0x7FE0 else s.dmacntOf c := by
  have hkeep (x : BitVec 2) : (((s.begin.afterCopies S D (dmaSchedule d)).putDesc d).charge
      (dmaCost s.timing d.w32 S D d.count.toNat)).dmacntOf x = s.dmacntOf x := by
    simp [State.dmacntOf]
  rw [State.afterTransfer, State.dmaComplete_dmacntOf, hkeep, hkeep]
  rfl

/-- The bytes of every slot after a transfer are those the copies leave (R114). -/
theorem State.afterTransfer_byteIn (q : Fin 16) (o : Nat) :
    (s.afterTransfer chan d S D).byteIn q o = (s.begin.afterCopies S D (dmaSchedule d)).byteIn q o :=
  State.byteIn_congr (State.afterTransfer_slot ..) (by simp) o

end AfterTransfer

section BothSidesMapped

variable {s : State} {chan : BitVec 2} {d : Descriptor} {S D : Fin 16}
  (hsrc : regionOf d.src = S) (hS : s.slot S ≠ .unmapped) (hdst : regionOf d.dst = D) (hD : s.slot D ≠ .unmapped)
include hsrc hS hdst hD

/-- A transfer between two mapped regions that completes has performed its schedule (R110). -/
theorem execDmaXfer_next_mapped {t : State} (h : execDmaXfer chan d s = .next t) :
    (1 ≤ d.count.toNat ∧ d.count.toNat ≤ 0x10000) ∧ t = s.afterTransfer chan d S D := by
  have hmS := State.mappedSlot_of_region hsrc hS
  have hmD := State.mappedSlot_of_region hdst hD
  obtain ⟨hcount, ⟨hnone, -⟩ | ⟨S', D', hS', hD', -, ht⟩⟩ := execDmaXfer_next_cases.1 h
  · rw [hmS, hmD] at hnone; simp at hnone
  · cases hmS.symm.trans hS'
    cases hmD.symm.trans hD'
    exact ⟨hcount, ht⟩

/-- A transfer of a legal count whose copies are all in range completes (R114). -/
theorem execDmaXfer_of_fits (hlegal : d.wellFormed = true)
    (hfit : ∀ c ∈ dmaSchedule d, c.fits (s.slot S).size (s.slot D).size) :
    execDmaXfer chan d s = .next (s.afterTransfer chan d S D) :=
  execDmaXfer_next_cases.2 ⟨Descriptor.wellFormed_iff.1 hlegal,
    .inr ⟨S, D, State.mappedSlot_of_region hsrc hS, State.mappedSlot_of_region hdst hD, hfit, rfl⟩⟩

/-- A transfer of a legal count with a copy out of range faults with the side of the first such copy (R114, R136). -/
theorem execDmaXfer_of_firstUnfit (hlegal : d.wellFormed = true) {side : DmaSide}
    (hunfit : firstUnfit (s.slot S).size (s.slot D).size (dmaSchedule d) = some side) :
    execDmaXfer chan d s = .fault (.fOffsetDma chan side) :=
  execDmaXfer_eq_fault.2 ⟨Descriptor.wellFormed_iff.1 hlegal, S, D, side, State.mappedSlot_of_region hsrc hS,
    State.mappedSlot_of_region hdst hD, hunfit, rfl⟩

end BothSidesMapped

/-- Settles O35: the copies are all in range, or one of them is the first that is not. -/
theorem dmaPerformsItsSchedule : Obligations.DmaPerformsItsSchedule := by
  intro s chan d S D hlegal hsrc hS hdst hD
  refine ⟨fun hfit => ⟨_, execDmaXfer_of_fits hsrc hS hdst hD hlegal hfit, ?_, ?_, ?_⟩, fun hunfit => ?_⟩
  · exact State.afterTransfer_slots ..
  · exact State.afterTransfer_events ..
  · exact State.afterTransfer_ioDraws ..
  · obtain ⟨side, hside⟩ := Option.ne_none_iff_exists'.1 (mt firstUnfit_eq_none.1 hunfit)
    exact ⟨side, execDmaXfer_of_firstUnfit hsrc hS hdst hD hlegal hside⟩

/-! ### The first copy out of range -/

/-- A first copy whose source leaves its view names the source, whatever its destination (60_exceptions.md R136). -/
theorem firstUnfit_cons_source {m n : Nat} {c : DmaStep} (h : c.src < 0 ∨ (m : Int) < c.src + c.n.bytes)
    (cs : List DmaStep) : firstUnfit m n (c :: cs) = some .source := by
  rw [firstUnfit, if_pos h]

/-- A first copy whose destination alone leaves its view names the destination (R136). -/
theorem firstUnfit_cons_destination {m n : Nat} {c : DmaStep} (hlow : 0 ≤ c.src) (hhigh : c.src + c.n.bytes ≤ (m : Int))
    (h : c.dst < 0 ∨ (n : Int) < c.dst + c.n.bytes) (cs : List DmaStep) :
    firstUnfit m n (c :: cs) = some .destination := by
  rw [firstUnfit, if_neg (by omega), if_pos h]

/-- The width of a transfer's first copy: a 16-bit transfer begins with a halfword when it has a prologue or only one
element (44_dma.md R116). -/
def dmaFirstWidth (d : Descriptor) : Width :=
  if d.w32 = false ∧ (offsetOf d.src / 2 % 2 = 1 ∨ d.count.toNat = 1) then .b2 else .b4

theorem dmaFirstWidth_bytes (d : Descriptor) :
    (dmaFirstWidth d).bytes =
      if d.w32 = false ∧ (offsetOf d.src / 2 % 2 = 1 ∨ d.count.toNat = 1) then 2 else 4 :=
  apply_ite Width.bytes ..

/-- A run of at least one copy begins at its own offsets. -/
theorem dmaRun_eq_cons {k : Nat} (hk : k ≠ 0) (n : Width) (a b ss ds : Int) :
    ∃ cs, dmaRun n a b ss ds k = { n := n, src := a, dst := b } :: cs := by
  obtain ⟨j, rfl⟩ := Nat.exists_eq_succ_of_ne_zero hk
  exact ⟨_, dmaRun_succ ..⟩

/-- The first copy of a transfer stands at the two offsets presented, in all nine mode combinations (R114 to R116). -/
theorem dmaSchedule_eq_cons {d : Descriptor} (hcount : 1 ≤ d.count.toNat) :
    ∃ cs, dmaSchedule d = { n := dmaFirstWidth d, src := offsetOf d.src, dst := offsetOf d.dst } :: cs := by
  cases hw : d.w32 with
  | true =>
    simp only [dmaSchedule, dmaFirstWidth, hw, if_true, Bool.true_eq_false, false_and, if_false]
    exact dmaRun_eq_cons (by omega) ..
  | false =>
    by_cases hodd : offsetOf d.src / 2 % 2 = 1
    · simp [dmaSchedule, dmaFirstWidth, dmaPrologue, hw, hodd]
    · by_cases hone : d.count.toNat = 1
      · simp [dmaSchedule, dmaFirstWidth, dmaPrologue, hw, hodd, hone]
      · obtain ⟨cs, hcs⟩ := dmaRun_eq_cons (k := d.count.toNat / 2) (by omega) .b4 (offsetOf d.src) (offsetOf d.dst)
          (2 * dmaStep d.srcCtl .b2) (2 * dmaStep d.dstCtl .b2)
        simp [dmaSchedule, dmaFirstWidth, dmaPrologue, dmaWidth, hw, hodd, hone, hcs]

/-- Settles O36: the copies in range before a copy do not stop the transfer, and the first copy is the case of none
before it. -/
theorem dmaChecksTheSourceSideFirst : Obligations.DmaChecksTheSourceSideFirst := by
  intro s chan d S D hlegal hsrc hS hdst hD
  have hfault {side : DmaSide} := execDmaXfer_of_firstUnfit (chan := chan) hsrc hS hdst hD hlegal (side := side)
  obtain ⟨cs, hfirst⟩ := dmaSchedule_eq_cons (Descriptor.wellFormed_iff.1 hlegal).1
  refine ⟨fun before c after hsched hbefore => ⟨fun hout => hfault ?_, fun hlow hhigh hout => hfault ?_⟩, ?_⟩
  · rw [hsched, firstUnfit_append hbefore, firstUnfit_cons_source hout]
  · rw [hsched, firstUnfit_append hbefore, firstUnfit_cons_destination hlow hhigh hout]
  · intro n
    have hn : (dmaFirstWidth d).bytes = n := dmaFirstWidth_bytes d
    rw [hfirst] at hfault
    refine ⟨fun hout => hfault (firstUnfit_cons_source (.inr ?_) cs),
      fun hin hout => hfault (firstUnfit_cons_destination (Int.natCast_nonneg _) ?_ (.inr ?_) cs)⟩
    all_goals simp only; omega

/-! ### The charge -/

/-- The cost of a legal count is at most 31 + 31 + 65535 * 62 + 2 (43_timing.md R107). -/
theorem dmaCost_le (t : Timing) (w32 : Bool) (S D : Fin 16) {count : Nat} (h : count ≤ 0x10000) :
    dmaCost t w32 S D count ≤ 4063234 := by
  have hentry := t.entry_lt
  have hseq (k : TableKind) : (count - 1) * (t.entry k S + t.entry k D) ≤ 65535 * 62 :=
    Nat.mul_le_mul (by omega) (by have := hentry k S; have := hentry k D; omega)
  cases w32 with
  | true =>
    have := hentry .n32 S; have := hentry .n32 D; have := hseq .s32
    simp only [dmaCost, if_true]; omega
  | false =>
    have := hentry .n16 S; have := hentry .n16 D; have := hseq .s16
    simp only [dmaCost, Bool.false_eq_true, if_false]; omega

/-- Settles O40: the one charge of a transfer is the closed form, and its bound that of a legal count. -/
theorem dmaChargesTheClosedFormCost : Obligations.DmaChargesTheClosedFormCost := by
  intro s t chan d S D h hsrc hS hdst hD
  obtain ⟨⟨-, hcount⟩, rfl⟩ := execDmaXfer_next_mapped hsrc hS hdst hD h
  exact ⟨State.afterTransfer_cycles .., State.afterTransfer_cycAdd .., dmaCost_le _ _ _ _ hcount⟩

/-! ### What copies report and draw -/

/-- A write to a slot that is not the I/O block reports nothing (20_memory.md R35, R36). -/
theorem State.writeAt_resp_of_ne_io {s : State} {r : Fin 16} (h : s.slot r ≠ .io) (o : Nat) (n : Width) (v : Word) :
    (s.writeAt r o n v).resp = s.resp := by
  cases hs : s.slot r with
  | io => exact absurd hs h
  | _ => simp [State.writeAt, hs]

/-- A read from a slot that is not the I/O block draws nothing from the oracle (R34). -/
theorem State.readAt_ioDraws_of_ne_io {s : State} {r : Fin 16} (h : s.slot r ≠ .io) (o : Nat) (n : Width) :
    (s.readAt r o n).2.ioDraws = s.ioDraws := by
  cases hs : s.slot r with
  | io => exact absurd hs h
  | _ => simp [State.readAt, hs]

/-- One copy makes no slot the I/O block and none of the I/O block anything else. -/
theorem State.copy_slot_eq_io {u : State} {S D q : Fin 16} (c : DmaStep) :
    ((u.readAt S c.src.toNat c.n).2.writeAt D c.dst.toNat c.n (u.readAt S c.src.toNat c.n).1).slot q = .io ↔
      u.slot q = .io := by
  rw [← Slot.shape_eq_io, State.writeAt_shape, State.readAt_slot, Slot.shape_eq_io]

/-- Copies to a slot that is not the I/O block report nothing (44_dma.md R114). -/
theorem State.afterCopies_resp_of_ne_io {s : State} {D : Fin 16} (h : s.slot D ≠ .io) (S : Fin 16)
    (cs : List DmaStep) : (s.afterCopies S D cs).resp = s.resp := by
  refine (State.afterCopies_induct (P := fun u => u.slot D ≠ .io ∧ u.resp = s.resp) ?_ ⟨h, rfl⟩).2
  rintro c - u ⟨hio, hresp⟩
  refine ⟨mt (State.copy_slot_eq_io c).1 hio, ?_⟩
  rw [State.writeAt_resp_of_ne_io (by rwa [State.readAt_slot]), State.readAt_resp, hresp]

/-- Copies from a slot that is not the I/O block draw nothing from the oracle (R114). -/
theorem State.afterCopies_ioDraws_of_ne_io {s : State} {S : Fin 16} (h : s.slot S ≠ .io) (D : Fin 16)
    (cs : List DmaStep) : (s.afterCopies S D cs).ioDraws = s.ioDraws := by
  refine (State.afterCopies_induct (P := fun u => u.slot S ≠ .io ∧ u.ioDraws = s.ioDraws) ?_ ⟨h, rfl⟩).2
  rintro c - u ⟨hio, hdraws⟩
  refine ⟨mt (State.copy_slot_eq_io c).1 hio, ?_⟩
  rw [State.writeAt_ioDraws, State.readAt_ioDraws_of_ne_io hio, hdraws]

/-- Whatever the destination, copies add `IoWrite` events alone (20_memory.md R37). -/
theorem State.mem_events_afterCopies {s : State} {S D : Fin 16} {cs : List DmaStep} {e : Event}
    (he : e ∈ (s.afterCopies S D cs).resp.events) : e ∈ s.resp.events ∨ ∃ off n v, e = .ioWrite off n v := by
  refine State.afterCopies_induct
    (P := fun u => e ∈ u.resp.events → e ∈ s.resp.events ∨ ∃ off n v, e = .ioWrite off n v) ?_ .inl he
  intro c _ u ih hmem
  by_cases hio : u.slot D = .io
  · rw [State.writeAt_io (by rwa [State.readAt_slot]), State.emit_resp, State.readAt_resp, List.mem_append,
      List.mem_singleton] at hmem
    exact hmem.elim ih fun hlast => .inr ⟨_, _, _, hlast⟩
  · rw [State.writeAt_resp_of_ne_io (by rwa [State.readAt_slot]), State.readAt_resp] at hmem
    exact ih hmem

/-! ### The completion -/

/-- The literal 0x7FE0 has exactly the bits 14 to 5 (30_encoding.md R58, 90_conflicts.md C3). -/
theorem getLsbD_dmacntKeep (i : Nat) : (0x7FE0 : BitVec 16).getLsbD i = decide (5 ≤ i ∧ i ≤ 14) := by
  by_cases hi : i < 16
  · have hbits : ∀ j < 16, (0x7FE0 : BitVec 16).getLsbD j = decide (5 ≤ j ∧ j ≤ 14) := by decide
    exact hbits i hi
  · rw [BitVec.getLsbD_of_ge _ _ (by omega), eq_comm, decide_eq_false_iff_not]
    omega

/-- Settles O41: the completion step on the descriptor and on the control registers, bit by bit. -/
theorem dmaCompletionClearsTheEnables : Obligations.DmaCompletionClearsTheEnables := by
  intro s t chan d S D h hsrc hS hdst hD
  obtain ⟨-, rfl⟩ := execDmaXfer_next_mapped hsrc hS hdst hD h
  have hcnt := s.afterTransfer_dmacntOf chan d S D
  refine ⟨fun hrep => ?_, fun hrep => ?_, fun c hc => ?_, fun hio => ?_⟩
  · have hmask : (s.afterTransfer chan d S D).dmacntOf chan = s.dmacntOf chan &&& 0x7FE0 := by simp [hcnt, hrep]
    refine ⟨by simp [descAfterCompletion, hrep], hmask, fun i => ?_⟩
    rw [hmask, BitVec.getLsbD_and, getLsbD_dmacntKeep, Bool.and_comm]
  · exact ⟨by simp [descAfterCompletion, hrep], by simp [hcnt, hrep]⟩
  · simp [hcnt, hc]
  · rw [State.afterTransfer_events, State.afterCopies_resp_of_ne_io (by exact hio)]
    rfl

/-- Transfers that differ in `enable` alone leave states that differ in it alone (44_dma.md R111, decision D14). -/
theorem State.afterTransfer_enable (s : State) (chan : BitVec 2) (d : Descriptor) (S D : Fin 16) (e : Bool) :
    s.afterTransfer chan { d with enable := e } S D =
      { s.afterTransfer chan d S D with
        desc := { (s.afterTransfer chan d S D).desc with
          enable := (s.afterTransfer chan { d with enable := e } S D).desc.enable } } := by
  cases d with
  | mk src dst srcCtl dstCtl w32 count rep enable => cases rep <;> rfl

/-- Settles O42: neither the refusals, the region check, the schedule nor the cost reads `enable`. -/
theorem dmaDoesNotReadEnable : Obligations.DmaDoesNotReadEnable := by
  refine fun s chan d e => ⟨fun t h => ?_, fun f h => ?_, fun x h => ?_⟩
  · obtain ⟨hcount, ⟨hnone, rfl⟩ | ⟨S, D, hS, hD, hfit, rfl⟩⟩ := execDmaXfer_next_cases.1 h
    · exact ⟨_, execDmaXfer_next_cases.2 ⟨hcount, .inl ⟨hnone, rfl⟩⟩, rfl⟩
    · exact ⟨_, execDmaXfer_next_cases.2 ⟨hcount, .inr ⟨S, D, hS, hD, hfit, rfl⟩⟩,
        s.afterTransfer_enable chan d S D e⟩
  · exact execDmaXfer_eq_fault.2 ((execDmaXfer_eq_fault (d := d)).1 h)
  · exact execDmaXfer_eq_refused.2 ((execDmaXfer_eq_refused (d := d)).1 h)

/-! ### The frame -/

/-- A transfer leaves every slot but the one its destination region names (R114). -/
theorem execDmaXfer_slot_other {chan : BitVec 2} {d : Descriptor} {s t : State} (h : execDmaXfer chan d s = .next t)
    {q : Fin 16} (hq : regionOf d.dst ≠ q) : t.slot q = s.slot q := by
  obtain ⟨-, ⟨-, rfl⟩ | ⟨S, D, -, hD, -, rfl⟩⟩ := execDmaXfer_next_cases.1 h
  · rfl
  · have hne : q ≠ D := by
      rintro rfl; exact hq (slotIndex_eq_some.1 (State.mappedSlot_eq_some.1 hD).1)
    rw [State.afterTransfer_slot, State.afterCopies_slot_other _ _ _ _ hne, State.begin_slot]

/-- A control register after a transfer: the channel's own may be masked, the others stay (R118 to R120). -/
theorem execDmaXfer_dmacntOf {chan : BitVec 2} {d : Descriptor} {s t : State} (h : execDmaXfer chan d s = .next t)
    (c : BitVec 2) : t.dmacntOf c = s.dmacntOf c ∨ c = chan ∧ t.dmacntOf c = s.dmacntOf c &&& 0x7FE0 := by
  obtain ⟨-, ⟨-, rfl⟩ | ⟨S, D, -, -, -, rfl⟩⟩ := execDmaXfer_next_cases.1 h
  · exact .inl rfl
  · rw [State.afterTransfer_dmacntOf]
    split_ifs with hmask
    · obtain ⟨-, rfl⟩ := hmask
      exact .inr ⟨rfl, rfl⟩
    · exact .inl rfl

/-- `desc` after a transfer is the descriptor presented, at most its `enable` cleared (R120, decision D13). -/
theorem execDmaXfer_desc {chan : BitVec 2} {d : Descriptor} {s t : State} (h : execDmaXfer chan d s = .next t) :
    t.desc = d ∨ t.desc = { d with enable := false } := by
  obtain ⟨-, ⟨-, rfl⟩ | ⟨S, D, -, -, -, rfl⟩⟩ := execDmaXfer_next_cases.1 h
  · exact .inl rfl
  · rw [State.afterTransfer_desc, descAfterCompletion]
    split <;> [exact .inl rfl; exact .inr rfl]

/-- A transfer whose source region is not the I/O block draws nothing from the oracle (20_memory.md R37). -/
theorem execDmaXfer_ioDraws {chan : BitVec 2} {d : Descriptor} {s t : State} (h : execDmaXfer chan d s = .next t)
    (hio : ∀ S : Fin 16, regionOf d.src = S → s.slot S ≠ .io) : t.ioDraws = s.ioDraws := by
  obtain ⟨-, ⟨-, rfl⟩ | ⟨S, D, hS, -, -, rfl⟩⟩ := execDmaXfer_next_cases.1 h
  · rfl
  · have hne := hio S (slotIndex_eq_some.1 (State.mappedSlot_eq_some.1 hS).1)
    rw [State.afterTransfer_ioDraws, State.afterCopies_ioDraws_of_ne_io (by exact hne), State.begin_ioDraws]

/-- Every event of a transfer is the invalid-DMA report or a write passed to the I/O block (R113, R37). -/
theorem execDmaXfer_mem_events {chan : BitVec 2} {d : Descriptor} {s t : State} (h : execDmaXfer chan d s = .next t)
    {e : Event} (he : e ∈ t.resp.events) : e = .dmaInvalid chan ∨ ∃ off n v, e = .ioWrite off n v := by
  obtain ⟨-, ⟨-, rfl⟩ | ⟨S, D, -, -, -, rfl⟩⟩ := execDmaXfer_next_cases.1 h
  · exact .inl (List.mem_singleton.1 he)
  · rw [State.afterTransfer_events] at he
    exact .inr ((State.mem_events_afterCopies he).resolve_left List.not_mem_nil)

/-- A transfer whose destination region is not the I/O block reports at most the invalid DMA (R113). -/
theorem execDmaXfer_events {chan : BitVec 2} {d : Descriptor} {s t : State} (h : execDmaXfer chan d s = .next t)
    (hio : ∀ D : Fin 16, regionOf d.dst = D → s.slot D ≠ .io) :
    t.resp.events = [] ∨ t.resp.events = [.dmaInvalid chan] := by
  obtain ⟨-, ⟨-, rfl⟩ | ⟨S, D, -, hD, -, rfl⟩⟩ := execDmaXfer_next_cases.1 h
  · exact .inr rfl
  · have hne := hio D (slotIndex_eq_some.1 (State.mappedSlot_eq_some.1 hD).1)
    rw [State.afterTransfer_events, State.afterCopies_resp_of_ne_io (by exact hne)]
    exact .inl rfl

/-- Settles O43: what a transfer leaves, and how each thing it may change can change. -/
theorem dmaFrame : Obligations.DmaFrame := by
  intro s t chan d h
  obtain ⟨hrdata, hinfo⟩ := execDmaXfer_resp h
  have hcnt := execDmaXfer_dmacntOf h
  exact ⟨fun q => execDmaXfer_slot_other h, fun q => Slot.eq_of_shape (execDmaXfer_shape h q), execDmaXfer_frame h,
    fun c hc => (hcnt c).resolve_right fun hmask => hc hmask.1, hrdata, hinfo, (hcnt chan).imp_right And.right,
    execDmaXfer_desc h, execDmaXfer_ioDraws h, execDmaXfer_cycles h, fun e => execDmaXfer_mem_events h,
    execDmaXfer_events h⟩

end Sys2Proof.Machine
end

section
/-! PROOFS. The bytes a transfer moves: one copy, a run of copies that covers a block, and the incrementing transfers
(44_dma.md R114 to R116). -/

namespace Sys2Proof.Machine

/-! ### The bytes of one copy -/

/-- The word read as bytes and written back at the same width gives the same bytes (20_memory.md R33 to R35). -/
theorem bytesOfValue_ofNat_valueOfBytes {n : Width} {bs : List Byte} (h : bs.length = n.bytes) :
    bytesOfValue n.bytes (BitVec.ofNat 32 (valueOfBytes bs)).toNat = bs := by
  have hn : n.bytes ≤ 4 := by cases n <;> decide
  rw [BitVec.toNat_ofNat, show 2 ^ 32 = 256 ^ 4 from rfl, bytesOfValue_mod hn, ← h, bytesOfValue_valueOfBytes]

/-- A slot with bytes holds one at every offset inside its view. -/
theorem State.exists_byteIn {s : State} {r : Fin 16} {o : Nat} (hb : (s.slot r).hasBytes = true)
    (ho : o < (s.slot r).size) : ∃ b, s.byteIn r o = some b := by
  cases hs : s.slot r with
  | unmapped | io => rw [hs] at hb; cases hb
  | rw | ro =>
    rw [hs, Slot.size] at ho
    simp only [State.byteIn, hs, ho, if_true]
    exact ⟨_, rfl⟩

/-- One copy into a read-write block: the bytes of the access are the source's bytes before the copy, whether the two
overlap or not; every other byte stays (R114). -/
theorem State.byteIn_copy {s : State} {S D : Fin 16} {size : Nat} {m : Memory} {n : Width} {a b : Nat}
    (hc : s.Canonical) (hS : (s.slot S).hasBytes = true) (hD : s.slot D = .rw size m)
    (ha : a + n.bytes ≤ (s.slot S).size) (hb : b + n.bytes ≤ size) (q : Fin 16) (x : Nat) :
    (s.afterCopies S D [{ n := n, src := a, dst := b }]).byteIn q x =
      if q = D ∧ b ≤ x ∧ x < b + n.bytes then s.byteIn S (a + (x - b)) else s.byteIn q x := by
  rw [State.afterCopies_cons, State.afterCopies_nil, Int.toNat_natCast, Int.toNat_natCast, State.readAt_bytes hS ha,
    State.byteIn_writeAt_rw hD (hc.memory_wf hD) hb]
  split_ifs with hx
  · obtain ⟨-, hlow, hhigh⟩ := hx
    obtain ⟨byte, hbyte⟩ := State.exists_byteIn (o := a + (x - b)) hS (by omega)
    have hi : x - b < n.bytes := by omega
    rw [bytesOfValue_ofNat_valueOfBytes (by simp)]
    simp [List.getD, hi, hbyte]
  · rfl

/-- A slot with the shape of a read-write block is one of the same size. -/
theorem Slot.eq_rw_of_shape {x : Slot} {size : Nat} {m : Memory} (h : x.shape = .rw size m) :
    ∃ k, x = .rw size k := by
  cases x with
  | rw n k => cases h; exact ⟨k, rfl⟩
  | unmapped | ro | io => cases h

theorem Slot.hasBytes_of_shape {x y : Slot} (h : x.shape = y.shape) : x.hasBytes = y.hasBytes := by
  have hshape (z : Slot) : z.shape.hasBytes = z.hasBytes := by cases z <;> rfl
  rw [← hshape x, h, hshape y]

/-! ### Copies that cover a block -/

/-- The copies move a block of `k` bytes from source offset `a` to destination offset `b`, each beginning where the one
before ends on both sides. -/
inductive CoversBlock : Nat → Nat → Nat → List DmaStep → Prop where
  | nil (a b : Nat) : CoversBlock a b 0 []
  | cons {a b k : Nat} {cs : List DmaStep} (n : Width) (h : CoversBlock (a + n.bytes) (b + n.bytes) k cs) :
      CoversBlock a b (n.bytes + k) ({ n := n, src := a, dst := b } :: cs)

theorem CoversBlock.append {a b k l : Nat} {as bs : List DmaStep} (has : CoversBlock a b k as)
    (hbs : CoversBlock (a + k) (b + k) l bs) : CoversBlock a b (k + l) (as ++ bs) := by
  induction has with
  | nil a b => simpa using hbs
  | cons n _ ih =>
    rw [Nat.add_assoc]
    exact .cons n (ih (by simpa only [Nat.add_assoc] using hbs))

/-- A run whose steps are its width covers a block. -/
theorem CoversBlock.dmaRun (n : Width) (a b k : Nat) :
    CoversBlock a b (n.bytes * k) (dmaRun n a b n.bytes n.bytes k) := by
  induction k generalizing a b with
  | zero => exact .nil a b
  | succ k ih =>
    rw [dmaRun_succ, Nat.mul_succ, Nat.add_comm, ← Nat.cast_add, ← Nat.cast_add]
    exact .cons n (ih _ _)

/-- The copies of a block that lies inside both views are in range. -/
theorem CoversBlock.fits {a b k M N : Nat} {cs : List DmaStep} (h : CoversBlock a b k cs) (ha : a + k ≤ M)
    (hb : b + k ≤ N) : ∀ c ∈ cs, c.fits M N := by
  induction h with
  | nil => exact fun c hc => nomatch hc
  | cons n _ ih =>
    refine List.forall_mem_cons.2 ⟨?_, ih (by omega) (by omega)⟩
    refine ⟨Int.natCast_nonneg _, ?_, Int.natCast_nonneg _, ?_⟩ <;> simp only <;> omega

/-- Copies that cover a block move its bytes into a read-write block, when the two do not overlap: no copy then writes a
byte that a later one reads. -/
theorem CoversBlock.byteIn_afterCopies {a b k : Nat} {cs : List DmaStep} (hcover : CoversBlock a b k cs) {s : State}
    {S D : Fin 16} {size : Nat} {m : Memory} (hc : s.Canonical) (hS : (s.slot S).hasBytes = true)
    (hD : s.slot D = .rw size m) (ha : a + k ≤ (s.slot S).size) (hb : b + k ≤ size)
    (hapart : S ≠ D ∨ a + k ≤ b ∨ b + k ≤ a) (o : Nat) :
    (s.afterCopies S D cs).byteIn D o =
      if b ≤ o ∧ o < b + k then s.byteIn S (a + (o - b)) else s.byteIn D o := by
  induction hcover generalizing s m with
  | nil a b => rw [if_neg (by omega), State.afterCopies_nil]
  | @cons a b k cs n _ ih =>
    have hfirst := State.byteIn_copy (n := n) (a := a) (b := b) hc hS hD (by omega) (by omega)
    have hcu := hc.afterCopies (S := S) (D := D)
      ((CoversBlock.cons n (.nil ..)).fits (a := a) (b := b) (by omega) (by rw [hD, Slot.size]; omega))
    have hsize := s.afterCopies_size S D [{ n := n, src := a, dst := b }] S
    have hshape := s.afterCopies_shape S D [{ n := n, src := a, dst := b }]
    rw [← List.singleton_append, State.afterCopies_append]
    generalize s.afterCopies S D [{ n := n, src := a, dst := b }] = u at *
    obtain ⟨m', hDu⟩ := Slot.eq_rw_of_shape ((hshape D).trans (congrArg Slot.shape hD))
    rw [ih hcu (by rw [Slot.hasBytes_of_shape (hshape S), hS]) hDu (by omega) (by omega) (by omega)]
    by_cases hlater : b + n.bytes ≤ o ∧ o < b + n.bytes + k
    · have hoffset : a + n.bytes + (o - (b + n.bytes)) = a + (o - b) := by omega
      have hkept : ¬ (S = D ∧ b ≤ a + (o - b) ∧ a + (o - b) < b + n.bytes) := by omega
      rw [if_pos hlater, if_pos (by omega), hoffset, hfirst, if_neg hkept]
    · rw [if_neg hlater, hfirst]
      exact if_congr (by omega) rfl rfl

/-! ### The transfers that move a block -/

/-- A transfer whose copies are in range completes, with the bytes the copies leave and the other slots as before
(R110, R114). -/
theorem execDmaXfer_byteIn {s : State} {chan : BitVec 2} {d : Descriptor} {S D : Fin 16} {size : Nat} {m : Memory}
    (hlegal : d.wellFormed = true) (hsrc : regionOf d.src = S) (hS : (s.slot S).hasBytes = true)
    (hdst : regionOf d.dst = D) (hD : s.slot D = .rw size m)
    (hfit : ∀ c ∈ dmaSchedule d, c.fits (s.slot S).size size) :
    ∃ t, execDmaXfer chan d s = .next t ∧
      (∀ o, t.byteIn D o = (s.begin.afterCopies S D (dmaSchedule d)).byteIn D o) ∧
      (∀ q, q ≠ D → t.slot q = s.slot q) := by
  refine ⟨_, execDmaXfer_of_fits hsrc (Slot.hasBytes_iff.1 hS).1 hdst (by simp [hD]) hlegal (by rwa [hD]),
    State.afterTransfer_byteIn s chan d S D D, fun q hq => ?_⟩
  rw [State.afterTransfer_slot, State.afterCopies_slot_other _ _ _ _ hq, State.begin_slot]

/-- A transfer whose copies cover a block, inside both views and not overlapping, moves that block and nothing else. -/
theorem execDmaXfer_moves_block {s : State} {chan : BitVec 2} {d : Descriptor} {S D : Fin 16} {size k : Nat}
    {m : Memory} (hcover : CoversBlock (offsetOf d.src) (offsetOf d.dst) k (dmaSchedule d)) (hc : s.Canonical)
    (hlegal : d.wellFormed = true) (hsrc : regionOf d.src = S) (hS : (s.slot S).hasBytes = true)
    (hdst : regionOf d.dst = D) (hD : s.slot D = .rw size m) (ha : offsetOf d.src + k ≤ (s.slot S).size)
    (hb : offsetOf d.dst + k ≤ size)
    (hapart : S ≠ D ∨ offsetOf d.src + k ≤ offsetOf d.dst ∨ offsetOf d.dst + k ≤ offsetOf d.src) :
    ∃ t, execDmaXfer chan d s = .next t ∧
      (∀ o, t.byteIn D o =
        if offsetOf d.dst ≤ o ∧ o < offsetOf d.dst + k then s.byteIn S (offsetOf d.src + (o - offsetOf d.dst))
        else s.byteIn D o) ∧
      (∀ q, q ≠ D → t.slot q = s.slot q) := by
  obtain ⟨t, ht, hbytes, hother⟩ := execDmaXfer_byteIn hlegal hsrc hS hdst hD (hcover.fits ha hb)
  refine ⟨t, ht, fun o => ?_, hother⟩
  rw [hbytes]
  exact hcover.byteIn_afterCopies (s := s.begin) (hc.congr rfl rfl rfl) hS hD ha hb hapart o

/-- The copies of a 32-bit incrementing transfer (R115). -/
theorem dmaSchedule_covers_words {d : Descriptor} (hw : d.w32 = true) (hsrc : d.srcCtl = .increment)
    (hdst : d.dstCtl = .increment) :
    CoversBlock (offsetOf d.src) (offsetOf d.dst) (4 * d.count.toNat) (dmaSchedule d) := by
  simp only [dmaSchedule, hw, hsrc, hdst, if_true]
  exact .dmaRun .b4 ..

/-- The copies of a 16-bit incrementing transfer: the prologue, the pairs and the last element follow one another
(R116). -/
theorem dmaSchedule_covers_halfwords {d : Descriptor} (hcount : 1 ≤ d.count.toNat) (hw : d.w32 = false)
    (hsrc : d.srcCtl = .increment) (hdst : d.dstCtl = .increment) :
    CoversBlock (offsetOf d.src) (offsetOf d.dst) (2 * d.count.toNat) (dmaSchedule d) := by
  have hp : dmaPrologue d ≤ 1 := by rw [dmaPrologue]; split <;> omega
  simp only [dmaSchedule, hw, hsrc, hdst, Bool.false_eq_true, if_false]
  generalize dmaPrologue d = p at *
  generalize offsetOf d.src = a, offsetOf d.dst = b, d.count.toNat = count at *
  have hall := ((CoversBlock.dmaRun .b2 a b p).append (.dmaRun .b4 _ _ ((count - p) / 2))).append
    (.dmaRun .b2 _ _ ((count - p) % 2))
  have hlength : 2 * p + 4 * ((count - p) / 2) + 2 * ((count - p) % 2) = 2 * count := by omega
  have hpairs (x : Nat) : ((x + 2 * p : Nat) : Int) = x + p * 2 := by omega
  have hlast (x : Nat) (hodd : (count - p) % 2 = 1) :
      ((x + (2 * p + 4 * ((count - p) / 2)) : Nat) : Int) = x + (count - 1 : Nat) * 2 := by omega
  simp only [Width.bytes, hlength, hpairs] at hall
  rcases Nat.mod_two_eq_zero_or_one (count - p) with heven | hodd
  · rw [heven] at hall ⊢
    exact hall
  · rw [hlast a hodd, hlast b hodd] at hall
    exact hall

/-- Settles O37: the words follow one another on both sides. -/
theorem wordDmaMovesTheBlock : Obligations.WordDmaMovesTheBlock := by
  intro s chan d S D size m hc hlegal hw hsrcCtl hdstCtl
  exact execDmaXfer_moves_block (dmaSchedule_covers_words hw hsrcCtl hdstCtl) hc hlegal

/-- Settles O38: the single elements and the pairs follow one another on both sides. -/
theorem halfwordDmaMovesTheBlock : Obligations.HalfwordDmaMovesTheBlock := by
  intro s chan d S D size m hc hlegal hw hsrcCtl hdstCtl
  have hcount := (Descriptor.wellFormed_iff.1 hlegal).1
  exact execDmaXfer_moves_block (dmaSchedule_covers_halfwords hcount hw hsrcCtl hdstCtl) hc hlegal

/-- Two 16-bit elements from a source offset with bit 1 clear are one copy, whatever the modes (R116). -/
theorem dmaSchedule_pair {d : Descriptor} (hcount : d.count.toNat = 2) (hw : d.w32 = false)
    (haligned : offsetOf d.src / 2 % 2 = 0) :
    dmaSchedule d = [{ n := .b4, src := offsetOf d.src, dst := offsetOf d.dst }] := by
  simp [dmaSchedule, dmaPrologue, hcount, hw, haligned]

/-- Settles O39: one copy of four bytes, which moves what it read even where the two sides overlap. -/
theorem halfwordPairMovesFourBytes : Obligations.HalfwordPairMovesFourBytes := by
  intro s chan d S D size m hc hcount hw haligned hsrc hS hdst hD ha hb
  have hpair := dmaSchedule_pair hcount hw haligned
  have hcover : CoversBlock (offsetOf d.src) (offsetOf d.dst) 4 (dmaSchedule d) := hpair ▸ .cons .b4 (.nil ..)
  obtain ⟨t, ht, hbytes, hother⟩ :=
    execDmaXfer_byteIn (Descriptor.wellFormed_iff.2 (by omega)) hsrc hS hdst hD (hcover.fits ha hb)
  refine ⟨t, ht, fun o => ?_, hother⟩
  rw [hbytes, hpair, State.byteIn_copy (s := s.begin) (hc.congr rfl rfl rfl) hS hD ha hb]
  simp only [true_and]
  rfl

end Sys2Proof.Machine
end

section
/-! PROOFS. The exceptional outcomes of the operations: faults and their codes, refusals, the invalid transfer, and the
silent discard of a read-only destination; and who writes the DMA registers (60_exceptions.md). -/

namespace Sys2Proof.Machine

/-! ### Faults -/

/-- A load faults with the address presented (60_exceptions.md R130). -/
theorem loadWith_fault_cases {n : Width} {w : Word → Word} {a : Word} {s : State} {f : Fault}
    (h : loadWith n w a s = .fault f) : f = .fRegion a ∨ f = .fOffset a := by
  obtain ⟨-, hf⟩ | ⟨r, -, -, hf⟩ := loadWith_eq_fault.1 h
  · exact .inl hf
  · exact .inr hf

/-- A store faults with the address presented, not the aligned one (R130, assumption log 23). -/
theorem storeWith_fault_cases {n : Width} {a v : Word} {s : State} {f : Fault}
    (h : storeWith n a v s = .fault f) : f = .fRegion a ∨ f = .fOffset a := by
  obtain ⟨-, hf⟩ | ⟨r, -, -, hf⟩ := storeWith_eq_fault.1 h
  · exact .inl hf
  · exact .inr hf

/-- `MAPBIOS` never faults (R130). -/
theorem execMapBios_ne_fault {b : Handle} {s : State} {f : Fault} : execMapBios b s ≠ .fault f := by
  by_cases hb : (s.buffer b).len = 0 <;> simp [execMapBios, hb]

/-- `MAPROM` never faults (R130). -/
theorem execMapRom_ne_fault {b : Handle} {e : Bool} {s : State} {f : Fault} : execMapRom b e s ≠ .fault f := by
  by_cases hb : (s.buffer b).len = 0 <;> simp [execMapRom, hb]

/-- The response of a faulted operation carries the code of its fault (30_encoding.md R59). -/
theorem faultField_of_fault {o : Host.Outcome State Fault Refusal} {f : Fault} (h : o = .fault f) :
    faultField o = some f.code := by
  rw [h]; rfl

/-- The codes of the two faults of an access (R59). -/
theorem faultField_of_access {o : Host.Outcome State Fault Refusal} {f : Fault} {a : Word} (h : o = .fault f)
    (hf : f = .fRegion a ∨ f = .fOffset a) :
    (f = .fRegion a ∧ faultField o = some 1) ∨ (f = .fOffset a ∧ faultField o = some 2) := by
  have hcode := faultField_of_fault h
  obtain rfl | rfl := hf
  · exact .inl ⟨rfl, hcode⟩
  · exact .inr ⟨rfl, hcode⟩

/-- Settles O49: the faults of each shape of operation, with the code of each. -/
theorem faultsByOperation : Obligations.FaultsByOperation := by
  refine fun i s => ⟨fun t h => by rw [h]; rfl, fun f h => ?_⟩
  cases i with
  | load8 | loadU8 | load16 | loadU16 | load32 => exact faultField_of_access h (loadWith_fault_cases h)
  | store8 | store16 | store32 => exact faultField_of_access h (storeWith_fault_cases h)
  | waitN16 | waitS16 | waitN32 | waitS32 =>
    obtain ⟨-, rfl⟩ := waitWith_eq_fault.1 h
    exact ⟨rfl, faultField_of_fault h⟩
  | dmaXfer =>
    obtain ⟨-, S, D, side, -, -, -, rfl⟩ := execDmaXfer_eq_fault.1 h
    exact ⟨⟨side, rfl⟩, faultField_of_fault h⟩
  | mapBios => exact execMapBios_ne_fault h
  | mapRom => exact execMapRom_ne_fault h
  | reset | adjTim | icMark | icQuery => cases h

/-! ### Refusals -/

/-- No load is refused (60_exceptions.md R144). -/
theorem loadWith_ne_refused {n : Width} {w : Word → Word} {a : Word} {s : State} {x : Refusal} :
    loadWith n w a s ≠ .refused x := by
  intro h
  simp only [loadWith] at h
  split at h <;> cases h

/-- No store is refused (R144). -/
theorem storeWith_ne_refused {n : Width} {a v : Word} {s : State} {x : Refusal} : storeWith n a v s ≠ .refused x := by
  intro h
  simp only [storeWith] at h
  split at h <;> cases h

/-- No wait is refused (R144). -/
theorem waitWith_ne_refused {k : TableKind} {a : Word} {s : State} {x : Refusal} : waitWith k a s ≠ .refused x := by
  intro h
  simp only [waitWith] at h
  split at h <;> cases h

/-- `MAPBIOS` is refused exactly for an empty buffer (40_lifecycle.md R71, decision D24). -/
theorem execMapBios_refused_iff {b : Handle} {s : State} :
    (∃ x, execMapBios b s = .refused x) ↔ (s.buffer b).len = 0 := by
  by_cases hb : (s.buffer b).len = 0 <;> simp [execMapBios, hb]

/-- `MAPROM` is refused exactly for an empty buffer (R72, decision D24). -/
theorem execMapRom_refused_iff {b : Handle} {e : Bool} {s : State} :
    (∃ x, execMapRom b e s = .refused x) ↔ (s.buffer b).len = 0 := by
  by_cases hb : (s.buffer b).len = 0 <;> simp [execMapRom, hb]

/-- `DMAXFER` is refused exactly for a count outside 1 to 0x10000 (44_dma.md R111, decision D15). -/
theorem execDmaXfer_refused_iff {chan : BitVec 2} {d : Descriptor} {s : State} :
    (∃ x, execDmaXfer chan d s = .refused x) ↔ d.wellFormed = false := by
  rw [← Bool.not_eq_true, Descriptor.wellFormed_iff]
  constructor
  · rintro ⟨x, hx⟩
    rcases execDmaXfer_eq_refused.1 hx with ⟨h, -⟩ | ⟨h, -⟩ <;> omega
  · intro h
    obtain hzero | hlarge : d.count.toNat = 0 ∨ 0x10000 < d.count.toNat := by omega
    · exact ⟨_, execDmaXfer_eq_refused.2 (.inl ⟨hzero, rfl⟩)⟩
    · exact ⟨_, execDmaXfer_eq_refused.2 (.inr ⟨hlarge, rfl⟩)⟩

/-- Settles O50: the two mapping operations and the transfer have refusals, no other shape of operation has one. -/
theorem refusalsByOperation : Obligations.RefusalsByOperation := by
  intro i s
  cases i with
  | mapBios => exact execMapBios_refused_iff
  | mapRom => exact execMapRom_refused_iff
  | dmaXfer => exact execDmaXfer_refused_iff
  | load8 | loadU8 | load16 | loadU16 | load32 => exact iff_of_false (fun ⟨_, h⟩ => loadWith_ne_refused h) not_false
  | store8 | store16 | store32 => exact iff_of_false (fun ⟨_, h⟩ => storeWith_ne_refused h) not_false
  | waitN16 | waitS16 | waitN32 | waitS32 => exact iff_of_false (fun ⟨_, h⟩ => waitWith_ne_refused h) not_false
  | reset | adjTim | icMark | icQuery => exact iff_of_false (fun ⟨_, h⟩ => nomatch h) not_false

/-! ### The invalid transfer -/

/-- Settles O34: an unmapped side is the first of the two ways a transfer can go on. -/
theorem invalidDmaIsReportedAndSkipped : Obligations.InvalidDmaIsReportedAndSkipped := by
  intro s chan d hlegal hunmapped
  have hnone : s.mappedSlot d.src = none ∨ s.mappedSlot d.dst = none :=
    hunmapped.imp State.mappedSlot_of_unmapped State.mappedSlot_of_unmapped
  have hnext : exec (.dmaXfer chan d) s =
      .next { s with desc := d, resp := { Response.blank with events := [.dmaInvalid chan] } } :=
    execDmaXfer_eq_next.2 ⟨Descriptor.wellFormed_iff.1 hlegal, .inl ⟨hnone, rfl⟩⟩
  exact ⟨hnext, by rw [hnext]; rfl⟩

/-! ### The DMA registers -/

/-- Settles O52: the frame of every other operation leaves the control registers, the descriptor and, but for the loads,
the count of oracle draws. -/
theorem dmaRegisterWriters : Obligations.DmaRegisterWriters := by
  intro i s t h
  cases i with
  | dmaXfer => trivial
  | load8 | loadU8 | load16 | loadU16 | load32 => rw [loadWith_frame h]; exact ⟨rfl, rfl⟩
  | store8 | store16 | store32 => rw [storeWith_frame h]; exact ⟨rfl, rfl, rfl⟩
  | waitN16 | waitS16 | waitN32 | waitS32 => rw [waitWith_frame h]; exact ⟨rfl, rfl, rfl⟩
  | reset => rw [execReset_frame h]; exact ⟨rfl, rfl, rfl⟩
  | mapBios => rw [execMapBios_frame h]; exact ⟨rfl, rfl, rfl⟩
  | mapRom => rw [execMapRom_frame h]; exact ⟨rfl, rfl, rfl⟩
  | adjTim => rw [execAdjTim_eq_next.1 h]; exact ⟨rfl, rfl, rfl⟩
  | icMark => rw [execIcMark_eq_next.1 h]; exact ⟨rfl, rfl, rfl⟩
  | icQuery => rw [execIcQuery_eq_next.1 h]; exact ⟨rfl, rfl, rfl⟩

/-! ### Read-only destinations -/

/-- A transfer to a read-only slot leaves the slot table: it writes no slot but its destination, and that one keeps its
view (20_memory.md R36, 60_exceptions.md R134). -/
theorem execDmaXfer_slots_of_ro {chan : BitVec 2} {d : Descriptor} {s t : State} (h : execDmaXfer chan d s = .next t)
    {R : Fin 16} {b : Handle} {k n : Nat} (hR : s.slot R = .ro b k n) (hdst : regionOf d.dst = R) :
    t.slots = s.slots := by
  refine State.slots_eq_of_slot fun q => ?_
  by_cases hq : q = R
  · subst hq
    exact (exec_readOnly (i := .dmaXfer chan d) rfl h hR).1
  · exact execDmaXfer_slot_other h fun hdq => hq (Fin.ext (hdq.symm.trans hdst))

/-- Settles O55: the store that removes its pages alone, and the transfer whose writes change no slot and report
nothing, with its one charge. -/
theorem readOnlyDestinationsDiscardSilently : Obligations.ReadOnlyDestinationsDiscardSilently := by
  rintro s R ⟨b, k, n, hR⟩
  refine ⟨fun a v ha x hx hfit => ?_, fun chan d S hlegal hsrc hS hdst hfit => ?_⟩
  · have h := storeWith_ro (v := v) ha ⟨b, k, n, hR⟩ hfit
    refine ⟨_, (exec_store_eq_storeWith_width hx s).trans h, State.invalidateAll_slots ..,
      State.invalidateAll_buffers .., by rw [State.invalidateAll_resp]; rfl,
      storeWith_absent h (pageOf_mem_storePages ..), fun h4 => storeWith_absent h ?_⟩
    simp [h4, storePages, pageOf, pageShift]
  · have hmapped : s.slot R ≠ .unmapped := by simp [hR]
    have hio : s.slot R ≠ .io := by simp [hR]
    have h := execDmaXfer_of_fits (chan := chan) hsrc hS hdst hmapped hlegal hfit
    refine ⟨_, h, execDmaXfer_slots_of_ro h hR hdst, State.afterTransfer_buffers .., ?_,
      State.afterTransfer_cycAdd ..⟩
    rw [State.afterTransfer_events, State.afterCopies_resp_of_ne_io (by exact hio)]
    rfl

end Sys2Proof.Machine
end

section
/-! PROOFS. Accesses that depend on one another and accesses beside the waits: a value stored is loaded back, and
neither kind of operation looks at the other (70_reset_and_hazards.md R160, R162). -/

namespace Sys2Proof.Machine

/-! ### A store followed by a load of the same address -/

/-- Aligning leaves an address that is a multiple of the width (20_memory.md R39). -/
theorem alignDown_of_aligned {n : Width} {a : Word} (h : a.toNat % n.bytes = 0) : alignDown n a = a :=
  BitVec.eq_of_toNat_eq ((alignDown_toNat n a).trans (Nat.div_mul_cancel (Nat.dvd_of_mod_eq_zero h)))

/-- The word read back from the bytes of a value is the value truncated to them (R33 to R35). -/
theorem ofNat_valueOfBytes_bytesOfValue (n : Width) (v : Word) :
    BitVec.ofNat 32 (valueOfBytes (bytesOfValue n.bytes v.toNat)) = truncTo n v := by
  rw [valueOfBytes_bytesOfValue]
  apply BitVec.eq_of_toNat_eq
  cases n <;> simp only [Width.bytes, truncTo, BitVec.toNat_ofNat, BitVec.toNat_setWidth] <;> omega

/-- A store to a multiple of its width in a read-write block completes, and the load of that width and address then
answers the value stored, truncated and widened (70_reset_and_hazards.md R162). -/
theorem load_after_aligned_store {n : Width} {a v : Word} {s : State} {r : Fin 16} {size : Nat} {m : Memory}
    (hc : s.Canonical) (hr : regionOf a = r) (hs : s.slot r = .rw size m) (hsize : size ≤ 0x1000000)
    (haligned : a.toNat % n.bytes = 0) (hfit : offsetOf a + n.bytes ≤ size) (w : Word → Word) :
    ∃ t u, storeWith n a v s = .next t ∧ loadWith n w a t = .next u ∧ u.resp.rdata = some (w (truncTo n v)) := by
  have halign := alignDown_of_aligned haligned
  have hstore := storeWith_completes (n := n) (v := v) (s := s) hr (by simp [hs]) (by rw [halign, hs]; exact hfit)
  have hload := loadWith_of_byteAt (w := w) (bytesOfValue_length n.bytes v.toNat) (hfit.trans hsize) fun i hi => by
    rw [bytesOfValue_length] at hi
    rw [← List.getD_eq_getElem _ 0, bytesOfValue_getD _ hi, ofNat_div_eq_extractLsb', ← halign]
    exact storeWith_rw_byteAt hstore hr hs hc hsize hi
  exact ⟨_, _, hstore, hload, by rw [ofNat_valueOfBytes_bytesOfValue]⟩

/-- A value truncated to its low byte and widened without sign is the value masked (R35). -/
theorem zext8_truncTo_eq_and (v : Word) : zext8 (truncTo .b1 v) = v &&& 0xFF := by
  apply BitVec.eq_of_toNat_eq
  have hmask : v.toNat &&& 255 = v.toNat % 256 := Nat.and_two_pow_sub_one_eq_mod v.toNat 8
  rw [zext8_truncTo, BitVec.toNat_and, show (0xFF : Word).toNat = 255 from rfl, hmask]
  simp only [BitVec.toNat_setWidth]; omega

/-- Settles O24: the word as it is, and the byte, every address of which is a multiple of 1. -/
theorem storeThenLoadReturnsTheValue : Obligations.StoreThenLoadReturnsTheValue := by
  intro s a v r size m hc hr hs hsize
  refine ⟨fun haligned hfit => ?_, fun hfit => ?_⟩
  · exact load_after_aligned_store (n := .b4) hc hr hs hsize haligned hfit id
  · rw [← zext8_truncTo_eq_and]
    exact load_after_aligned_store (n := .b1) hc hr hs hsize (Nat.mod_one _) hfit zext8

/-! ### Accesses and waits -/

/-- A load or a store that completes charges neither the counter nor the response (R160, from the charging of every
operation, 43_timing.md R100). -/
theorem exec_access_uncharged {a v : Word} {i : Instr}
    (hi : i ∈ [Instr.load8 a, Instr.loadU8 a, Instr.load16 a, Instr.loadU16 a, Instr.load32 a,
      Instr.store8 a v, Instr.store16 a v, Instr.store32 a v]) {s t : State} (h : exec i s = .next t) :
    t.cycles = s.cycles ∧ t.resp.cycAdd = 0 := by
  obtain ⟨hcycles, hadd⟩ := onlyWaitsAndDmaCharge i s t h
  have hzero : t.resp.cycAdd = 0 := by
    simp only [List.mem_cons, List.not_mem_nil, or_false] at hi
    obtain rfl | rfl | rfl | rfl | rfl | rfl | rfl | rfl := hi <;> exact hadd
  exact ⟨by rw [hcycles, hzero, Nat.add_zero], hzero⟩

/-- Settles O56: no access charges, and a wait's charge is its table's entry, whatever else the state holds. -/
theorem waitsAndAccessesAreSeparate : Obligations.WaitsAndAccessesAreSeparate := by
  refine ⟨fun s t a v i hi h => exec_access_uncharged hi h, fun s u a r hr htiming x hx => ?_⟩
  have hwait (p : State) := (waitsChargeOnePlusTheEntry p a).1 r hr x hx
  exact ⟨_, _, hwait s, hwait u, rfl, by rw [htiming]⟩

end Sys2Proof.Machine
end
